-- ==== Sys2Proof/Word.lean ====
section
/-! DEFINITION. The word types of HUF-1 (spec/00_scope.md R6, R9) and the data its internal memories hold
(spec/10_state.md R41, R42). -/

namespace Sys2Proof

/-- Every register and every command word is 32 bits (R6, REG_W). -/
abbrev Word := BitVec 32

/-- A symbol is 8 bits (R6, SYM_W). -/
abbrev Symbol := BitVec 8

/-- A frequency counter is 32 bits, unsigned (R6, FREQ_W). -/
abbrev Count := BitVec 32

/-- A node frequency is 40 bits, unsigned (R6, NODE_FREQ_W). -/
abbrev NodeFreq := BitVec 40

/-- An arena index is 9 bits (R6, MAX_NODES). -/
abbrev Index := BitVec 9

/-- A bit-string is a list of bits, its first bit at the head (R10). -/
abbrev Bits := List Bool

/-- A node record of the arena (R41). -/
inductive Node where
  /-- `Leaf{sym, freq, sent}`; `sent` marks the sentinel empty tree's placeholder. -/
  | leaf (sym : Symbol) (freq : NodeFreq) (sent : Bool)
  /-- `Internal{freq, left, right}`; the children are arena indices. -/
  | internal (freq : NodeFreq) (left right : Index)
  deriving DecidableEq, Repr, Inhabited

/-- FT: 256 counters indexed by symbol; 0 means that the symbol has no entry (R40). -/
abbrev FreqTable := Vector Count 256

/-- CT: 256 entries indexed by symbol, each `absent` (none) or `present(c)` (some c) (R42). -/
abbrev CodeTable := Vector (Option Bits) 256

end Sys2Proof
end

