-- ==== Sys2Proof/Config.lean ====
section
/-! DEFINITION. The parameters of HUF-1: the fixed ones (spec/00_scope.md R6), the open ones (R7), and the values the
spec leaves unspecified (spec/42_tree_builder.md R145). -/

namespace Sys2Proof

/-- The open parameters (R7). A machine carries its own in `State.cfg`, which no step changes, so a statement about every
state is a statement about every configuration. -/
structure Config where
  /-- ENC_CAP_BITS, the capacity of EBUF in bits. -/
  encCapBits : Word
  /-- DEC_IN_CAP_BITS, the capacity of DIN in bits. -/
  decInCapBits : Word
  /-- DEC_OUT_CAP_SYMS, the capacity of DOUT in symbols. -/
  decOutCapSyms : Word
  /-- BASE, the address at which the platform places the register window. -/
  base : Nat
  deriving DecidableEq, Repr

/-- The size of the register window in bytes (R6, WINDOW). -/
def Config.window : Nat := 0x80

/-- R7's ranges: each capacity is 1 to 2^32-1, and BASE is aligned to 0x80. -/
def Config.wf (c : Config) : Bool :=
  c.encCapBits != 0 && c.decInCapBits != 0 && c.decOutCapSyms != 0 && c.base % Config.window == 0

/-- R7's reference values. BASE has none there: 0 stands in for it (DESIGN CHOICE, log entry 2; unsafe). -/
def Config.reference : Config :=
  { encCapBits := 0x00800000, decInCapBits := 0x00800000, decOutCapSyms := 0x00100000, base := 0 }

/-- FREQ_MAX, the largest count (R6). -/
def Config.freqMax : Count := 0xFFFFFFFF

/-- NSYM, the size of the alphabet (R6). -/
def Config.numSymbols : Nat := 256

/-- MAX_NODES, the size of the arena (R6). -/
def Config.maxNodes : Nat := 511

/-- The value ID always reads as (R26). -/
def Config.idWord : Word := 0x48554646

/-- The value PARAMS always reads as (R27): SYM_W 8, FREQ_W 32, NODE_FREQ_W 40, revision 1. -/
def Config.paramsWord : Word := 0x01282008

/-- The unspecified contents of an arena entry outside the tree (R41, R145), a FREE VALUE: `Config.freeNode draw i` is
entry `i` after the `draw`-th event that leaves entries unspecified. It has no body, so nothing can be proved of it
(log entry 3; safe). -/
opaque Config.freeNode : Nat → Index → Node

end Sys2Proof
end

