-- ==== Sys2Proof/Syntax.lean ====
section
/-! DEFINITION. The fifteen commands of HUF-1, one constructor per row of spec/opcode_table.json
(spec/30_encoding.md R88). The operands are the fields of R87, at the widths the formats give them. -/

namespace Sys2Proof

/-- A command, decoded (R88). -/
inductive Instr where
  | nop
  | clear
  | ack
  | count (sym : Symbol)
  | setFreq (sym : Symbol)
  | rdFreq (sym : Symbol)
  | build
  | rdNode (idx : Index)
  | rdCode (chunk : BitVec 3) (sym : Symbol)
  | encBegin
  | encSym (sym : Symbol)
  | encEnd
  | decBegin
  | decBits (nm1 : BitVec 4) (data : BitVec 16)
  | decEnd
  deriving DecidableEq, Repr

end Sys2Proof
end

