-- ==== Sys2Proof/WellFormed.lean ====
section
/-! DEFINITION. The fifteen opcodes and five formats of spec/30_encoding.md (R81 to R86, R88), and when a command, or a
line of assembler text (R92), is well formed. -/

namespace Sys2Proof

/-- The five formats of R82 to R86. -/
inductive Format where
  | n | s | x | c | b
  deriving DecidableEq, Repr

/-- The fifteen opcodes of R88, by mnemonic. -/
inductive Opcode where
  | nop | clear | ack
  | count | setFreq | rdFreq
  | build | rdNode | rdCode
  | encBegin | encSym | encEnd
  | decBegin | decBits | decEnd
  deriving DecidableEq, Repr

namespace Opcode

/-- The opcodes in the order of R88. -/
def all : List Opcode :=
  [nop, clear, ack, count, setFreq, rdFreq, build, rdNode, rdCode, encBegin, encSym, encEnd, decBegin, decBits, decEnd]

/-- The format column of R88. -/
def format : Opcode → Format
  | nop | clear | ack | build | encBegin | encEnd | decBegin | decEnd => .n
  | count | setFreq | rdFreq | encSym => .s
  | rdNode => .x
  | rdCode => .c
  | decBits => .b

end Opcode

/-- The opcode of a command. -/
def Instr.opcode : Instr → Opcode
  | .nop => .nop
  | .clear => .clear
  | .ack => .ack
  | .count _ => .count
  | .setFreq _ => .setFreq
  | .rdFreq _ => .rdFreq
  | .build => .build
  | .rdNode _ => .rdNode
  | .rdCode _ _ => .rdCode
  | .encBegin => .encBegin
  | .encSym _ => .encSym
  | .encEnd => .encEnd
  | .decBegin => .decBegin
  | .decBits _ _ => .decBits
  | .decEnd => .decEnd

/-- A command is well formed when each operand fits its field. The constructors' operand types are the fields' own
widths, every value of a field is legal (R84, R86, R91), and so every command is well formed; a value that does not fit
is caught where operands are still numbers, in `AsmLine.wellFormed`. -/
def Instr.wellFormed : Instr → Bool
  | .nop | .clear | .ack | .build | .encBegin | .encEnd | .decBegin | .decEnd => true
  | .count _ | .setFreq _ | .rdFreq _ | .encSym _ => true
  | .rdNode _ | .rdCode _ _ | .decBits _ _ => true

/-- A command line of R92, its operands still numbers and bit-strings as they are written. -/
inductive AsmLine where
  /-- A mnemonic without operands. -/
  | bare (op : Opcode)
  /-- `COUNT s`, `SETFREQ s`, `RD_FREQ s`, `ENC_SYM s`. -/
  | withSym (op : Opcode) (s : Nat)
  /-- `RD_NODE i`. -/
  | rdNode (i : Nat)
  /-- `RD_CODE s, k`. -/
  | rdCode (s k : Nat)
  /-- `DEC_BITS "b..."`. -/
  | decBits (b : Bits)
  deriving DecidableEq, Repr

/-- The operand ranges of R92's table, and that the mnemonic takes the operands written. -/
def AsmLine.wellFormed : AsmLine → Bool
  | .bare op => op.format == .n
  | .withSym op s => op.format == .s && decide (s < 256)
  | .rdNode i => decide (i < 512)
  | .rdCode s k => decide (s < 256) && decide (k < 8)
  | .decBits b => decide (1 ≤ b.length) && decide (b.length ≤ 16)

end Sys2Proof
end

