-- ==== Sys2Proof/Decode.lean ====
section
/-! DEFINITION. Decoding a command word, total on any 32-bit word (spec/30_encoding.md R80 to R91), and encoding a
command from the same formats. -/

namespace Sys2Proof

/-- The OPC column of R88: bits [31:24] of the command (R81). -/
def Opcode.code : Opcode → BitVec 8
  | .nop => 0x00
  | .clear => 0x01
  | .ack => 0x02
  | .count => 0x10
  | .setFreq => 0x11
  | .rdFreq => 0x12
  | .build => 0x20
  | .rdNode => 0x21
  | .rdCode => 0x22
  | .encBegin => 0x30
  | .encSym => 0x31
  | .encEnd => 0x32
  | .decBegin => 0x40
  | .decBits => 0x41
  | .decEnd => 0x42

/-- The opcode with a given code; none for the 241 undefined values (R90 item 1). -/
def Opcode.ofCode (c : BitVec 8) : Option Opcode :=
  Opcode.all.find? fun op => op.code == c

/-- The field `w[lo+len-1:lo]` (R9). -/
def field (w : Word) (lo len : Nat) : BitVec len := w.extractLsb' lo len

/-- The field OPC (R81). -/
def opc (w : Word) : BitVec 8 := field w 24 8

/-! ### Decoding -/

/-- Format N: bits [23:0] are reserved (R82). -/
def decodeN (w : Word) (i : Instr) : Option Instr :=
  if field w 0 24 = 0 then some i else none

/-- Format S: bits [23:8] are reserved, SYM is [7:0] (R83). -/
def decodeS (w : Word) (f : Symbol → Instr) : Option Instr :=
  if field w 8 16 = 0 then some (f (field w 0 8)) else none

/-- Format X: bits [23:9] are reserved, IDX is [8:0] (R84). -/
def decodeX (w : Word) (f : Index → Instr) : Option Instr :=
  if field w 9 15 = 0 then some (f (field w 0 9)) else none

/-- Format C: bits [23:11] are reserved, CHUNK is [10:8], SYM is [7:0] (R85). -/
def decodeC (w : Word) (f : BitVec 3 → Symbol → Instr) : Option Instr :=
  if field w 11 13 = 0 then some (f (field w 8 3) (field w 0 8)) else none

/-- Format B: bits [23:20] are reserved, NM1 is [19:16], DATA is [15:0] (R86). -/
def decodeB (w : Word) (f : BitVec 4 → BitVec 16 → Instr) : Option Instr :=
  if field w 20 4 = 0 then some (f (field w 16 4) (field w 0 16)) else none

/-- The operands of a word whose opcode is defined; none where a reserved bit is 1 (R90 item 2). -/
def decodeOperands (w : Word) : Opcode → Option Instr
  | .nop => decodeN w .nop
  | .clear => decodeN w .clear
  | .ack => decodeN w .ack
  | .count => decodeS w .count
  | .setFreq => decodeS w .setFreq
  | .rdFreq => decodeS w .rdFreq
  | .build => decodeN w .build
  | .rdNode => decodeX w .rdNode
  | .rdCode => decodeC w .rdCode
  | .encBegin => decodeN w .encBegin
  | .encSym => decodeS w .encSym
  | .encEnd => decodeN w .encEnd
  | .decBegin => decodeN w .decBegin
  | .decBits => decodeB w .decBits
  | .decEnd => decodeN w .decEnd

/-- R89's `decode`: `some i` is `valid(i)`, `none` is `illegal`. -/
def decode (w : Word) : Option Instr :=
  match Opcode.ofCode (opc w) with
  | some op => decodeOperands w op
  | none => none

/-! ### The opcode map as R88 prints it -/

/-- A row of R88: a word `w` selects it when `w & mask = mtch`. -/
structure OpcodeRow where
  op : Opcode
  mtch : Word
  mask : Word
  deriving DecidableEq, Repr

/-- The complete opcode map (R88). -/
def opcodeMap : List OpcodeRow :=
  [ ⟨.nop, 0x00000000, 0xFFFFFFFF⟩, ⟨.clear, 0x01000000, 0xFFFFFFFF⟩, ⟨.ack, 0x02000000, 0xFFFFFFFF⟩,
    ⟨.count, 0x10000000, 0xFFFFFF00⟩, ⟨.setFreq, 0x11000000, 0xFFFFFF00⟩, ⟨.rdFreq, 0x12000000, 0xFFFFFF00⟩,
    ⟨.build, 0x20000000, 0xFFFFFFFF⟩, ⟨.rdNode, 0x21000000, 0xFFFFFE00⟩, ⟨.rdCode, 0x22000000, 0xFFFFF800⟩,
    ⟨.encBegin, 0x30000000, 0xFFFFFFFF⟩, ⟨.encSym, 0x31000000, 0xFFFFFF00⟩, ⟨.encEnd, 0x32000000, 0xFFFFFFFF⟩,
    ⟨.decBegin, 0x40000000, 0xFFFFFFFF⟩, ⟨.decBits, 0x41000000, 0xFFF00000⟩, ⟨.decEnd, 0x42000000, 0xFFFFFFFF⟩ ]

/-- The word selects the row (R88). -/
def OpcodeRow.selects (r : OpcodeRow) (w : Word) : Bool := w &&& r.mask == r.mtch

/-! ### Encoding -/

/-- Format N (R82). -/
def encodeN (op : Opcode) : Word := op.code ++ 0#24

/-- Format S (R83). -/
def encodeS (op : Opcode) (sym : Symbol) : Word := op.code ++ 0#16 ++ sym

/-- Format X (R84). -/
def encodeX (op : Opcode) (idx : Index) : Word := op.code ++ 0#15 ++ idx

/-- Format C (R85). -/
def encodeC (op : Opcode) (chunk : BitVec 3) (sym : Symbol) : Word := op.code ++ 0#13 ++ chunk ++ sym

/-- Format B (R86). -/
def encodeB (op : Opcode) (nm1 : BitVec 4) (data : BitVec 16) : Word := op.code ++ 0#4 ++ nm1 ++ data

/-- The command word of a command (R82 to R86, R88). -/
def encode : Instr → Word
  | .nop => encodeN .nop
  | .clear => encodeN .clear
  | .ack => encodeN .ack
  | .count sym => encodeS .count sym
  | .setFreq sym => encodeS .setFreq sym
  | .rdFreq sym => encodeS .rdFreq sym
  | .build => encodeN .build
  | .rdNode idx => encodeX .rdNode idx
  | .rdCode chunk sym => encodeC .rdCode chunk sym
  | .encBegin => encodeN .encBegin
  | .encSym sym => encodeS .encSym sym
  | .encEnd => encodeN .encEnd
  | .decBegin => encodeN .decBegin
  | .decBits nm1 data => encodeB .decBits nm1 data
  | .decEnd => encodeN .decEnd

/-! ### The assembler (R92) -/

/-- The number a bit-string writes, its first bit the most significant (R9). -/
def bitsValue (b : Bits) : Nat := b.foldl (fun v x => 2 * v + x.toNat) 0

/-- The word a well-formed command line encodes to, by the "encodes to" column of R92; none for a line that is not well
formed. -/
def AsmLine.assemble (l : AsmLine) : Option Word :=
  if l.wellFormed then
    some <| match l with
      | .bare op => op.code.zeroExtend 32 <<< 24
      | .withSym op s => op.code.zeroExtend 32 <<< 24 ||| BitVec.ofNat 32 s
      | .rdNode i => Opcode.rdNode.code.zeroExtend 32 <<< 24 ||| BitVec.ofNat 32 i
      | .rdCode s k => Opcode.rdCode.code.zeroExtend 32 <<< 24 ||| BitVec.ofNat 32 k <<< 8 ||| BitVec.ofNat 32 s
      | .decBits b =>
        Opcode.decBits.code.zeroExtend 32 <<< 24 ||| BitVec.ofNat 32 (b.length - 1) <<< 16
          ||| BitVec.ofNat 32 (bitsValue b) <<< (16 - b.length)
  else none

/-! ### The host's reading of the table -/

/-- The command word whose low `nbits` bits are `w` and whose other bits are 0. -/
def tableWord (nbits w : Nat) : Word := BitVec.ofNat 32 (w % 2 ^ nbits)

/-- The command this decoder reads from a table word: one 32-bit word, as it is written to CMD (R80). -/
def decodeTableWord (nbits w : Nat) : Option Instr := decode (tableWord nbits w)

end Sys2Proof
end

