-- ==== Sys2Proof/Machine/State.lean ====
section
/-! DEFINITION. The state of HUF-1 (spec/10_state.md R20), its reset values (R51), and the reasons a step can stop. -/

namespace Sys2Proof.Machine

/-- TSTATE, the frequency and tree phase (R31). -/
inductive TState where
  | collect | built
  deriving DecidableEq, Repr

/-- ESTATE and DSTATE, a session's phase (R32, R33). -/
inductive Session where
  | idle | active | done
  deriving DecidableEq, Repr

/-- KIND, the kind of the resident tree (R43). -/
inductive Kind where
  | none | empty | single | general
  deriving DecidableEq, Repr

/-- The error codes of R221; `none` is "no error". -/
inductive ErrCode where
  | none | invalidFrequency | unknownSymbol | malformedStream | illegalCommand | capacityExceeded
  deriving DecidableEq, Repr

/-- One bus access by the host, as the interconnect sees it: a platform address, a width in bytes, and for a write the
value (spec/20_memory.md R60 to R63). -/
inductive Access where
  | read (addr bytes : Nat)
  | write (addr bytes : Nat) (v : Word)
  deriving DecidableEq, Repr

/-- One machine step (spec/00_scope.md R11): the host's, the engine's, or an assertion of the `rst` input
(spec/70_reset_and_hazards.md R250). -/
inductive Move where
  | host (a : Access)
  | engine
  | rst
  deriving DecidableEq, Repr

/-- The architectural state (R20) and, after it, the model's own fields: the configuration (R7), the count of unspecified
draws (log entry 3), and the two sides of the host interface (R11, R273; log entry 1). -/
structure State where
  /-- PEND, the pending-command slot (R34). -/
  pend : Option Word
  /-- ERR (R47). -/
  err : Bool
  /-- OVR (R47). -/
  ovr : Bool
  /-- ERRCODE (R30). -/
  errcode : ErrCode
  /-- ERRCMD (R46). -/
  errcmd : Word
  /-- ARG (R35). -/
  arg : Word
  /-- RESULT0 (R36). -/
  result0 : Word
  /-- RESULT1 (R36). -/
  result1 : Word
  /-- TSTATE (R31). -/
  tstate : TState
  /-- FT (R40). -/
  ft : FreqTable
  /-- KIND (R43). -/
  kind : Kind
  /-- ROOT (R43). -/
  root : Index
  /-- NNODES (R43). -/
  nnodes : Index
  /-- NLEAVES (R43). -/
  nleaves : Index
  /-- ARENA (R41): the entries that hold specified records, from index 0 up. Every entry past them is unspecified
  (R145) and reads as `Config.freeNode arenaDraws`. -/
  arena : List Node
  /-- CT (R42). -/
  ct : CodeTable
  /-- ESTATE (R32). -/
  estate : Session
  /-- EBUF (R44). -/
  ebuf : Bits
  /-- ERP, in words (R44). -/
  erp : Nat
  /-- DSTATE (R33). -/
  dstate : Session
  /-- DIN (R45). -/
  din : Bits
  /-- DOUT (R45). -/
  dout : List Symbol
  /-- DRP, in symbols (R45). -/
  drp : Nat
  /-- MODEL: how often the unspecified arena entries have been drawn anew. -/
  arenaDraws : Nat
  /-- The open parameters (R7); no step changes them. -/
  cfg : Config
  /-- MODEL: the machine steps still to come, the next one first: one interleaving of R69. -/
  script : List Move
  /-- MODEL: the values the host's reads have returned, oldest first (R273). -/
  reads : List Word
  deriving DecidableEq, Repr

/-- Why a step stops with a fault. -/
inductive Fault where
  /-- Raised by a host access whose address lies outside the register window: the block has no such register, and the
  platform decides what is there (R67). Safe: the model stops where the platform would answer. -/
  | outsideWindow
  deriving DecidableEq, Repr

/-- Why a step is refused. -/
inductive Refusal where
  /-- Raised by an arm of `exec` that has no meaning. No arm has: safe. -/
  | notModelled (mnemonic : String)
  /-- Raised by a host access that is not one aligned 32-bit access (R61; spec/93_implementation_defined.md I5 says
  "refuse"). Safe: the model stops where the interconnect would do something. -/
  | notAWholeRegister
  deriving DecidableEq, Repr

/-- The state right after reset (R51), in the reference configuration (R7), with nothing arriving from the host. -/
def State.reset : State where
  pend := Option.none
  err := false
  ovr := false
  errcode := ErrCode.none
  errcmd := 0
  arg := 0
  result0 := 0
  result1 := 0
  tstate := TState.collect
  ft := Vector.replicate 256 0
  kind := Kind.none
  root := 0
  nnodes := 0
  nleaves := 0
  arena := []
  ct := Vector.replicate 256 Option.none
  estate := Session.idle
  ebuf := []
  erp := 0
  dstate := Session.idle
  din := []
  dout := []
  drp := 0
  arenaDraws := 0
  cfg := Config.reference
  script := []
  reads := []

end Sys2Proof.Machine
end

