-- ==== Sys2Proof/Machine/Flags.lean ====
section
/-! DEFINITION. The flags of HUF-1, ERR and OVR (spec/10_state.md R47), and the status and error registers that show them
(R29, R30). No command computes a flag from data. -/

namespace Sys2Proof.Machine

/-- STATUS.BUSY: a command is pending (R29, R34). -/
def State.busy (s : State) : Bool := s.pend.isSome

/-- STATUS.TBUILT (R29, R31). -/
def TState.code : TState → BitVec 1
  | .collect => 0
  | .built => 1

/-- STATUS.ESTATE and STATUS.DSTATE; the value 3 never occurs (R29, R32, R33). -/
def Session.code : Session → BitVec 2
  | .idle => 0
  | .active => 1
  | .done => 2

/-- TREE.KIND (R43). -/
def Kind.code : Kind → BitVec 2
  | .none => 0
  | .empty => 1
  | .single => 2
  | .general => 3

/-- ERRCODE.CODE (R30, R221). -/
def ErrCode.code : ErrCode → BitVec 4
  | .none => 0
  | .invalidFrequency => 1
  | .unknownSymbol => 2
  | .malformedStream => 3
  | .illegalCommand => 4
  | .capacityExceeded => 5

/-- A flag as a number: 1 when set. -/
def flagWord (b : Bool) : Word := if b then 1 else 0

/-- STATUS, by R29's pseudocode. -/
def State.status (s : State) : Word :=
  flagWord s.busy ||| flagWord s.err <<< 1 ||| flagWord s.ovr <<< 2 ||| s.tstate.code.zeroExtend 32 <<< 3
    ||| s.estate.code.zeroExtend 32 <<< 4 ||| s.dstate.code.zeroExtend 32 <<< 6

/-- The register ERRCODE: CODE in bits [3:0], the others 0 (R30). -/
def State.errcodeWord (s : State) : Word := s.errcode.code.zeroExtend 32

/-- A CMD or ARG write that arrives while a command is pending is dropped and sets OVR (R47, R228). -/
def State.overrun (s : State) : State := { s with ovr := true }

end Sys2Proof.Machine
end

