-- ==== Sys2Proof/Machine/Operands.lean ====
section
/-! DEFINITION. Operand assembly (spec/30_encoding.md R87) and the layouts of the words the block gives back: packed
stream bits (spec/20_memory.md R66), node records and code entries (spec/42_tree_builder.md R146, R148), the tree
descriptor (spec/10_state.md R43). -/

namespace Sys2Proof.Machine

/-- N, the bit count of DEC_BITS: NM1 + 1, so 1 to 16 (R87). -/
def bitCount (nm1 : BitVec 4) : Nat := nm1.toNat + 1

/-- `bits(w)`: N bits of DATA from DATA[15] down; the bits below are ignored (R87, R91). -/
def streamBits (nm1 : BitVec 4) (data : BitVec 16) : Bits :=
  (List.range (bitCount nm1)).map fun k => data.getMsbD k

/-- Word `k` of a bit-string, MSB-first: bit 31-i is bit 32k+i of the string, and 0 past its end (R66). -/
def packWord (b : Bits) (k : Nat) : Word :=
  BitVec.ofFnBE fun i : Fin 32 => b.getD (32 * k + i) false

/-- How many 32-bit words a bit-string fills, the last one perhaps in part (R174, R175). -/
def wordCount (b : Bits) : Nat := (b.length + 31) / 32

/-- `zext_32(LEN)` of a list length (R38, R39). -/
def lengthWord (n : Nat) : Word := BitVec.ofNat 32 n

/-- The frequency of a node record (R41). -/
def nodeFreq : Node → NodeFreq
  | .leaf _ freq _ => freq
  | .internal freq _ _ => freq

/-- RESULT0 after RD_NODE of a valid index: freq[31:0] (R146). -/
def nodeResult0 (n : Node) : Word := (nodeFreq n).extractLsb' 0 32

/-- RESULT1 after RD_NODE of a valid index (R146). -/
def nodeResult1 : Node → Word
  | .leaf sym freq sent =>
    (freq.extractLsb' 32 8).zeroExtend 32 ||| (1 : Word) <<< 8 ||| flagWord sent <<< 9 ||| (1 : Word) <<< 10 ||| sym.zeroExtend 32 <<< 12
  | .internal freq left right =>
    (freq.extractLsb' 32 8).zeroExtend 32 ||| (1 : Word) <<< 10 ||| left.zeroExtend 32 <<< 12 ||| right.zeroExtend 32 <<< 21

/-- RESULT0 after RD_CODE: chunk `k` of a present code, 0 of an absent one (R148). -/
def codeResult0 (c : Option Bits) (k : BitVec 3) : Word :=
  match c with
  | some b => packWord b k.toNat
  | none => 0

/-- RESULT1 after RD_CODE: PRESENT in bit 31 and LEN in bits [8:0], or 0 (R148). -/
def codeResult1 (c : Option Bits) : Word :=
  match c with
  | some b => 0x80000000 ||| BitVec.ofNat 32 b.length
  | none => 0

/-- The register TREE (R43). -/
def State.treeWord (s : State) : Word :=
  s.root.zeroExtend 32 ||| s.nnodes.zeroExtend 32 <<< 10 ||| s.nleaves.zeroExtend 32 <<< 20
    ||| s.kind.code.zeroExtend 32 <<< 29

/-- What a DEC_OUT read returns for a symbol: VALID in bit 31 and the symbol in bits [7:0] (R39, R195). -/
def symbolWord (sym : Symbol) : Word := 0x80000000 ||| sym.zeroExtend 32

/-- The register ENC_LEN (R38). -/
def State.encLen (s : State) : Word := if s.estate = .done then lengthWord s.ebuf.length else 0

/-- The register DEC_LEN (R39). -/
def State.decLen (s : State) : Word := if s.dstate = .done then lengthWord s.dout.length else 0

end Sys2Proof.Machine
end

