-- ==== Sys2Proof/Machine/Ops.lean ====
section
/-! DEFINITION. The operations the commands share: the internal memories (spec/10_state.md R40 to R42), raising an error
and leaving it (spec/60_exceptions.md R222, spec/40_control.md R104, R105), and the engine's dispatch rule (R100, R101). -/

namespace Sys2Proof.Machine

/-! ### The internal memories -/

/-- `FT[s]` (R40). -/
def ftGet (ft : FreqTable) (sym : Symbol) : Count := ft[sym.toNat]

/-- `FT[s] <- v` (R40). -/
def ftSet (ft : FreqTable) (sym : Symbol) (v : Count) : FreqTable := ft.set sym.toNat v

/-- `CT[s]` (R42). -/
def ctGet (ct : CodeTable) (sym : Symbol) : Option Bits := ct[sym.toNat]

/-- `CT[s] <- present(c)` (R42). -/
def ctSet (ct : CodeTable) (sym : Symbol) (c : Bits) : CodeTable := ct.set sym.toNat (some c)

/-- FT with no entry (R40, R51). -/
def ftEmpty : FreqTable := Vector.replicate 256 0

/-- CT with every entry absent (R42, R51). -/
def ctEmpty : CodeTable := Vector.replicate 256 none

/-- The 256 symbols, ascending. -/
def allSymbols : List Symbol := (List.range Config.numSymbols).map (BitVec.ofNat 8)

/-- `ARENA[i]`: the record written there, or an unspecified one (R41, R145). -/
def nodeAt (arena : List Node) (draw : Nat) (i : Index) : Node :=
  match arena[i.toNat]? with
  | some n => n
  | none => Config.freeNode draw i

/-- `ARENA[i]` in a state. -/
def State.node (s : State) (i : Index) : Node := nodeAt s.arena s.arenaDraws i

/-! ### Errors: entry and return -/

/-- `raise CmdError(code)`: ERR, ERRCODE, and in ERRCMD the pending command word (R222, R223, R225). Where no command is
pending there is no word to record, and ERRCMD stays (log entry 6). -/
def raise (code : ErrCode) (s : State) : State :=
  { s with err := true, errcode := code, errcmd := s.pend.getD s.errcmd }

/-- `Ack()`, the return from an error: the error record and OVR are cleared and nothing else changes (R105, R227). -/
def acknowledge (s : State) : State :=
  { s with err := false, errcode := .none, errcmd := 0, ovr := false }

/-- `Clear()`, the soft reset: every element of R51 but ARG and PEND takes its reset value, and ARENA becomes unspecified
(R104, R145). -/
def clearBlock (s : State) : State :=
  { s with
    ft := ftEmpty
    tstate := .collect
    kind := .none, root := 0, nnodes := 0, nleaves := 0
    arena := [], arenaDraws := s.arenaDraws + 1
    ct := ctEmpty
    estate := .idle, ebuf := [], erp := 0
    dstate := .idle, din := [], dout := [], drp := 0
    result0 := 0, result1 := 0
    err := false, errcode := .none, errcmd := 0, ovr := false }

/-- The clean-up of an encoder error (R171, R222). -/
def dropEncoder (s : State) : State := { s with ebuf := [], erp := 0, estate := .idle }

/-- The clean-up of a decoder error (R191, R192, R222). -/
def dropDecoder (s : State) : State := { s with din := [], dout := [], drp := 0, dstate := .idle }

/-- RESULT0 and RESULT1 are written together (R36, R65). -/
def setResults (r0 r1 : Word) (s : State) : State := { s with result0 := r0, result1 := r1 }

/-! ### The engine's dispatch rule -/

/-- `PhaseOK(d)`, by R101's table. -/
def phaseOk (op : Opcode) (s : State) : Bool :=
  match op with
  | .nop | .clear | .ack | .rdFreq => true
  | .count | .setFreq | .build => s.tstate == .collect
  | .rdNode | .rdCode | .encBegin | .decBegin => s.tstate == .built
  | .encSym | .encEnd => s.estate == .active
  | .decBits | .decEnd => s.dstate == .active

/-- `PEND <- none`, at the end of every engine step (R100). -/
def retire (s : State) : State := { s with pend := none }

/-- The engine step of a command that ERR gates: discarded while ERR = 1, ILLEGAL_COMMAND out of phase, and otherwise the
command's own rule (R100, R102, R224, R226). -/
def runGated (op : Opcode) (own : State → State) (s : State) : Host.Outcome State Fault Refusal :=
  .next <| retire <|
    if s.err then s
    else if phaseOk op s then own s
    else raise .illegalCommand s

/-- The engine step of CLEAR and ACK, which run whatever ERR is (R100, R226). -/
def runAlways (own : State → State) (s : State) : Host.Outcome State Fault Refusal :=
  .next (retire (own s))

/-- The engine step of an illegal word: discarded while ERR = 1, ILLEGAL_COMMAND otherwise (R90, R100, R102). -/
def runIllegal (s : State) : Host.Outcome State Fault Refusal :=
  .next <| retire <| if s.err then s else raise .illegalCommand s

end Sys2Proof.Machine
end

