-- ==== Sys2Proof/Machine/Decoder.lean ====
section
/-! DEFINITION. The Decoder: DEC_BEGIN, DEC_BITS, DEC_END and the DEC_OUT pop (spec/44_decoder.md). -/

namespace Sys2Proof.Machine

/-! ### Decode (R193) -/

/-- The result of `Decode`: `malformed`, or `ok(out)`, where out is written out or is a repeated symbol. -/
inductive Decoded where
  | malformed
  | symbols (out : List Symbol)
  /-- `ok(replicate(n, sym))`. -/
  | copies (n : Nat) (sym : Symbol)
  deriving DecidableEq, Repr

/-- The symbol list of a result; none for `malformed`. -/
def Decoded.output : Decoded → Option (List Symbol)
  | .malformed => none
  | .symbols out => some out
  | .copies n sym => some (List.replicate n sym)

/-- |out|; 0 for `malformed`. -/
def Decoded.length : Decoded → Nat
  | .malformed => 0
  | .symbols out => out.length
  | .copies n _ => n

/-- The GENERAL walk from `cur` over the bits that are left, to the symbols emitted from there on; none when the bits end
at an internal node, or when a bit would move the cursor below a leaf. At a leaf with a bit left, the leaf's symbol is
emitted and the cursor is at ROOT before the bit is consumed (R193). -/
def walkStream (node : Index → Node) (root : Index) : Index → Bits → Option (List Symbol)
  | cur, [] =>
    match node cur with
    | .leaf sym _ _ => some [sym]
    | .internal _ _ _ => none
  | cur, b :: bs =>
    match node cur with
    | .internal _ left right => walkStream node root (if b then right else left) bs
    | .leaf sym _ _ =>
      match node root with
      | .internal _ left right => (walkStream node root (if b then right else left) bs).map (sym :: ·)
      | .leaf _ _ _ => none

/-- `Decode(bits)` over the resident tree, its cases in R193's order. A tree of KIND = NONE, or a SINGLE tree whose node
is not a leaf, is no tree that BUILD makes: any stream is malformed there (log entry 7). -/
def decodeStream (node : Index → Node) (kind : Kind) (root : Index) (bits : Bits) : Decoded :=
  match kind with
  | .empty => if bits = [] then .symbols [] else .malformed
  | .single =>
    match node 0 with
    | .leaf sym freq _ => if bits = [] then .copies freq.toNat sym else .malformed
    | .internal _ _ _ => .malformed
  | .general =>
    match walkStream node root root bits with
    | some out => .symbols out
    | none => if bits = [] then .symbols [] else .malformed
  | .none => .malformed

/-! ### The commands -/

/-- DEC_BEGIN's own rule (R190). -/
def decBeginOwn (s : State) : State := { s with din := [], dout := [], drp := 0, dstate := .active }

/-- DEC_BITS's own rule (R191). -/
def decBitsOwn (nm1 : BitVec 4) (data : BitVec 16) (s : State) : State :=
  if s.cfg.decInCapBits.toNat < s.din.length + bitCount nm1 then raise .capacityExceeded (dropDecoder s)
  else { s with din := s.din ++ streamBits nm1 data }

/-- What DEC_END does with a result: MALFORMED_STREAM before CAPACITY_EXCEEDED, either of which ends the session, and
otherwise the output is published (R192). -/
def publish (r : Decoded) (s : State) : State :=
  match r.output with
  | none => raise .malformedStream (dropDecoder s)
  | some out =>
    if s.cfg.decOutCapSyms.toNat < r.length then raise .capacityExceeded (dropDecoder s)
    else { s with din := [], dout := out, drp := 0, dstate := .done }

/-- DEC_END's own rule (R192). -/
def decEndOwn (s : State) : State := publish (decodeStream s.node s.kind s.root s.din) s

/-- DEC_BEGIN opens a decoder session (R190). -/
def execDecBegin (s : State) : Host.Outcome State Fault Refusal := runGated .decBegin decBeginOwn s

/-- DEC_BITS appends 1 to 16 stream bits to DIN (R191). -/
def execDecBits (nm1 : BitVec 4) (data : BitVec 16) (s : State) : Host.Outcome State Fault Refusal :=
  runGated .decBits (decBitsOwn nm1 data) s

/-- DEC_END decodes DIN and publishes the result (R192). -/
def execDecEnd (s : State) : Host.Outcome State Fault Refusal := runGated .decEnd decEndOwn s

/-- `DecPop()`: the next symbol of a completed decoding, or 0 with no state change (R195). -/
def decPop (s : State) : Word × State :=
  match s.dstate, s.dout[s.drp]? with
  | .done, some sym => (symbolWord sym, { s with drp := s.drp + 1 })
  | _, _ => (0, s)

end Sys2Proof.Machine
end

