-- ==== Sys2Proof/Machine/Encoder.lean ====
section
/-! DEFINITION. The Encoder: ENC_BEGIN, ENC_SYM, ENC_END and the ENC_OUT pop (spec/43_encoder.md). -/

namespace Sys2Proof.Machine

/-- ENC_BEGIN's own rule (R170). -/
def encBeginOwn (s : State) : State := { s with ebuf := [], erp := 0, estate := .active }

/-- ENC_SYM's own rule: UNKNOWN_SYMBOL before CAPACITY_EXCEEDED, either of which ends the session (R171). -/
def encSymOwn (sym : Symbol) (s : State) : State :=
  match ctGet s.ct sym with
  | none => raise .unknownSymbol (dropEncoder s)
  | some c =>
    if s.cfg.encCapBits.toNat < s.ebuf.length + c.length then raise .capacityExceeded (dropEncoder s)
    else { s with ebuf := s.ebuf ++ c }

/-- ENC_END's own rule (R173). -/
def encEndOwn (s : State) : State := { s with estate := .done, erp := 0 }

/-- ENC_BEGIN opens an encoder session (R170). -/
def execEncBegin (s : State) : Host.Outcome State Fault Refusal := runGated .encBegin encBeginOwn s

/-- ENC_SYM appends the code of a symbol to the bit buffer (R171). -/
def execEncSym (sym : Symbol) (s : State) : Host.Outcome State Fault Refusal := runGated .encSym (encSymOwn sym) s

/-- ENC_END closes the session and publishes the output (R173). -/
def execEncEnd (s : State) : Host.Outcome State Fault Refusal := runGated .encEnd encEndOwn s

/-- `EncPop()`: the next packed word of a completed encoding, or 0 with no state change (R175). -/
def encPop (s : State) : Word × State :=
  if s.estate = .done ∧ s.erp < wordCount s.ebuf then (packWord s.ebuf s.erp, { s with erp := s.erp + 1 })
  else (0, s)

end Sys2Proof.Machine
end

