-- ==== Sys2Proof/Machine/Bus.lean ====
section
/-! DEFINITION. The host's side of the register window: the register map (spec/10_state.md R23) and the bus accesses
(spec/20_memory.md R60 to R68). -/

namespace Sys2Proof.Machine

/-- The registers of R23; `reserved` is any of the offsets 0x44 to 0x7C (R48). -/
inductive Reg where
  | id | params | cmd | status | errcode | arg | result0 | result1
  | encLen | encOut | decLen | decOut | encCap | decInCap | decOutCap
  | tree | errcmd | reserved
  deriving DecidableEq, Repr

/-- The register at a byte offset (R23). Offsets past 0x7C and offsets that are no multiple of 4 name no register; `route`
stops them before this is asked. -/
def Reg.ofOffset (off : Nat) : Reg :=
  match off with
  | 0x00 => .id
  | 0x04 => .params
  | 0x08 => .cmd
  | 0x0C => .status
  | 0x10 => .errcode
  | 0x14 => .arg
  | 0x18 => .result0
  | 0x1C => .result1
  | 0x20 => .encLen
  | 0x24 => .encOut
  | 0x28 => .decLen
  | 0x2C => .decOut
  | 0x30 => .encCap
  | 0x34 => .decInCap
  | 0x38 => .decOutCap
  | 0x3C => .tree
  | 0x40 => .errcmd
  | _ => .reserved

/-- The byte offset of a register (R23); for `reserved`, the first reserved offset. -/
def Reg.offset : Reg → Nat
  | .id => 0x00
  | .params => 0x04
  | .cmd => 0x08
  | .status => 0x0C
  | .errcode => 0x10
  | .arg => 0x14
  | .result0 => 0x18
  | .result1 => 0x1C
  | .encLen => 0x20
  | .encOut => 0x24
  | .decLen => 0x28
  | .decOut => 0x2C
  | .encCap => 0x30
  | .decInCap => 0x34
  | .decOutCap => 0x38
  | .tree => 0x3C
  | .errcmd => 0x40
  | .reserved => 0x44

/-- `BusWrite`: only CMD and ARG take a write, and only while no command is pending (R62). -/
def busWrite (r : Reg) (v : Word) (s : State) : State :=
  match r with
  | .cmd => if s.busy then s.overrun else { s with pend := some v }
  | .arg => if s.busy then s.overrun else { s with arg := v }
  | _ => s

/-- The registers that read the same while a command is pending (R63, first case). -/
def busReadAlways (r : Reg) (s : State) : Option Word :=
  match r with
  | .id => some Config.idWord
  | .params => some Config.paramsWord
  | .status => some s.status
  | .encCap => some s.cfg.encCapBits
  | .decInCap => some s.cfg.decInCapBits
  | .decOutCap => some s.cfg.decOutCapSyms
  | _ => none

/-- What a read returns while no command is pending, with the state it leaves (R63, last case). -/
def busReadIdle (r : Reg) (s : State) : Word × State :=
  match r with
  | .errcode => (s.errcodeWord, s)
  | .arg => (s.arg, s)
  | .result0 => (s.result0, s)
  | .result1 => (s.result1, s)
  | .encLen => (s.encLen, s)
  | .encOut => encPop s
  | .decLen => (s.decLen, s)
  | .decOut => decPop s
  | .tree => (s.treeWord, s)
  | .errcmd => (s.errcmd, s)
  | .cmd | .reserved => (0, s)
  | .id | .params | .status | .encCap | .decInCap | .decOutCap => ((busReadAlways r s).getD 0, s)

/-- `BusRead`: the value returned and the state left (R63). -/
def busRead (r : Reg) (s : State) : Word × State :=
  match busReadAlways r s with
  | some v => (v, s)
  | none => if s.busy then (0, s) else busReadIdle r s

/-- Where an access goes: to a register, past the window, or to the interconnect. -/
inductive Route where
  | reg (r : Reg)
  | outside
  | notWhole
  deriving DecidableEq, Repr

/-- The window is at BASE and nothing else is the block's (R67); only a 32-bit access at a multiple of 4 is defined
(R61). -/
def route (c : Config) (addr bytes : Nat) : Route :=
  if addr < c.base ∨ c.base + Config.window ≤ addr then .outside
  else if bytes = 4 ∧ (addr - c.base) % 4 = 0 then .reg (Reg.ofOffset (addr - c.base))
  else .notWhole

/-- A host read: the value goes to the host (R63, R273). -/
def hostRead (r : Reg) (s : State) : State :=
  let (v, t) := busRead r s
  { t with reads := t.reads ++ [v] }

/-- One host step (R11): a read or a write of one register; an access that is not a whole register is refused (R61). -/
def hostStep (a : Access) (s : State) : Host.Outcome State Fault Refusal :=
  match a with
  | .read addr bytes =>
    match route s.cfg addr bytes with
    | .reg r => .next (hostRead r s)
    | .outside => .fault .outsideWindow
    | .notWhole => .refused .notAWholeRegister
  | .write addr bytes v =>
    match route s.cfg addr bytes with
    | .reg r => .next (busWrite r v s)
    | .outside => .fault .outsideWindow
    | .notWhole => .refused .notAWholeRegister

/-- The reset event: every element of R51 takes its reset value, the run ends and a new one starts, in the same
configuration (R250). The steps still to come are the new run's. -/
def resetBlock (s : State) : State :=
  { State.reset with arenaDraws := s.arenaDraws + 1, cfg := s.cfg, script := s.script }

end Sys2Proof.Machine
end

