-- ==== Sys2Proof/Machine/Control.lean ====
section
/-! DEFINITION. The control commands NOP, CLEAR and ACK (spec/40_control.md R103 to R105). -/

namespace Sys2Proof.Machine

/-- NOP does nothing (R103). -/
def execNop (s : State) : Host.Outcome State Fault Refusal := runGated .nop id s

/-- CLEAR is the soft reset (R104). -/
def execClear (s : State) : Host.Outcome State Fault Refusal := runAlways clearBlock s

/-- ACK acknowledges the error record (R105). -/
def execAck (s : State) : Host.Outcome State Fault Refusal := runAlways acknowledge s

end Sys2Proof.Machine
end

