-- ==== Sys2Proof/Machine/Frequency.lean ====
section
/-! DEFINITION. The Frequency Table Builder: COUNT, SETFREQ and RD_FREQ (spec/41_frequency.md R120, R121, R123). -/

namespace Sys2Proof.Machine

/-- COUNT's own rule: the counter of `sym` goes up by 1, and never wraps (R120). -/
def countOwn (sym : Symbol) (s : State) : State :=
  if ftGet s.ft sym = Config.freqMax then raise .capacityExceeded s
  else { s with ft := ftSet s.ft sym (ftGet s.ft sym + 1) }

/-- SETFREQ's own rule: the counter of `sym` takes the whole of ARG, which must not be 0 (R121). -/
def setFreqOwn (sym : Symbol) (s : State) : State :=
  if s.arg = 0 then raise .invalidFrequency s
  else { s with ft := ftSet s.ft sym s.arg }

/-- RD_FREQ's own rule (R123). -/
def rdFreqOwn (sym : Symbol) (s : State) : State := setResults (ftGet s.ft sym) 0 s

/-- COUNT adds one occurrence of a symbol (R120). -/
def execCount (sym : Symbol) (s : State) : Host.Outcome State Fault Refusal := runGated .count (countOwn sym) s

/-- SETFREQ supplies a leaf frequency from ARG (R121). -/
def execSetFreq (sym : Symbol) (s : State) : Host.Outcome State Fault Refusal := runGated .setFreq (setFreqOwn sym) s

/-- RD_FREQ reads a frequency-table entry (R123). -/
def execRdFreq (sym : Symbol) (s : State) : Host.Outcome State Fault Refusal := runGated .rdFreq (rdFreqOwn sym) s

end Sys2Proof.Machine
end

