-- ==== Sys2Proof/Machine/TreeBuilder.lean ====
section
/-! DEFINITION. The Code Tree Builder and the Code Table Generator: BUILD, RD_NODE and RD_CODE
(spec/42_tree_builder.md). -/

namespace Sys2Proof.Machine

/-! ### The priority queue (R141, R142) -/

/-- An element of the priority queue Q: an arena index, with its node's frequency beside it. A node's frequency does not
change once the node is written, so the pair stands for the index (log entry 8). -/
structure QEntry where
  freq : NodeFreq
  idx : Index
  deriving DecidableEq, Repr

/-- The priority order: `(freq, idx)` lexicographically, unsigned (R142). -/
def QEntry.before (a b : QEntry) : Bool :=
  decide (a.freq < b.freq) || (a.freq == b.freq && decide (a.idx < b.idx))

/-- The element of a non-empty queue that is least under R142. -/
def least : QEntry → List QEntry → QEntry
  | a, [] => a
  | a, b :: q => least (if b.before a then b else a) q

/-- The least element of Q, and Q without it; none when Q is empty (R141). -/
def popLeast : List QEntry → Option (QEntry × List QEntry)
  | [] => none
  | a :: q => some (least a q, (a :: q).erase (least a q))

/-! ### TreeBuild (R141) -/

/-- What TreeBuild writes: ARENA[0..NNODES-1] and the tree descriptor. -/
structure Tree where
  arena : List Node
  kind : Kind
  root : Index
  nnodes : Index
  nleaves : Index
  deriving DecidableEq, Repr

/-- L, the leaf insertion order: the symbols with an entry, ascending (R141). -/
def leafSymbols (ft : FreqTable) : List Symbol := allSymbols.filter fun sym => ftGet ft sym != 0

/-- `Leaf{sym, freq = zext_40(FT[sym]), sent = 0}` (R141). -/
def leafOf (ft : FreqTable) (sym : Symbol) : Node := .leaf sym ((ftGet ft sym).zeroExtend 40) false

/-- The queue over the first nodes of the arena, each with its index (R141 step 3). -/
def queueOf (arena : List Node) : List QEntry :=
  arena.zipIdx.map fun (n, i) => ⟨nodeFreq n, BitVec.ofNat 9 i⟩

/-- The merge loop: while |Q| > 1, the two least elements become the children, left and right, of the next node
(R141 step 4). Each turn shortens Q by one, so `fuel` = |Q| turns are enough. -/
def mergeLoop : Nat → List Node → List QEntry → List Node
  | 0, arena, _ => arena
  | fuel + 1, arena, q =>
    match popLeast q with
    | none => arena
    | some (a, q₁) =>
      match popLeast q₁ with
      | none => arena
      | some (b, q₂) =>
        mergeLoop fuel (arena ++ [.internal (a.freq + b.freq) a.idx b.idx])
          (q₂ ++ [⟨a.freq + b.freq, BitVec.ofNat 9 arena.length⟩])

/-- TreeBuild, a function of FT alone (R141, R144 item 5). -/
def treeBuild (ft : FreqTable) : Tree :=
  match leafSymbols ft with
  | [] => { arena := [.leaf 0x00 1 true], kind := .empty, root := 0, nnodes := 1, nleaves := 0 }
  | [sym] => { arena := [leafOf ft sym], kind := .single, root := 0, nnodes := 1, nleaves := 1 }
  | l =>
    let leaves := l.map (leafOf ft)
    let arena := mergeLoop l.length leaves (queueOf leaves)
    { arena := arena, kind := .general, root := BitVec.ofNat 9 (arena.length - 1),
      nnodes := BitVec.ofNat 9 arena.length, nleaves := BitVec.ofNat 9 l.length }

/-! ### CodeGen (R143) -/

/-- `Walk(i, p)`: left is path ++ [0], right is path ++ [1]. A path that visits more than `fuel` nodes is cut; a built tree
has none with more than 256 (R143, log entry 8). -/
def walkCodes (node : Index → Node) : Nat → Index → Bits → CodeTable → CodeTable
  | 0, _, _, ct => ct
  | fuel + 1, i, p, ct =>
    match node i with
    | .leaf sym _ _ => ctSet ct sym p
    | .internal _ left right =>
      walkCodes node fuel right (p ++ [true]) (walkCodes node fuel left (p ++ [false]) ct)

/-- `CodeGen()`: every entry is absent, and then each leaf of the tree records its path (R143). -/
def codeGen (node : Index → Node) (kind : Kind) (root : Index) : CodeTable :=
  match kind with
  | .none | .empty => ctEmpty
  | .single | .general => walkCodes node Config.maxNodes root [] ctEmpty

/-! ### The commands -/

/-- BUILD's own rule: TreeBuild, CodeGen, and TSTATE becomes BUILT (R140). The arena entries past the tree hold
unspecified values afterwards (R145). -/
def buildOwn (s : State) : State :=
  let t := treeBuild s.ft
  let draws := s.arenaDraws + 1
  { s with
    arena := t.arena, arenaDraws := draws
    kind := t.kind, root := t.root, nnodes := t.nnodes, nleaves := t.nleaves
    ct := codeGen (nodeAt t.arena draws) t.kind t.root
    tstate := .built }

/-- RD_NODE's own rule: the record of a valid index, zeros for any other (R146, R147). -/
def rdNodeOwn (idx : Index) (s : State) : State :=
  if idx < s.nnodes then setResults (nodeResult0 (s.node idx)) (nodeResult1 (s.node idx)) s
  else setResults 0 0 s

/-- RD_CODE's own rule (R148). -/
def rdCodeOwn (chunk : BitVec 3) (sym : Symbol) (s : State) : State :=
  setResults (codeResult0 (ctGet s.ct sym) chunk) (codeResult1 (ctGet s.ct sym)) s

/-- BUILD builds the code tree and the code table from FT (R140). -/
def execBuild (s : State) : Host.Outcome State Fault Refusal := runGated .build buildOwn s

/-- RD_NODE copies one arena record into RESULT0 and RESULT1 (R146). -/
def execRdNode (idx : Index) (s : State) : Host.Outcome State Fault Refusal := runGated .rdNode (rdNodeOwn idx) s

/-- RD_CODE copies part of one code-table entry into RESULT0 and RESULT1 (R148). -/
def execRdCode (chunk : BitVec 3) (sym : Symbol) (s : State) : Host.Outcome State Fault Refusal :=
  runGated .rdCode (rdCodeOwn chunk sym) s

end Sys2Proof.Machine
end

