-- ==== Sys2Proof/Machine/Dispatch.lean ====
section
/-! DEFINITION. The engine's completion step of each command (spec/40_control.md R100), one arm per constructor. -/

namespace Sys2Proof.Machine

def exec (i : Instr) (s : State) : Host.Outcome State Fault Refusal :=
  match i with
  -- control (spec/40_control.md)
  | .nop => Sys2Proof.Machine.execNop s
  | .clear => Sys2Proof.Machine.execClear s
  | .ack => Sys2Proof.Machine.execAck s
  -- frequency table (spec/41_frequency.md)
  | .count sym => Sys2Proof.Machine.execCount sym s
  | .setFreq sym => Sys2Proof.Machine.execSetFreq sym s
  | .rdFreq sym => Sys2Proof.Machine.execRdFreq sym s
  -- code tree and code table (spec/42_tree_builder.md)
  | .build => Sys2Proof.Machine.execBuild s
  | .rdNode idx => Sys2Proof.Machine.execRdNode idx s
  | .rdCode chunk sym => Sys2Proof.Machine.execRdCode chunk sym s
  -- encoder (spec/43_encoder.md)
  | .encBegin => Sys2Proof.Machine.execEncBegin s
  | .encSym sym => Sys2Proof.Machine.execEncSym sym s
  | .encEnd => Sys2Proof.Machine.execEncEnd s
  -- decoder (spec/44_decoder.md)
  | .decBegin => Sys2Proof.Machine.execDecBegin s
  | .decBits nm1 data => Sys2Proof.Machine.execDecBits nm1 data s
  | .decEnd => Sys2Proof.Machine.execDecEnd s

end Sys2Proof.Machine
end

