-- ==== Sys2Proof/Machine/Engine.lean ====
section
/-! DEFINITION. The engine's step (spec/40_control.md R100), and one machine step of whichever agent moves
(spec/00_scope.md R11). -/

namespace Sys2Proof.Machine

/-- The engine completes the pending command; with none pending it has no step, and its turn passes with nothing done
(R11, R100, R236). -/
def engineStep (s : State) : Host.Outcome State Fault Refusal :=
  match s.pend with
  | none => .next s
  | some w =>
    match decode w with
    | some i => exec i s
    | none => runIllegal s

/-- One machine step. When no step is scheduled any more, the engine has the turn, so that a pending command completes
(R11, R271; log entry 1). -/
def machineStep (s : State) : Host.Outcome State Fault Refusal :=
  match s.script with
  | [] => engineStep s
  | .engine :: rest => engineStep { s with script := rest }
  | .host a :: rest => hostStep a { s with script := rest }
  | .rst :: rest => .next (resetBlock { s with script := rest })

/-- The command word `w` is pending and the engine has the next turn: what an accepted CMD write of `w` and the engine's
turn after it give (R28, R34). -/
def placeCommand (w : Word) (s : State) : State := { s with pend := some w, script := .engine :: s.script }

end Sys2Proof.Machine
end

