-- ==== Sys2Proof/Machine/Step.lean ====
section
/-! DEFINITION. One step of the machine, and the host's way to have a command run next. -/

namespace Sys2Proof.Machine

/-- One machine step (spec/00_scope.md R11). -/
def step (s : State) : Host.Outcome State Fault Refusal := machineStep s

/-- `s` with the table word `w` pending and the engine's turn next. HUF-1 fetches nothing (spec/10_state.md R21): PEND is
where its next command comes from. -/
def State.withFetchWord (s : State) (nbits w : Nat) : State := placeCommand (tableWord nbits w) s

end Sys2Proof.Machine
end

