-- ==== Sys2Proof/Machine/HostProgram.lean ====
section
/-! DEFINITION. How a host program is written (spec/30_encoding.md R93, R94): each line is a list of host accesses. A `WAIT`
is unrolled: `polls` reads of STATUS, of which the last is the one that returns BUSY = 0 (R273, R95). -/

namespace Sys2Proof.Machine

/-- `RD REG` (R93). -/
def rd (c : Config) (r : Reg) : Access := .read (c.base + r.offset) 4

/-- `WR REG, v` (R93). -/
def wr (c : Config) (r : Reg) (v : Word) : Access := .write (c.base + r.offset) 4 v

/-- A bare command line: `WR CMD, encode(M ops)` (R93). -/
def issue (c : Config) (i : Instr) : Access := wr c .cmd (encode i)

/-- `WAIT` (R94). -/
def wait (c : Config) (polls : Nat) : List Access := List.replicate polls (rd c .status)

/-- `DO M ops` (R94). -/
def doCommand (c : Config) (polls : Nat) (i : Instr) : List Access := issue c i :: wait c polls

/-- `SETF s, f` (R94). -/
def setf (c : Config) (polls : Nat) (sym : Symbol) (f : Word) : List Access :=
  wait c polls ++ wr c .arg f :: doCommand c polls (.setFreq sym)

/-- A character stands for its 8-bit ASCII code (R92, K1; PRESUMED, log entry 9). For a character that has no ASCII code the
spec gives no symbol: it stands for the low 8 bits of its code point, so U+0100 for 0x00 (DESIGN CHOICE, log entry 9). -/
def charSymbol (ch : Char) : Symbol := BitVec.ofNat 8 ch.toNat

/-- The symbols of a text, in order (R94), each by `charSymbol`. -/
def textSymbols (text : String) : List Symbol := text.toList.map charSymbol

/-- `COUNTS "text"` (R94). -/
def counts (c : Config) (polls : Nat) (text : String) : List Access :=
  (textSymbols text).flatMap fun sym => doCommand c polls (.count sym)

/-- `ENCS "text"` (R94). -/
def encs (c : Config) (polls : Nat) (text : String) : List Access :=
  (textSymbols text).flatMap fun sym => doCommand c polls (.encSym sym)

/-- The DEC_BITS commands of `DECW v, r`, for r from 1 to 32 (R94). -/
def decwCommands (v : Word) (r : Nat) : List Instr :=
  .decBits (BitVec.ofNat 4 (min r 16 - 1)) (v.extractLsb' 16 16)
    :: if 16 < r then [.decBits (BitVec.ofNat 4 (r - 17)) (v.extractLsb' 0 16)] else []

/-- `DECW v, r` (R94). -/
def decw (c : Config) (polls : Nat) (v : Word) (r : Nat) : List Access :=
  (decwCommands v r).flatMap (doCommand c polls)

/-- `CHECK`, where the STATUS read returns `status`: with ERR = 1 the host also reads ERRCODE and ERRCMD (R94). -/
def check (c : Config) (status : Word) : List Access :=
  rd c .status :: if status.getLsbD 1 then [rd c .errcode, rd c .errcmd] else []

/-- The interleaving in which the engine has a turn after every host access (R11, R69). -/
def promptly (accesses : List Access) : List Move := accesses.flatMap fun a => [.host a, .engine]

end Sys2Proof.Machine
end

