-- ==== Sys2Proof/Safety.lean ====
section
/-! DEFINITION. The terms in which claims about runs are made: the launch predicate (spec/70_reset_and_hazards.md R254),
the end of a run and its success (R273, spec/60_exceptions.md R237), which step comes next (spec/00_scope.md R11), and the
invariants of spec/10_state.md R50. -/

namespace Sys2Proof.Machine

/-- `Clean(st)`, the launch predicate for claims about host programs (R254). -/
structure State.Clean (s : State) : Prop where
  pend : s.pend = none
  err : s.err = false
  ovr : s.ovr = false
  tstate : s.tstate = .collect
  ft : ∀ sym, ftGet s.ft sym = 0
  estate : s.estate = .idle
  dstate : s.dstate = .idle

/-- The host accesses of a script that come before its next reset. -/
def accessesBeforeReset : List Move → List Access
  | [] => []
  | .host a :: moves => a :: accessesBeforeReset moves
  | .engine :: moves => accessesBeforeReset moves
  | .rst :: _ => []

/-- The run is over: the host has issued its last access and no command is pending (R273). Engine turns may be left in the
script, and what stands after a reset belongs to the next run (R250). -/
abbrev State.RunOver (s : State) : Prop := accessesBeforeReset s.script = [] ∧ s.pend = none

/-- Steps from `s` to the first state in which its run is over, which is the run's end state (R273); `fuel` bounds them, and
a run cut short by a reset goes on as the run that starts there (R250). The observation is that state, with its `reads`. -/
def runToEnd : Nat → State → Host.Outcome State Fault Refusal
  | 0, s => .next s
  | fuel + 1, s =>
    if s.RunOver then .next s
    else
      match step s with
      | .next t => runToEnd fuel t
      | stop => stop

/-- A run that is over succeeded when no error is recorded and no write was dropped (R237, R273). -/
def State.Succeeded (s : State) : Prop := s.RunOver ∧ s.err = false ∧ s.ovr = false

/-! ### What the next machine step is -/

/-- The state lets BUILD run: ERR = 0 and TSTATE = COLLECT. -/
def State.MayBuild (s : State) : Prop := s.err = false ∧ s.tstate = .collect

/-- The next machine step is a host write of `v` to the register at offset `off`. -/
def State.HostWrites (s : State) (off : Nat) (v : Word) : Prop :=
  ∃ rest, s.script = .host (.write (s.cfg.base + off) 4 v) :: rest

/-- The next machine step is the engine's: the schedule says so, or it is empty. -/
def State.EngineNext (s : State) : Prop := s.script = [] ∨ ∃ rest, s.script = .engine :: rest

/-- The next machine step completes the command `i`. -/
def State.Completes (s : State) (i : Instr) : Prop :=
  s.EngineNext ∧ ∃ w, s.pend = some w ∧ decode w = some i

/-- The next machine step is an assertion of `rst`. -/
def State.ResetsNext (s : State) : Prop := ∃ rest, s.script = .rst :: rest

/-! ### Invariants -/

/-- |{s : FT[s] ≥ 1}| (R50 item 2). -/
def entryCount (ft : FreqTable) : Nat := allSymbols.countP fun sym => ftGet ft sym != 0

/-- The kind of a tree over `n` symbols (R50 item 2). -/
def kindFor (n : Nat) : Kind := if n = 0 then .empty else if n = 1 then .single else .general

/-- R50, one field for each part of an item. -/
structure State.R50 (s : State) : Prop where
  /-- Item 1. -/
  collect_iff : s.tstate = .collect ↔ s.kind = .none
  /-- Item 1, second half. -/
  collect_empty : s.tstate = .collect →
    s.nnodes = 0 ∧ s.nleaves = 0 ∧ s.root = 0 ∧ ∀ sym, ctGet s.ct sym = none
  /-- Item 2. -/
  built_leaves : s.tstate = .built →
    s.nleaves.toNat = entryCount s.ft ∧ s.kind = kindFor s.nleaves.toNat
  /-- Item 3, EMPTY and SINGLE. -/
  leaf_shape : s.kind = .empty ∨ s.kind = .single → s.nnodes = 1 ∧ s.root = 0
  /-- Item 3, GENERAL. -/
  general_shape : s.kind = .general →
    s.nnodes.toNat = 2 * s.nleaves.toNat - 1 ∧ s.root.toNat = s.nnodes.toNat - 1
  /-- Item 4. -/
  code_present : ∀ sym, (ctGet s.ct sym).isSome ↔ s.tstate = .built ∧ s.kind ≠ .empty ∧ ftGet s.ft sym ≠ 0
  /-- Item 5. -/
  encoder_built : s.estate ≠ .idle → s.tstate = .built
  /-- Item 5. -/
  decoder_built : s.dstate ≠ .idle → s.tstate = .built
  /-- Item 6. -/
  erp_zero : s.estate ≠ .done → s.erp = 0
  /-- Item 6. -/
  ebuf_empty : s.estate = .idle → s.ebuf = []
  /-- Item 7. -/
  din_empty : s.dstate ≠ .active → s.din = []
  /-- Item 7. -/
  dout_empty : s.dstate ≠ .done → s.dout = [] ∧ s.drp = 0
  /-- Item 8. -/
  ebuf_fits : s.ebuf.length ≤ s.cfg.encCapBits.toNat
  /-- Item 8. -/
  din_fits : s.din.length ≤ s.cfg.decInCapBits.toNat
  /-- Item 8. -/
  dout_fits : s.dout.length ≤ s.cfg.decOutCapSyms.toNat
  /-- Item 9. -/
  no_record : s.err = false → s.errcode = .none ∧ s.errcmd = 0
  /-- Item 9. -/
  record : s.err = true → s.errcode ≠ .none

/-- The ranges of the configuration (R7), those R42, R44 and R45 give the elements of variable size, and the model's own
form of ARENA: exactly the NNODES valid entries are listed (R41, log entry 3). -/
structure State.InRange (s : State) : Prop where
  cfg_wf : s.cfg.wf = true
  arena_listed : s.arena.length = s.nnodes.toNat
  code_length : ∀ sym c, ctGet s.ct sym = some c → c.length ≤ 255
  erp_le : s.erp ≤ wordCount s.ebuf
  drp_le : s.drp ≤ s.dout.length

/-- A tree that BUILD may leave: in BUILT, the arena, the descriptor and the code table are TreeBuild's and CodeGen's of the
present FT, which is frozen there (R31, R70, R140). -/
def State.TreeResident (s : State) : Prop :=
  s.tstate = .built →
    let t := treeBuild s.ft
    s.arena = t.arena ∧ s.kind = t.kind ∧ s.root = t.root ∧ s.nnodes = t.nnodes ∧ s.nleaves = t.nleaves ∧
      s.ct = codeGen s.node t.kind t.root

/-- The children of a record, left and then right (R41). -/
def nodeChildren : Node → List Index
  | .leaf _ _ _ => []
  | .internal _ l r => [l, r]

/-- The children of all records of an arena, in the order the records were made. -/
def childrenOf (arena : List Node) : List Index := arena.flatMap nodeChildren

end Sys2Proof.Machine
end

