-- ==== Sys2Proof/Certificates/Slice0/Obligations.lean ====
section
/-! DEFINITION. The statements for the provers. Each docstring names the rule of spec/ that its statement formalises. -/

open Sys2Proof Sys2Proof.Machine

/-! ### Terms the statements share -/

/-- R101's table, by command. -/
def Sys2Proof.Machine.PhaseHolds (i : Instr) (s : State) : Prop :=
  match i with
  | .nop | .clear | .ack | .rdFreq _ => True
  | .count _ | .setFreq _ | .build => s.tstate = .collect
  | .rdNode _ | .rdCode _ _ | .encBegin | .decBegin => s.tstate = .built
  | .encSym _ | .encEnd => s.estate = .active
  | .decBits _ _ | .decEnd => s.dstate = .active

/-- R102, for one command: out of its phase, with ERR = 0, it raises ILLEGAL_COMMAND and changes nothing else. -/
def Sys2Proof.Machine.IllegalOutOfPhase (i : Instr) : Prop :=
  ∀ (s : State) (w : Word), s.err = false → s.pend = some w → ¬ PhaseHolds i s →
    exec i s = .next { s with pend := none, err := true, errcode := .illegalCommand, errcmd := w }

/-- The reserved bits of a format (R82 to R86), as a number. -/
def Sys2Proof.reservedBits (f : Format) (w : Word) : Nat :=
  match f with
  | .n => (w.extractLsb' 0 24).toNat
  | .s => (w.extractLsb' 8 16).toNat
  | .x => (w.extractLsb' 9 15).toNat
  | .c => (w.extractLsb' 11 13).toNat
  | .b => (w.extractLsb' 20 4).toNat

/-- How many bits a format reserves (R82 to R86). -/
def Sys2Proof.reservedCount : Format → Nat
  | .n => 24
  | .s => 16
  | .x => 15
  | .c => 13
  | .b => 4

/-- The commands one after another, each pending under its own word when it completes. -/
def Sys2Proof.Machine.completeAll : List Instr → State → Host.Outcome State Fault Refusal
  | [], s => .next s
  | i :: is, s =>
    match exec i { s with pend := some (encode i) } with
    | .next t => completeAll is t
    | o => o

/-- R172's first pass: COUNT of every symbol, and BUILD. -/
def Sys2Proof.Machine.countPass (msg : List Symbol) : List Instr := msg.map Instr.count ++ [Instr.build]

/-- R172's second pass: ENC_BEGIN, ENC_SYM of every symbol, and ENC_END. -/
def Sys2Proof.Machine.encodePass (msg : List Symbol) : List Instr :=
  Instr.encBegin :: (msg.map Instr.encSym ++ [Instr.encEnd])

/-- R194's run: DEC_BEGIN, DEC_BITS of every chunk, and DEC_END. -/
def Sys2Proof.Machine.decodePass (chunks : List (BitVec 4 × BitVec 16)) : List Instr :=
  Instr.decBegin :: (chunks.map (fun c => Instr.decBits c.1 c.2) ++ [Instr.decEnd])

/-! ### Encoding -/

/-- Words of R92's table and of spec/95_test_vectors.md, and what they decode to. -/
def Obligations.SpecWordsDecode : Prop :=
  decode 0x00000000 = some .nop ∧ decode 0x01000000 = some .clear ∧ decode 0x02000000 = some .ack ∧
  decode 0x10000041 = some (.count 0x41) ∧ decode 0x1100005A = some (.setFreq 0x5A) ∧
  decode 0x12000041 = some (.rdFreq 0x41) ∧ decode 0x20000000 = some .build ∧
  decode 0x210001FF = some (.rdNode 511) ∧ decode 0x22000142 = some (.rdCode 1 0x42) ∧
  decode 0x30000000 = some .encBegin ∧ decode 0x31000044 = some (.encSym 0x44) ∧
  decode 0x32000000 = some .encEnd ∧ decode 0x40000000 = some .decBegin ∧
  decode 0x41054C00 = some (.decBits 5 0x4C00) ∧ decode 0x42000000 = some .decEnd ∧
  decode 0x01000001 = none ∧ decode 0x03000000 = none ∧ decode 0xFF000000 = none ∧
  decode 0x10000100 = none ∧ decode 0x41100000 = none

/-- Decoding an encoded command gives it back (R87 to R89). -/
def Obligations.DecodeEncode : Prop :=
  ∀ i : Instr, i.wellFormed = true → decode (encode i) = some i

/-- A word that decodes is the encoding of its command: each word has one meaning, and each command one word (R88). -/
def Obligations.EncodeDecode : Prop :=
  ∀ (w : Word) (i : Instr), decode w = some i → encode i = w

/-- R88: exactly one row of the opcode map matches a legal word, and it is the decoded command's; no row matches an illegal
word. The match and the mask of a row are those of its opcode and its format. -/
def Obligations.LegalWordSelectsOneRow : Prop :=
  (∀ r ∈ opcodeMap, r.mtch = r.op.code.zeroExtend 32 <<< 24 ∧
    r.mask = 0xFFFFFFFF <<< (24 - reservedCount r.op.format)) ∧
  ∀ w : Word,
    (∀ i, decode w = some i → (opcodeMap.filter fun r => r.selects w).map OpcodeRow.op = [i.opcode]) ∧
    (decode w = none → opcodeMap.filter (fun r => r.selects w) = [])

/-- R90: the illegal words are those with one of the 241 undefined opcodes and those with a 1 in a reserved bit of their
format; they raise ILLEGAL_COMMAND with ERR = 0 and are discarded with ERR = 1; the only no-op is the word 0. -/
def Obligations.IllegalWords : Prop :=
  (∀ w : Word, decode w = none ↔
    (∀ op : Opcode, op.code ≠ w.extractLsb' 24 8) ∨
    (∃ op : Opcode, op.code = w.extractLsb' 24 8 ∧ reservedBits op.format w ≠ 0)) ∧
  ((List.range 256).countP fun n => Opcode.all.all fun op => op.code != BitVec.ofNat 8 n) = 241 ∧
  (∀ (s : State) (w : Word), s.pend = some w → decode w = none →
    (s.err = false → engineStep s =
      .next { s with pend := none, err := true, errcode := .illegalCommand, errcmd := w }) ∧
    (s.err = true → engineStep s = .next { s with pend := none })) ∧
  (∀ w : Word, decode w = some .nop ↔ w = 0x00000000)

/-- R87: how each operand is taken from a command word, and that SETFREQ's frequency is the whole of ARG. R91: bits of DATA
below the N counted ones change nothing. -/
def Obligations.OperandAssembly : Prop :=
  (∀ (w : Word) (sym : Symbol),
    (decode w = some (.count sym) ∨ decode w = some (.setFreq sym) ∨ decode w = some (.rdFreq sym) ∨
      decode w = some (.encSym sym)) → sym = w.extractLsb' 0 8) ∧
  (∀ (w : Word) (idx : Index), decode w = some (.rdNode idx) → idx = w.extractLsb' 0 9) ∧
  (∀ (w : Word) (chunk : BitVec 3) (sym : Symbol), decode w = some (.rdCode chunk sym) →
    chunk = w.extractLsb' 8 3 ∧ sym = w.extractLsb' 0 8) ∧
  (∀ (w : Word) (nm1 : BitVec 4) (data : BitVec 16), decode w = some (.decBits nm1 data) →
    (streamBits nm1 data).length = (w.extractLsb' 16 4).toNat + 1 ∧
    ∀ k, k < (w.extractLsb' 16 4).toNat + 1 → (streamBits nm1 data)[k]? = some (w.getLsbD (15 - k))) ∧
  (∀ (nm1 : BitVec 4) (d e : BitVec 16) (s : State), (∀ k, k ≤ nm1.toNat → d.getMsbD k = e.getMsbD k) →
    exec (.decBits nm1 d) s = exec (.decBits nm1 e) s) ∧
  (∀ (sym : Symbol) (s : State), s.err = false → s.tstate = .collect → s.arg ≠ 0 →
    ∃ t, exec (.setFreq sym) s = .next t ∧ ftGet t.ft sym = s.arg)

/-- R92: a well-formed command line assembles to a word that decodes to the command the line names, with the operands
written; any other line does not assemble. -/
def Obligations.AssembledLines : Prop :=
  (∀ l : AsmLine, l.wellFormed = false → l.assemble = none) ∧
  (∀ l : AsmLine, l.wellFormed = true → ∃ w i, l.assemble = some w ∧ decode w = some i ∧
    match l with
    | .bare op => i.opcode = op
    | .withSym op n => (op, i) ∈
        [(.count, .count (BitVec.ofNat 8 n)), (.setFreq, .setFreq (BitVec.ofNat 8 n)),
         (.rdFreq, .rdFreq (BitVec.ofNat 8 n)), (.encSym, .encSym (BitVec.ofNat 8 n))]
    | .rdNode n => i = .rdNode (BitVec.ofNat 9 n)
    | .rdCode n k => i = .rdCode (BitVec.ofNat 3 k) (BitVec.ofNat 8 n)
    | .decBits b => ∃ nm1 data, i = .decBits nm1 data ∧ streamBits nm1 data = b)

/-! ### The engine -/

/-- R100, R11: on the engine's turn, with any word pending, a machine step is the engine's step, and with a legal word it is
`exec` of the decoded command; with none pending the turn passes and nothing changes. That the schedule is part of the state
is the model's form (log entry 1). -/
def Obligations.StepRunsTheDecodedCommand : Prop :=
  (∀ (s : State) (w : Word), s.pend = some w → s.EngineNext → step s = engineStep { s with script := s.script.tail }) ∧
  (∀ (s : State) (w : Word) (i : Instr), s.pend = some w → decode w = some i → i.wellFormed = true →
    (s.script = [] → step s = exec i s) ∧
    (∀ rest, s.script = .engine :: rest → step s = exec i { s with script := rest })) ∧
  (∀ s : State, s.pend = none → s.EngineNext → step s = .next { s with script := s.script.tail })

/-- R100, R101, R102: acceptance, and the engine step by its cases in order. -/
def Obligations.EngineStepDispatch : Prop :=
  (∀ (s : State) (w : Word), s.pend = none → busWrite .cmd w s = { s with pend := some w }) ∧
  ∀ (s : State) (w : Word), s.pend = some w →
    (s.err = true → decode w = some .clear → engineStep s = .next { clearBlock s with pend := none }) ∧
    (s.err = true → decode w = some .ack → engineStep s = .next { acknowledge s with pend := none }) ∧
    (s.err = true → decode w ≠ some .clear → decode w ≠ some .ack → engineStep s = .next { s with pend := none }) ∧
    (s.err = false → decode w = none → engineStep s =
      .next { s with pend := none, err := true, errcode := .illegalCommand, errcmd := w }) ∧
    (∀ i, s.err = false → decode w = some i → ¬ PhaseHolds i s → engineStep s =
      .next { s with pend := none, err := true, errcode := .illegalCommand, errcmd := w }) ∧
    (∀ i, s.err = false → decode w = some i → PhaseHolds i s →
      ∃ t, engineStep s = .next t ∧ exec i s = .next t ∧ t.pend = none ∧
        (t.err = true → t.errcmd = w ∧ t.errcode ≠ .none) ∧
        (t.err = false → i ≠ .clear → i ≠ .ack → t.errcode = s.errcode ∧ t.errcmd = s.errcmd))

/-- R226: while ERR = 1 the engine runs only the exact words of CLEAR and ACK and discards every other word. -/
def Obligations.StickyError : Prop :=
  ∀ (s : State) (w : Word), s.err = true → s.pend = some w →
    engineStep s = .next
      (if w = 0x01000000 then { clearBlock s with pend := none }
       else if w = 0x02000000 then { acknowledge s with pend := none }
       else { s with pend := none })

/-- R222: what raising an error does to the state, with the clean-ups. -/
def Obligations.ErrorEntry : Prop :=
  ∀ (s t : State) (w : Word), s.err = false → s.pend = some w → engineStep s = .next t → t.err = true →
    t.errcode ≠ .none ∧
    t = { s with
      pend := none, err := true, errcode := t.errcode, errcmd := w
      ebuf := t.ebuf, erp := t.erp, estate := t.estate
      din := t.din, dout := t.dout, drp := t.drp, dstate := t.dstate } ∧
    ((∃ sym, decode w = some (.encSym sym)) → s.estate = .active → t.ebuf = [] ∧ t.erp = 0 ∧ t.estate = .idle) ∧
    ((∀ sym, decode w ≠ some (.encSym sym)) ∨ s.estate ≠ .active →
      t.ebuf = s.ebuf ∧ t.erp = s.erp ∧ t.estate = s.estate) ∧
    ((∃ n d, decode w = some (.decBits n d)) ∨ decode w = some .decEnd → s.dstate = .active →
      t.din = [] ∧ t.dout = [] ∧ t.drp = 0 ∧ t.dstate = .idle) ∧
    ((∀ n d, decode w ≠ some (.decBits n d)) ∧ decode w ≠ some .decEnd ∨ s.dstate ≠ .active →
      t.din = s.din ∧ t.dout = s.dout ∧ t.drp = s.drp ∧ t.dstate = s.dstate)

/-- R221: from ERR = 0, exactly when the pending word raises an error, and which code; and the codes' numbers. -/
def Obligations.ErrorCauses : Prop :=
  (∀ (s t : State) (w : Word), s.err = false → s.pend = some w → engineStep s = .next t →
    (t.err = true ↔
      match decode w with
      | none => True
      | some i => ¬ PhaseHolds i s ∨
        match i with
        | .count sym => ftGet s.ft sym = 0xFFFFFFFF
        | .setFreq _ => s.arg = 0
        | .encSym sym => ∀ c, ctGet s.ct sym = some c → s.cfg.encCapBits.toNat < s.ebuf.length + c.length
        | .decBits nm1 _ => s.cfg.decInCapBits.toNat < s.din.length + (nm1.toNat + 1)
        | .decEnd => ∀ out, (decodeStream s.node s.kind s.root s.din).output = some out →
            s.cfg.decOutCapSyms.toNat < out.length
        | _ => False) ∧
    (t.err = true →
      (decode w = none ∨ (∃ i, decode w = some i ∧ ¬ PhaseHolds i s) → t.errcode = .illegalCommand) ∧
      ∀ i, decode w = some i → PhaseHolds i s →
        match i with
        | .count _ => t.errcode = .capacityExceeded
        | .setFreq _ => t.errcode = .invalidFrequency
        | .encSym sym => t.errcode = if ctGet s.ct sym = none then .unknownSymbol else .capacityExceeded
        | .decBits _ _ => t.errcode = .capacityExceeded
        | .decEnd => t.errcode =
            if (decodeStream s.node s.kind s.root s.din).output = none then .malformedStream else .capacityExceeded
        | _ => True)) ∧
  ErrCode.none.code = 0 ∧ ErrCode.invalidFrequency.code = 1 ∧ ErrCode.unknownSymbol.code = 2 ∧
  ErrCode.malformedStream.code = 3 ∧ ErrCode.illegalCommand.code = 4 ∧ ErrCode.capacityExceeded.code = 5

/-- R227: the record holds the first error since the last ACK, CLEAR or reset. Which step comes next is the schedule's (log
entry 1). -/
def Obligations.FirstErrorIsKept : Prop :=
  ∀ s t : State, s.err = true → step s = .next t →
    (t.err = true ∧ t.errcode = s.errcode ∧ t.errcmd = s.errcmd) ∨
    s.Completes .clear ∨ s.Completes .ack ∨ s.ResetsNext

/-- R237: the block is never stuck. Every command completes, and a machine step stops only at a host access: with a fault
where the address lies outside the window (log entry 4), refused where an access inside it is not 32 bits wide or not at a
multiple of 4 (R61; of an access wider than 32 bits, log entry 10). -/
def Obligations.NothingStopsTheBlock : Prop :=
  (∀ (i : Instr) (s : State), ∃ t, exec i s = .next t) ∧
  (∀ s : State, (∃ t, step s = .next t) ∨
    ∃ addr bytes rest,
      (s.script = .host (.read addr bytes) :: rest ∨ ∃ v, s.script = .host (.write addr bytes v) :: rest) ∧
      ((addr < s.cfg.base ∨ s.cfg.base + 0x80 ≤ addr) ∧ step s = .fault .outsideWindow ∨
        s.cfg.base ≤ addr ∧ addr < s.cfg.base + 0x80 ∧ (bytes ≠ 4 ∨ (addr - s.cfg.base) % 4 ≠ 0) ∧
          step s = .refused .notAWholeRegister))

/-! ### Control commands -/

/-- R103: NOP does nothing, whatever ERR is; while it is pending, a CMD write sets OVR. -/
def Obligations.NopDoesNothing : Prop :=
  decode 0x00000000 = some .nop ∧ (∀ s : State, exec .nop s = .next { s with pend := none }) ∧
  ∀ (s : State) (v : Word), s.pend = some 0x00000000 → busWrite .cmd v s = { s with ovr := true }

/-- R104: CLEAR gives every element but ARG its reset value, whatever ERR is; ARENA's contents are unspecified after it. A
CLEAR word with a reserved bit set is illegal and clears nothing. The configuration, the schedule and the values already
read are not the block's. -/
def Obligations.ClearIsASoftReset : Prop :=
  decode 0x01000000 = some .clear ∧
  (∀ s : State, ∃ t, exec .clear s = .next t ∧
    t = { State.reset with
      arg := s.arg, arena := t.arena, arenaDraws := t.arenaDraws, cfg := s.cfg, script := s.script, reads := s.reads } ∧
    t.status = 0x00000000 ∧ t.treeWord = 0x00000000) ∧
  (∀ (s : State) (w : Word), s.pend = some w → w.extractLsb' 24 8 = 0x01 → w ≠ 0x01000000 →
    (s.err = true → engineStep s = .next { s with pend := none }) ∧
    (s.err = false → engineStep s =
      .next { s with pend := none, err := true, errcode := .illegalCommand, errcmd := w }))

/-- R105: ACK clears the error record and OVR and keeps everything else, whatever ERR is. -/
def Obligations.AckClearsTheRecord : Prop :=
  decode 0x02000000 = some .ack ∧
  ∀ s : State, exec .ack s = .next { s with pend := none, err := false, errcode := .none, errcmd := 0, ovr := false }

/-! ### Frequency table -/

/-- R120: COUNT adds 1 to one counter and to nothing else, and at FREQ_MAX raises CAPACITY_EXCEEDED instead. -/
def Obligations.CountAddsOne : Prop :=
  ∀ sym : Symbol, decode (0x10000000 ||| sym.zeroExtend 32) = some (.count sym) ∧ IllegalOutOfPhase (.count sym) ∧
    ∀ s : State, s.err = false → s.tstate = .collect →
      (ftGet s.ft sym ≠ 0xFFFFFFFF → ∃ ft', exec (.count sym) s = .next { s with pend := none, ft := ft' } ∧
        (ftGet ft' sym).toNat = (ftGet s.ft sym).toNat + 1 ∧ ∀ x, x ≠ sym → ftGet ft' x = ftGet s.ft x) ∧
      (∀ w, s.pend = some w → ftGet s.ft sym = 0xFFFFFFFF → exec (.count sym) s =
        .next { s with pend := none, err := true, errcode := .capacityExceeded, errcmd := w })

/-- R121: SETFREQ copies all of ARG into one counter, and with ARG = 0 raises INVALID_FREQUENCY instead. No command but
CLEAR sets an entry back to 0. -/
def Obligations.SetFreqCopiesArg : Prop :=
  (∀ sym : Symbol, decode (0x11000000 ||| sym.zeroExtend 32) = some (.setFreq sym) ∧ IllegalOutOfPhase (.setFreq sym) ∧
    ∀ s : State, s.err = false → s.tstate = .collect →
      (s.arg ≠ 0 → ∃ ft', exec (.setFreq sym) s = .next { s with pend := none, ft := ft' } ∧
        ftGet ft' sym = s.arg ∧ ∀ x, x ≠ sym → ftGet ft' x = ftGet s.ft x) ∧
      (∀ w, s.pend = some w → s.arg = 0 → exec (.setFreq sym) s =
        .next { s with pend := none, err := true, errcode := .invalidFrequency, errcmd := w })) ∧
  ∀ (i : Instr) (s t : State) (x : Symbol), exec i s = .next t → ftGet s.ft x ≠ 0 → ftGet t.ft x = 0 → i = .clear

/-- R123: RD_FREQ copies a counter to RESULT0 and 0 to RESULT1, in any phase. -/
def Obligations.RdFreqReadsTheTable : Prop :=
  ∀ sym : Symbol, decode (0x12000000 ||| sym.zeroExtend 32) = some (.rdFreq sym) ∧
    ∀ s : State, s.err = false →
      exec (.rdFreq sym) s = .next { s with pend := none, result0 := ftGet s.ft sym, result1 := 0x00000000 }

/-- R122: after COUNT of every symbol of S, from an empty table and without error, FT holds the number of occurrences; and
there is no error when no symbol occurs more than 2^32-1 times. -/
def Obligations.CountPassCounts : Prop :=
  ∀ (s : State) (msg : List Symbol), s.err = false → s.tstate = .collect → (∀ x, ftGet s.ft x = 0) →
    (∀ t, completeAll (msg.map Instr.count) s = .next t → t.err = false → ∀ x, (ftGet t.ft x).toNat = msg.count x) ∧
    ((∀ x, msg.count x ≤ 2 ^ 32 - 1) → ∃ t, completeAll (msg.map Instr.count) s = .next t ∧ t.err = false)

/-! ### Code tree and code table -/

/-- R140: BUILD's word, its phase and its frame: it writes ARENA, CT and the tree descriptor, and TSTATE becomes BUILT. -/
def Obligations.BuildCompletes : Prop :=
  decode 0x20000000 = some .build ∧ IllegalOutOfPhase .build ∧
  ∀ s : State, s.MayBuild → ∃ t, exec .build s = .next t ∧
    t = { s with
      pend := none, tstate := .built
      arena := t.arena, arenaDraws := t.arenaDraws, ct := t.ct
      kind := t.kind, root := t.root, nnodes := t.nnodes, nleaves := t.nleaves } ∧
    t.kind = kindFor (entryCount s.ft) ∧ t.nleaves.toNat = entryCount s.ft

/-- R141, in R142's order: the sentinel tree, the bare leaf, and in the general case the leaves in ascending symbol order
and then one internal node for each merge. A merge takes the two nodes least by (frequency, index) among the earlier nodes
that no earlier merge has taken; the lesser is the left child, and the frequency is the exact sum. The first clause is
R142's order. That there are n-1 merges and that the root is the last node are what R141 itself derives from its loop. -/
def Obligations.TreeBuildWritesTheHuffmanTree : Prop :=
  (∀ a b : QEntry, a.before b = true ↔
    a.freq.toNat < b.freq.toNat ∨ a.freq.toNat = b.freq.toNat ∧ a.idx.toNat < b.idx.toNat) ∧
  ∀ s t : State, s.MayBuild → exec .build s = .next t →
    let entries := allSymbols.filter fun x => ftGet s.ft x != 0
    (entries = [] → t.node 0 = .leaf 0x00 1 true ∧
      t.kind = .empty ∧ t.root = 0 ∧ t.nnodes = 1 ∧ t.nleaves = 0) ∧
    (∀ sym, entries = [sym] → t.node 0 = .leaf sym ((ftGet s.ft sym).zeroExtend 40) false ∧
      t.kind = .single ∧ t.root = 0 ∧ t.nnodes = 1 ∧ t.nleaves = 1) ∧
    (2 ≤ entries.length →
      t.kind = .general ∧ t.nnodes.toNat = 2 * entries.length - 1 ∧ t.nleaves.toNat = entries.length ∧
      t.root.toNat + 1 = t.nnodes.toNat ∧
      (∀ (i : Index) (sym : Symbol), entries[i.toNat]? = some sym →
        t.node i = .leaf sym ((ftGet s.ft sym).zeroExtend 40) false) ∧
      ∀ k : Index, entries.length ≤ k.toNat → k.toNat < t.nnodes.toNat →
        ∃ f l r, t.node k = .internal f l r ∧ l < k ∧ r < k ∧
          (nodeFreq (t.node l)).toNat + (nodeFreq (t.node r)).toNat = f.toNat ∧
          QEntry.before ⟨nodeFreq (t.node l), l⟩ ⟨nodeFreq (t.node r), r⟩ = true ∧
          l ∉ childrenOf (t.arena.take k.toNat) ∧ r ∉ childrenOf (t.arena.take k.toNat) ∧
          ∀ j : Index, j < k → j ∉ childrenOf (t.arena.take k.toNat) → j ≠ l → j ≠ r →
            QEntry.before ⟨nodeFreq (t.node r), r⟩ ⟨nodeFreq (t.node j), j⟩ = true)

/-- R144 items 1 and 2: every index but ROOT is the child of exactly one node, once, ROOT of none, and ROOT's frequency is
the sum of all counts. -/
def Obligations.BuiltTreeIsStrictlyBinary : Prop :=
  ∀ s t : State, s.MayBuild → exec .build s = .next t → 1 ≤ entryCount s.ft →
    (∀ i : Index, i.toNat < t.nnodes.toNat → (childrenOf t.arena).count i = if i = t.root then 0 else 1) ∧
    (nodeFreq (t.node t.root)).toNat = (allSymbols.map fun sym => (ftGet s.ft sym).toNat).sum

/-- R144 item 3: no code is the beginning of another symbol's code. -/
def Obligations.CodesArePrefixFree : Prop :=
  ∀ s t : State, s.MayBuild → exec .build s = .next t →
    ∀ (x y : Symbol) (c d : Bits), x ≠ y → ctGet t.ct x = some c → ctGet t.ct y = some d → ¬ c <+: d

/-- R144 item 4: how long the codes are, and that Kraft's sum is full (each code of length n counted as 2^(255-n)). -/
def Obligations.CodeLengths : Prop :=
  ∀ s t : State, s.MayBuild → exec .build s = .next t →
    (entryCount s.ft = 1 → ∀ sym c, ctGet t.ct sym = some c → c = []) ∧
    (2 ≤ entryCount s.ft → ∀ sym c, ctGet t.ct sym = some c → 1 ≤ c.length ∧ c.length ≤ entryCount s.ft - 1) ∧
    (1 ≤ entryCount s.ft →
      (allSymbols.map fun sym =>
        match ctGet t.ct sym with
        | some c => 2 ^ (255 - c.length)
        | none => 0).sum = 2 ^ 255)

/-- R143: exactly the symbols with an entry have a code, and a code is the path from ROOT to its symbol's leaf, left = 0 and
right = 1. -/
def Obligations.CodesAreTreePaths : Prop :=
  ∀ s t : State, s.MayBuild → exec .build s = .next t →
    (∀ sym, (ctGet t.ct sym).isSome = true ↔ ftGet s.ft sym ≠ 0) ∧
    ∀ (sym : Symbol) (code : Bits), ctGet t.ct sym = some code →
      code.length ≤ entryCount s.ft - 1 ∧ entryCount s.ft - 1 ≤ 255 ∧
      ∃ path : List Index, path.length = code.length + 1 ∧ path[0]? = some t.root ∧
        (∀ (k : Nat) (b : Bool) (i j : Index), code[k]? = some b → path[k]? = some i → path[k + 1]? = some j →
          ∃ f l r, t.node i = .internal f l r ∧ j = if b then r else l) ∧
        ∃ i f, path[code.length]? = some i ∧ t.node i = .leaf sym f false

/-- R144 item 5 and R145: what BUILD leaves depends on FT alone, not on any unspecified arena entry (log entry 3). -/
def Obligations.BuildDependsOnTheTableOnly : Prop :=
  ∀ s u t v : State, s.MayBuild → u.MayBuild → s.ft = u.ft → exec .build s = .next t → exec .build u = .next v →
    t.arena = v.arena ∧ t.ct = v.ct ∧ t.kind = v.kind ∧ t.root = v.root ∧ t.nnodes = v.nnodes ∧ t.nleaves = v.nleaves

/-- R146 and R147: RD_NODE's two results, field by field. -/
def Obligations.RdNodeReadsTheArena : Prop :=
  ∀ idx : Index, decode (0x21000000 ||| idx.zeroExtend 32) = some (.rdNode idx) ∧ IllegalOutOfPhase (.rdNode idx) ∧
    ∀ s : State, s.err = false → s.tstate = .built →
      ∃ r0 r1, exec (.rdNode idx) s = .next { s with pend := none, result0 := r0, result1 := r1 } ∧
        (s.nnodes ≤ idx ∨ idx = 511 → r0 = 0 ∧ r1 = 0) ∧
        (∀ sym freq sent, idx < s.nnodes → s.node idx = .leaf sym freq sent →
          r0 = freq.extractLsb' 0 32 ∧ r1.extractLsb' 0 8 = freq.extractLsb' 32 8 ∧ r1.getLsbD 8 = true ∧
          r1.getLsbD 9 = sent ∧ r1.getLsbD 10 = true ∧ r1.getLsbD 11 = false ∧ r1.extractLsb' 12 8 = sym ∧
          r1.extractLsb' 20 12 = 0) ∧
        (∀ freq l r, idx < s.nnodes → s.node idx = .internal freq l r →
          r0 = freq.extractLsb' 0 32 ∧ r1.extractLsb' 0 8 = freq.extractLsb' 32 8 ∧ r1.getLsbD 8 = false ∧
          r1.getLsbD 9 = false ∧ r1.getLsbD 10 = true ∧ r1.getLsbD 11 = false ∧ r1.extractLsb' 12 9 = l ∧
          r1.extractLsb' 21 9 = r ∧ r1.extractLsb' 30 2 = 0)

/-- R148: RD_CODE's two results, for a code of at most 255 bits (R42). -/
def Obligations.RdCodeReadsTheTable : Prop :=
  ∀ (chunk : BitVec 3) (sym : Symbol),
    decode (0x22000000 ||| chunk.zeroExtend 32 <<< 8 ||| sym.zeroExtend 32) = some (.rdCode chunk sym) ∧
    IllegalOutOfPhase (.rdCode chunk sym) ∧
    ∀ s : State, s.err = false → s.tstate = .built →
      ∃ r0 r1, exec (.rdCode chunk sym) s = .next { s with pend := none, result0 := r0, result1 := r1 } ∧
        (ctGet s.ct sym = none → r0 = 0 ∧ r1 = 0) ∧
        (∀ c, ctGet s.ct sym = some c → c.length ≤ 255 →
          r1.getLsbD 31 = true ∧ (r1.extractLsb' 0 9).toNat = c.length ∧ r1.extractLsb' 9 22 = 0 ∧
          ∀ i, i < 32 → r0.getLsbD (31 - i) = c.getD (32 * chunk.toNat + i) false)

/-! ### Encoder -/

/-- R170 and R190: ENC_BEGIN and DEC_BEGIN open a session, from any phase of their own, and leave the other's alone. -/
def Obligations.BeginOpensASession : Prop :=
  decode 0x30000000 = some .encBegin ∧ decode 0x40000000 = some .decBegin ∧
  IllegalOutOfPhase .encBegin ∧ IllegalOutOfPhase .decBegin ∧
  ∀ s : State, s.err = false → s.tstate = .built →
    exec .encBegin s = .next { s with pend := none, ebuf := [], erp := 0, estate := .active } ∧
    exec .decBegin s = .next { s with pend := none, din := [], dout := [], drp := 0, dstate := .active }

/-- R171: ENC_SYM's three outcomes, in order. -/
def Obligations.EncSymAppends : Prop :=
  ∀ sym : Symbol, decode (0x31000000 ||| sym.zeroExtend 32) = some (.encSym sym) ∧ IllegalOutOfPhase (.encSym sym) ∧
    ∀ s : State, s.err = false → s.estate = .active →
      (∀ c, ctGet s.ct sym = some c → s.ebuf.length + c.length ≤ s.cfg.encCapBits.toNat →
        exec (.encSym sym) s = .next { s with pend := none, ebuf := s.ebuf ++ c }) ∧
      (∀ w, s.pend = some w → ctGet s.ct sym = none → exec (.encSym sym) s = .next { s with
        pend := none, ebuf := [], erp := 0, estate := .idle
        err := true, errcode := .unknownSymbol, errcmd := w }) ∧
      (∀ w c, s.pend = some w → ctGet s.ct sym = some c → s.cfg.encCapBits.toNat < s.ebuf.length + c.length →
        exec (.encSym sym) s = .next { s with
          pend := none, ebuf := [], erp := 0, estate := .idle
          err := true, errcode := .capacityExceeded, errcmd := w })

/-- R173: ENC_END publishes the output, and a second ENC_END is illegal. -/
def Obligations.EncEndPublishes : Prop :=
  decode 0x32000000 = some .encEnd ∧ IllegalOutOfPhase .encEnd ∧
  ∀ s : State, s.err = false → s.estate = .active →
    exec .encEnd s = .next { s with pend := none, estate := .done, erp := 0 } ∧
    ∀ t w, exec .encEnd s = .next t →
      exec .encEnd { t with pend := some w } =
        .next { t with pend := none, err := true, errcode := .illegalCommand, errcmd := w }

/-- R175 and R38: a read of ENC_OUT with nothing pending pops the next word of a completed encoding, MSB-first and zero
padded, and otherwise returns 0 and changes nothing; ENC_LEN is the length in bits in DONE and 0 otherwise; writes to both
are ignored. -/
def Obligations.EncOutPops : Prop :=
  (∀ s : State, s.pend = none →
    (s.estate = .done → 32 * s.erp < s.ebuf.length →
      (busRead (Reg.ofOffset 0x24) s).2 = { s with erp := s.erp + 1 } ∧
      ∀ i, i < 32 → (busRead (Reg.ofOffset 0x24) s).1.getLsbD (31 - i) = s.ebuf.getD (32 * s.erp + i) false) ∧
    (s.estate ≠ .done ∨ s.ebuf.length ≤ 32 * s.erp → busRead (Reg.ofOffset 0x24) s = (0, s)) ∧
    busRead (Reg.ofOffset 0x20) s = (if s.estate = .done then BitVec.ofNat 32 s.ebuf.length else 0, s)) ∧
  (∀ s : State, s.pend ≠ none → busRead (Reg.ofOffset 0x24) s = (0, s)) ∧
  (∀ (s : State) (v : Word), busWrite (Reg.ofOffset 0x20) v s = s ∧ busWrite (Reg.ofOffset 0x24) v s = s) ∧
  busRead (Reg.ofOffset 0x20) State.reset = (0, State.reset) ∧ busRead (Reg.ofOffset 0x24) State.reset = (0, State.reset)

/-- R172: the encode contract, from `Clean` (R254) instead of a CLEAR. -/
def Obligations.EncodeContract : Prop :=
  ∀ (s : State) (msg : List Symbol), s.Clean →
    (∀ t, completeAll (countPass msg ++ encodePass msg) s = .next t →
      t.err = false →
      t.estate = .done ∧ (∀ x ∈ msg, (ctGet t.ct x).isSome = true) ∧
      t.ebuf = msg.flatMap fun x => (ctGet t.ct x).getD []) ∧
    ((∀ x, msg.count x ≤ 2 ^ 32 - 1) → ∃ u, completeAll (countPass msg) s = .next u ∧ u.err = false ∧
      ((msg.map fun x => ((ctGet u.ct x).getD []).length).sum ≤ s.cfg.encCapBits.toNat →
        ∃ t, completeAll (encodePass msg) u = .next t ∧ t.err = false))

/-! ### Decoder -/

/-- R191: DEC_BITS appends N bits, or drops the session when DIN would pass its capacity. -/
def Obligations.DecBitsAppends : Prop :=
  ∀ (nm1 : BitVec 4) (data : BitVec 16),
    decode (0x41000000 ||| nm1.zeroExtend 32 <<< 16 ||| data.zeroExtend 32) = some (.decBits nm1 data) ∧
    IllegalOutOfPhase (.decBits nm1 data) ∧
    ∀ s : State, s.err = false → s.dstate = .active →
      (s.din.length + (nm1.toNat + 1) ≤ s.cfg.decInCapBits.toNat → ∃ bs,
        exec (.decBits nm1 data) s = .next { s with pend := none, din := s.din ++ bs } ∧
        bs.length = nm1.toNat + 1 ∧ ∀ k, k ≤ nm1.toNat → bs[k]? = some (data.getLsbD (15 - k))) ∧
      (∀ w, s.pend = some w → s.cfg.decInCapBits.toNat < s.din.length + (nm1.toNat + 1) →
        exec (.decBits nm1 data) s = .next { s with
          pend := none, din := [], dout := [], drp := 0, dstate := .idle
          err := true, errcode := .capacityExceeded, errcmd := w })

/-- R192: DEC_END's three outcomes, in order, by the result of R193's Decode. -/
def Obligations.DecEndPublishes : Prop :=
  decode 0x42000000 = some .decEnd ∧ IllegalOutOfPhase .decEnd ∧
  ∀ s : State, s.err = false → s.dstate = .active →
    (∀ out, (decodeStream s.node s.kind s.root s.din).output = some out →
      out.length ≤ s.cfg.decOutCapSyms.toNat →
      exec .decEnd s = .next { s with pend := none, din := [], dout := out, drp := 0, dstate := .done }) ∧
    (∀ w, s.pend = some w → (decodeStream s.node s.kind s.root s.din).output = none →
      exec .decEnd s = .next { s with
        pend := none, din := [], dout := [], drp := 0, dstate := .idle
        err := true, errcode := .malformedStream, errcmd := w }) ∧
    (∀ w out, s.pend = some w → (decodeStream s.node s.kind s.root s.din).output = some out →
      s.cfg.decOutCapSyms.toNat < out.length →
      exec .decEnd s = .next { s with
        pend := none, din := [], dout := [], drp := 0, dstate := .idle
        err := true, errcode := .capacityExceeded, errcmd := w })

/-- R193's table of cases, over the tree BUILD makes: EMPTY and SINGLE decode only the empty stream, and GENERAL decodes
exactly the concatenations of codes, to their symbols in order. -/
def Obligations.DecodeInvertsTheCode : Prop :=
  ∀ s t : State, s.MayBuild → exec .build s = .next t → ∀ bits : Bits,
    let r := (decodeStream t.node t.kind t.root bits).output
    (t.kind = .empty → r = if bits = [] then some [] else none) ∧
    (∀ sym, t.kind = .single → ftGet s.ft sym ≠ 0 →
      r = if bits = [] then some (List.replicate (ftGet s.ft sym).toNat sym) else none) ∧
    (t.kind = .general → ∀ out, r = some out ↔
      (∀ x ∈ out, (ctGet t.ct x).isSome = true) ∧ bits = out.flatMap fun x => (ctGet t.ct x).getD [])

/-- R194: the round trip. A run of R172 that succeeds, followed by DEC_BEGIN, the encoded bits in any split, and DEC_END,
gives the sequence back when it is within the capacities. -/
def Obligations.RoundTrip : Prop :=
  ∀ (s t : State) (msg : List Symbol) (chunks : List (BitVec 4 × BitVec 16)), s.Clean →
    completeAll (countPass msg ++ encodePass msg) s = .next t → t.err = false →
    (chunks.flatMap fun c => streamBits c.1 c.2) = t.ebuf →
    t.ebuf.length ≤ s.cfg.decInCapBits.toNat → msg.length ≤ s.cfg.decOutCapSyms.toNat →
    ∃ u, completeAll (decodePass chunks) t = .next u ∧
      u.err = false ∧ u.dstate = .done ∧ u.dout = msg

/-- R195 and R39: a read of DEC_OUT with nothing pending pops the next symbol, marked VALID, and otherwise returns 0 and
changes nothing; DEC_LEN is the number of symbols in DONE and 0 otherwise; writes to both are ignored. -/
def Obligations.DecOutPops : Prop :=
  (∀ s : State, s.pend = none →
    (∀ sym, s.dstate = .done → s.dout[s.drp]? = some sym →
      (busRead (Reg.ofOffset 0x2C) s).2 = { s with drp := s.drp + 1 } ∧
      (busRead (Reg.ofOffset 0x2C) s).1.getLsbD 31 = true ∧ (busRead (Reg.ofOffset 0x2C) s).1.extractLsb' 8 23 = 0 ∧
      (busRead (Reg.ofOffset 0x2C) s).1.extractLsb' 0 8 = sym) ∧
    (s.dstate ≠ .done ∨ s.dout.length ≤ s.drp → busRead (Reg.ofOffset 0x2C) s = (0, s)) ∧
    busRead (Reg.ofOffset 0x28) s = (if s.dstate = .done then BitVec.ofNat 32 s.dout.length else 0, s)) ∧
  (∀ s : State, s.pend ≠ none → busRead (Reg.ofOffset 0x2C) s = (0, s)) ∧
  (∀ (s : State) (v : Word), busWrite (Reg.ofOffset 0x28) v s = s ∧ busWrite (Reg.ofOffset 0x2C) v s = s) ∧
  busRead (Reg.ofOffset 0x28) State.reset = (0, State.reset) ∧ busRead (Reg.ofOffset 0x2C) State.reset = (0, State.reset)

/-! ### The host's accesses -/

/-- R62: what a write does, by offset. -/
def Obligations.BusWriteByOffset : Prop :=
  ∀ (s : State) (v : Word),
    (s.pend = none → busWrite (Reg.ofOffset 0x08) v s = { s with pend := some v }) ∧
    (s.pend ≠ none → busWrite (Reg.ofOffset 0x08) v s = { s with ovr := true }) ∧
    (s.pend = none → busWrite (Reg.ofOffset 0x14) v s = { s with arg := v }) ∧
    (s.pend ≠ none → busWrite (Reg.ofOffset 0x14) v s = { s with ovr := true }) ∧
    (∀ off, off ≠ 0x08 → off ≠ 0x14 → busWrite (Reg.ofOffset off) v s = s)

/-- R63 (with R26, R27, R30, R37, R43, R46, R48): what a read returns, by offset. -/
def Obligations.BusReadByOffset : Prop :=
  ∀ s : State,
    busRead (Reg.ofOffset 0x00) s = (0x48554646, s) ∧ busRead (Reg.ofOffset 0x04) s = (0x01282008, s) ∧
    busRead (Reg.ofOffset 0x0C) s = (s.status, s) ∧ busRead (Reg.ofOffset 0x30) s = (s.cfg.encCapBits, s) ∧
    busRead (Reg.ofOffset 0x34) s = (s.cfg.decInCapBits, s) ∧
    busRead (Reg.ofOffset 0x38) s = (s.cfg.decOutCapSyms, s) ∧
    (s.pend ≠ none → ∀ off, off ∉ [0x00, 0x04, 0x0C, 0x30, 0x34, 0x38] → busRead (Reg.ofOffset off) s = (0, s)) ∧
    (s.pend = none →
      busRead (Reg.ofOffset 0x08) s = (0, s) ∧
      busRead (Reg.ofOffset 0x10) s = (s.errcode.code.zeroExtend 32, s) ∧
      busRead (Reg.ofOffset 0x14) s = (s.arg, s) ∧ busRead (Reg.ofOffset 0x18) s = (s.result0, s) ∧
      busRead (Reg.ofOffset 0x1C) s = (s.result1, s) ∧ busRead (Reg.ofOffset 0x20) s = (s.encLen, s) ∧
      busRead (Reg.ofOffset 0x24) s = encPop s ∧ busRead (Reg.ofOffset 0x28) s = (s.decLen, s) ∧
      busRead (Reg.ofOffset 0x2C) s = decPop s ∧ busRead (Reg.ofOffset 0x3C) s = (s.treeWord, s) ∧
      busRead (Reg.ofOffset 0x40) s = (s.errcmd, s) ∧
      ∀ k, k < 15 → busRead (Reg.ofOffset (0x44 + 4 * k)) s = (0, s))

/-- R64: only the two pops, made while nothing is pending and with data to return, change anything, and then one read
pointer goes up by one. -/
def Obligations.ReadsChangeOnlyReadPointers : Prop :=
  (∀ (s : State) (r : Reg), r ≠ .encOut → r ≠ .decOut → (busRead r s).2 = s) ∧
  (∀ (s : State) (r : Reg), s.pend ≠ none → (busRead r s).2 = s) ∧
  ∀ s : State, s.pend = none →
    (busRead .encOut s).2 =
      (if s.estate = .done ∧ 32 * s.erp < s.ebuf.length then { s with erp := s.erp + 1 } else s) ∧
    (busRead .decOut s).2 =
      (if s.dstate = .done ∧ s.drp < s.dout.length then { s with drp := s.drp + 1 } else s)

/-- R11, R62, R63, R273: a host step with a whole-register access inside the window is that register's read or write, and a
read's value goes to the host (the schedule and the record of reads: log entry 1). -/
def Obligations.HostStepAccessesOneRegister : Prop :=
  ∀ (s : State) (off : Nat) (rest : List Move), off < 0x80 → off % 4 = 0 →
    (s.script = .host (.read (s.cfg.base + off) 4) :: rest → ∃ v t,
      busRead (Reg.ofOffset off) { s with script := rest } = (v, t) ∧
      step s = .next { t with reads := s.reads ++ [v] }) ∧
    (∀ v, s.script = .host (.write (s.cfg.base + off) 4 v) :: rest →
      step s = .next (busWrite (Reg.ofOffset off) v { s with script := rest }))

/-- R61: an access that is narrower than a register, or at an offset that is no multiple of 4, is refused (log entry 10). -/
def Obligations.PartialAccessIsRefused : Prop :=
  ∀ (s : State) (addr bytes : Nat) (rest : List Move), s.cfg.base ≤ addr → addr < s.cfg.base + 0x80 →
    (bytes < 4 ∨ (addr - s.cfg.base) % 4 ≠ 0) →
    (s.script = .host (.read addr bytes) :: rest → step s = .refused .notAWholeRegister) ∧
    (∀ v, s.script = .host (.write addr bytes v) :: rest → step s = .refused .notAWholeRegister)

/-- R29: STATUS, field by field; it can be read at any time, a write to it is ignored, and it reads 0 after reset. -/
def Obligations.StatusFields : Prop :=
  (∀ s : State,
    s.status.getLsbD 0 = s.pend.isSome ∧ s.status.getLsbD 1 = s.err ∧ s.status.getLsbD 2 = s.ovr ∧
    s.status.getLsbD 3 = decide (s.tstate = .built) ∧
    (s.status.extractLsb' 4 2).toNat = (match s.estate with | .idle => 0 | .active => 1 | .done => 2) ∧
    (s.status.extractLsb' 6 2).toNat = (match s.dstate with | .idle => 0 | .active => 1 | .done => 2) ∧
    s.status.extractLsb' 8 24 = 0 ∧ busRead (Reg.ofOffset 0x0C) s = (s.status, s)) ∧
  (∀ (s : State) (v : Word), busWrite (Reg.ofOffset 0x0C) v s = s) ∧ State.reset.status = 0x00000000

/-- R43: the fields of the register TREE. -/
def Obligations.TreeWordFields : Prop :=
  ∀ s : State,
    s.treeWord.extractLsb' 0 9 = s.root ∧ s.treeWord.getLsbD 9 = false ∧ s.treeWord.extractLsb' 10 9 = s.nnodes ∧
    s.treeWord.getLsbD 19 = false ∧ s.treeWord.extractLsb' 20 9 = s.nleaves ∧
    (s.treeWord.extractLsb' 29 2).toNat =
      (match s.kind with | .none => 0 | .empty => 1 | .single => 2 | .general => 3) ∧
    s.treeWord.getLsbD 31 = false

/-! ### Who writes what

What a step is, the host's, the engine's or a reset, is what the schedule in the state says (log entry 1). -/

/-- R34: PEND is taken by an accepted CMD write, emptied by the engine's step and by reset, and written by nothing else. -/
def Obligations.PendingSlotWriters : Prop :=
  ∀ s t : State, step s = .next t →
    t.pend = s.pend ∨ (∃ v, s.HostWrites 0x08 v ∧ s.pend = none ∧ t.pend = some v) ∨
    (t.pend = none ∧ (s.EngineNext ∨ s.ResetsNext))

/-- R35: ARG takes an accepted write, a dropped one sets OVR, no command writes it, and a read with nothing pending returns
it; reset sets it to 0. -/
def Obligations.ArgWriters : Prop :=
  (∀ s t : State, step s = .next t →
    t.arg = s.arg ∨ (s.pend = none ∧ s.HostWrites 0x14 t.arg) ∨ (s.ResetsNext ∧ t.arg = 0)) ∧
  (∀ (s : State) (v : Word), s.pend = none → busWrite .arg v s = { s with arg := v }) ∧
  (∀ (s : State) (v : Word), s.pend ≠ none → busWrite .arg v s = { s with ovr := true }) ∧
  (∀ (i : Instr) (s t : State), exec i s = .next t → t.arg = s.arg) ∧
  (∀ s : State, s.pend = none → busRead .arg s = (s.arg, s)) ∧ State.reset.arg = 0x00000000

/-- R36: RESULT0 and RESULT1 are written only by RD_FREQ, RD_NODE, RD_CODE, CLEAR and reset. -/
def Obligations.ResultWriters : Prop :=
  (∀ s t : State, step s = .next t →
    (t.result0 = s.result0 ∧ t.result1 = s.result1) ∨
    (∃ i, s.Completes i ∧ i.opcode ∈ [Opcode.rdFreq, .rdNode, .rdCode]) ∨
    ((s.Completes .clear ∨ s.ResetsNext) ∧ t.result0 = 0 ∧ t.result1 = 0)) ∧
  State.reset.result0 = 0x00000000 ∧ State.reset.result1 = 0x00000000

/-- R40: FT is written only by COUNT and SETFREQ, both only in COLLECT, and emptied by CLEAR and reset. -/
def Obligations.FrequencyTableWriters : Prop :=
  ∀ s t : State, step s = .next t →
    t.ft = s.ft ∨
    (∃ sym, (s.Completes (.count sym) ∨ s.Completes (.setFreq sym)) ∧ s.tstate = .collect ∧ s.err = false ∧
      ∀ x, x ≠ sym → ftGet t.ft x = ftGet s.ft x) ∨
    ((s.Completes .clear ∨ s.ResetsNext) ∧ ∀ x, ftGet t.ft x = 0)

/-- R31 and R70: while TSTATE = BUILT, the tree, the code table and FT stay as they are, and TSTATE stays BUILT, until CLEAR
or reset. -/
def Obligations.TreeIsReadOnlyWhileBuilt : Prop :=
  ∀ s t : State, s.tstate = .built → step s = .next t →
    (t.tstate = .built ∧ t.arena = s.arena ∧ (∀ i, t.node i = s.node i) ∧ t.ct = s.ct ∧ t.ft = s.ft ∧ t.kind = s.kind ∧
      t.root = s.root ∧ t.nnodes = s.nnodes ∧ t.nleaves = s.nleaves) ∨
    s.Completes .clear ∨ s.ResetsNext

/-- R47 and R228: OVR is set only by a CMD or ARG write that arrives while a command is pending, and that write does nothing
else. -/
def Obligations.OverrunIsADroppedWrite : Prop :=
  ∀ s t : State, step s = .next t → s.ovr = false → t.ovr = true →
    s.pend ≠ none ∧ (∃ v, s.HostWrites 0x08 v ∨ s.HostWrites 0x14 v) ∧
    t = { s with ovr := true, script := s.script.tail }

/-! ### Reset and invariants -/

/-- R51: the reset value of every element (ARENA's is unspecified). -/
def Obligations.ResetValues : Prop :=
  let s := State.reset
  s.pend = none ∧ s.err = false ∧ s.ovr = false ∧ s.errcode = .none ∧ s.errcmd = 0 ∧ s.arg = 0 ∧
  s.result0 = 0 ∧ s.result1 = 0 ∧ s.tstate = .collect ∧ (∀ sym, ftGet s.ft sym = 0) ∧
  s.kind = .none ∧ s.root = 0 ∧ s.nnodes = 0 ∧ s.nleaves = 0 ∧ s.treeWord = 0x00000000 ∧
  (∀ sym, ctGet s.ct sym = none) ∧ s.estate = .idle ∧ s.ebuf = [] ∧ s.erp = 0 ∧
  s.dstate = .idle ∧ s.din = [] ∧ s.dout = [] ∧ s.drp = 0 ∧ s.status = 0x00000000

/-- R250, R254: an assertion of `rst` gives every element its reset value, whatever is pending. Of the model's own fields,
the schedule goes on and the record of reads starts anew (log entry 1), the unspecified arena entries are drawn anew, one draw
on (log entry 3), and the configuration stays (log entry 5). `Clean` holds after reset and after any completed CLEAR, and with
R50 it implies an absent tree and empty buffers. -/
def Obligations.ResetAndCleanEntry : Prop :=
  (∀ (s : State) (rest : List Move), s.script = .rst :: rest →
    step s = .next { State.reset with arenaDraws := s.arenaDraws + 1, cfg := s.cfg, script := rest }) ∧
  State.reset.Clean ∧
  (∀ s t : State, s.Completes .clear → step s = .next t → t.Clean) ∧
  (∀ s : State, s.Clean → s.R50 → s.kind = .none ∧ (∀ sym, ctGet s.ct sym = none) ∧ s.ebuf = [] ∧ s.din = [] ∧
    s.dout = [])

/-- R50 and the ranges of R7, R42, R44 and R45 hold in the reset state. -/
def Obligations.InvariantsHoldAtReset : Prop :=
  State.reset.R50 ∧ State.reset.InRange ∧ State.reset.TreeResident

/-- R50: every machine step keeps the nine invariants. -/
def Obligations.StepKeepsR50 : Prop :=
  ∀ s t : State, s.R50 → step s = .next t → t.R50

/-- R7, R37, R41, R42, R44, R45: no machine step changes the configuration, and every machine step keeps the ranges and the
arena's listed entries at NNODES (log entries 3 and 5). -/
def Obligations.StepKeepsRanges : Prop :=
  (∀ s t : State, step s = .next t → t.cfg = s.cfg) ∧ ∀ s t : State, s.InRange → step s = .next t → t.InRange

/-- R31, R70, R140: every machine step keeps the resident tree BUILD's tree of the frozen FT. -/
def Obligations.StepKeepsTheResidentTree : Prop :=
  ∀ s t : State, s.TreeResident → step s = .next t → t.TreeResident

/-- R273, R250: a run is over exactly when nothing is pending and every host access left comes after a reset, and so belongs
to another run. From there on no step but a reset changes the end state: only the schedule moves on (log entry 1). -/
def Obligations.EndOfRunIsFinal : Prop :=
  (∀ s : State, s.RunOver ↔
    s.pend = none ∧ ∀ before a after, s.script = before ++ .host a :: after → Move.rst ∈ before) ∧
  ∀ s : State, s.RunOver → ¬ s.ResetsNext →
    step s = .next { s with script := s.script.tail } ∧ { s with script := s.script.tail }.RunOver
end

