-- ==== Sys2Proof/Laws/Decode.lean ====
section
/-! SUPPORT. Lemmas about the opcode map, the fields of the five formats, and the words encoding gives. -/

namespace Sys2Proof

@[simp] theorem Opcode.ofCode_code (op : Opcode) : Opcode.ofCode op.code = some op := by
  cases op <;> decide

theorem Opcode.code_of_ofCode {c : BitVec 8} {op : Opcode} (h : Opcode.ofCode c = some op) : op.code = c := by
  simpa using List.find?_some h

/-- A field of a concatenation that lies in its low part. -/
theorem extractLsb'_append_low {a b : Nat} (x : BitVec a) (y : BitVec b) {lo len : Nat} (h : lo + len ≤ b) :
    (x ++ y).extractLsb' lo len = y.extractLsb' lo len := by
  ext i hi
  simp only [BitVec.getElem_extractLsb', BitVec.getLsbD_append]
  rw [if_pos (by omega)]

/-- A field of a concatenation that lies in its high part. -/
theorem extractLsb'_append_high {a b : Nat} (x : BitVec a) (y : BitVec b) {lo len : Nat} (h : b ≤ lo) :
    (x ++ y).extractLsb' lo len = x.extractLsb' (lo - b) len := by
  ext i hi
  simp only [BitVec.getElem_extractLsb', BitVec.getLsbD_append]
  rw [if_neg (by omega)]
  congr 1
  omega

@[simp] theorem opc_encodeN (op : Opcode) : opc (encodeN op) = op.code := by
  simp only [opc, field, encodeN]
  rw [extractLsb'_append_high _ _ (by omega)]
  simp

@[simp] theorem opc_encodeS (op : Opcode) (sym : Symbol) : opc (encodeS op sym) = op.code := by
  simp only [opc, field, encodeS]
  rw [extractLsb'_append_high _ _ (by omega), extractLsb'_append_high _ _ (by omega)]
  simp

@[simp] theorem opc_encodeX (op : Opcode) (idx : Index) : opc (encodeX op idx) = op.code := by
  simp only [opc, field, encodeX]
  rw [extractLsb'_append_high _ _ (by omega), extractLsb'_append_high _ _ (by omega)]
  simp

@[simp] theorem opc_encodeC (op : Opcode) (chunk : BitVec 3) (sym : Symbol) :
    opc (encodeC op chunk sym) = op.code := by
  simp only [opc, field, encodeC]
  rw [extractLsb'_append_high _ _ (by omega), extractLsb'_append_high _ _ (by omega),
    extractLsb'_append_high _ _ (by omega)]
  simp

@[simp] theorem opc_encodeB (op : Opcode) (nm1 : BitVec 4) (data : BitVec 16) :
    opc (encodeB op nm1 data) = op.code := by
  simp only [opc, field, encodeB]
  rw [extractLsb'_append_high _ _ (by omega), extractLsb'_append_high _ _ (by omega),
    extractLsb'_append_high _ _ (by omega)]
  simp

/-- The opcode field of every command's word is its opcode's code (R81, R88). -/
@[simp] theorem opc_encode (i : Instr) : opc (encode i) = i.opcode.code := by
  cases i <;> simp [encode, Instr.opcode]

/-! ### The fields of an encoded word -/

@[simp] theorem field_encodeN (op : Opcode) : field (encodeN op) 0 24 = 0 := by
  simp only [field, encodeN]
  rw [extractLsb'_append_low _ _ (by omega)]
  simp

@[simp] theorem field_encodeS (op : Opcode) (sym : Symbol) :
    field (encodeS op sym) 8 16 = 0 ∧ field (encodeS op sym) 0 8 = sym := by
  simp only [field, encodeS]
  rw [extractLsb'_append_high _ _ (by omega), extractLsb'_append_low _ _ (by omega),
    extractLsb'_append_low _ _ (by omega)]
  simp

@[simp] theorem field_encodeX (op : Opcode) (idx : Index) :
    field (encodeX op idx) 9 15 = 0 ∧ field (encodeX op idx) 0 9 = idx := by
  simp only [field, encodeX]
  rw [extractLsb'_append_high _ _ (by omega), extractLsb'_append_low _ _ (by omega),
    extractLsb'_append_low _ _ (by omega)]
  simp

@[simp] theorem field_encodeC (op : Opcode) (chunk : BitVec 3) (sym : Symbol) :
    field (encodeC op chunk sym) 11 13 = 0 ∧ field (encodeC op chunk sym) 8 3 = chunk ∧
      field (encodeC op chunk sym) 0 8 = sym := by
  simp only [field, encodeC]
  rw [extractLsb'_append_high _ _ (by omega), extractLsb'_append_high _ _ (by omega),
    extractLsb'_append_low _ _ (by omega), extractLsb'_append_high _ _ (by omega),
    extractLsb'_append_low _ _ (by omega), extractLsb'_append_low _ _ (by omega)]
  simp

@[simp] theorem field_encodeB (op : Opcode) (nm1 : BitVec 4) (data : BitVec 16) :
    field (encodeB op nm1 data) 20 4 = 0 ∧ field (encodeB op nm1 data) 16 4 = nm1 ∧
      field (encodeB op nm1 data) 0 16 = data := by
  simp only [field, encodeB]
  rw [extractLsb'_append_high _ _ (by omega), extractLsb'_append_high _ _ (by omega),
    extractLsb'_append_low _ _ (by omega), extractLsb'_append_high _ _ (by omega),
    extractLsb'_append_low _ _ (by omega), extractLsb'_append_low _ _ (by omega)]
  simp

/-! ### Decoding -/

/-- A word that decodes carries its command's opcode, and its operands decode to the command. -/
theorem operands_of_decode {w : Word} {i : Instr} (h : decode w = some i) :
    opc w = i.opcode.code ∧ decodeOperands w i.opcode = some i := by
  unfold decode at h
  cases ho : Opcode.ofCode (opc w) with
  | none => simp [ho] at h
  | some op =>
    simp only [ho] at h
    have hc := Opcode.code_of_ofCode ho
    have : i.opcode = op := by
      cases op <;> simp [decodeOperands, decodeN, decodeS, decodeX, decodeC, decodeB] at h <;>
        (obtain ⟨_, rfl⟩ := h; rfl)
    rw [this]
    exact ⟨hc.symm, h⟩

/-- Decoding starts from the opcode field (R89). -/
theorem decode_of_opc {w : Word} {op : Opcode} (h : opc w = op.code) : decode w = decodeOperands w op := by
  simp [decode, h]

/-! ### The number a bit-string writes (R9, R92) -/

/-- What stands before a bit-string is left where it was, above the bits appended. -/
theorem testBit_foldl_bits (b : Bits) (v j : Nat) :
    (b.foldl (fun v x => 2 * v + Bool.toNat x) v).testBit (b.length + j) = v.testBit j := by
  induction b generalizing v j with
  | nil => simp
  | cons x b ih =>
    rw [List.foldl_cons, List.length_cons, show b.length + 1 + j = b.length + (j + 1) by omega, ih, Nat.testBit_succ]
    congr 1
    cases x <;> simp; omega

/-- Bit `k` of a bit-string, counted from its first bit, is bit `|b| - 1 - k` of its number. -/
theorem testBit_bitsValue {b : Bits} {k : Nat} (h : k < b.length) :
    (bitsValue b).testBit (b.length - 1 - k) = b.getD k false := by
  unfold bitsValue
  generalize (0 : Nat) = v
  induction b generalizing v k with
  | nil => simp at h
  | cons x b ih =>
    simp only [List.foldl_cons, List.length_cons] at h ⊢
    cases k with
    | zero =>
      have := testBit_foldl_bits b (2 * v + Bool.toNat x) 0
      simp only [Nat.add_zero] at this
      rw [Nat.sub_zero, Nat.add_sub_cancel, this]
      cases x <;> simp [Nat.testBit_zero]
    | succ k =>
      rw [show b.length + 1 - 1 - (k + 1) = b.length - 1 - k by omega]
      simpa using ih (k := k) (by omega) _

/-- The number of a bit-string fits in as many bits. -/
theorem bitsValue_lt (b : Bits) : bitsValue b < 2 ^ b.length := by
  apply Nat.lt_pow_two_of_testBit
  intro i hi
  have := testBit_foldl_bits b 0 (i - b.length)
  rw [Nat.add_sub_cancel' hi, Nat.zero_testBit] at this
  exact this

end Sys2Proof
end

