-- ==== Sys2Proof/Laws/State.lean ====
section
/-! SUPPORT. One lemma per field for each state update of the model, so that no proof unfolds a record update. -/

namespace Sys2Proof.Machine

/-! `State.overrun`: OVR. -/

@[simp] theorem overrun_pend (s : State) : s.overrun.pend = s.pend := rfl
@[simp] theorem overrun_err (s : State) : s.overrun.err = s.err := rfl
@[simp] theorem overrun_ovr (s : State) : s.overrun.ovr = true := rfl
@[simp] theorem overrun_errcode (s : State) : s.overrun.errcode = s.errcode := rfl
@[simp] theorem overrun_errcmd (s : State) : s.overrun.errcmd = s.errcmd := rfl
@[simp] theorem overrun_arg (s : State) : s.overrun.arg = s.arg := rfl
@[simp] theorem overrun_result0 (s : State) : s.overrun.result0 = s.result0 := rfl
@[simp] theorem overrun_result1 (s : State) : s.overrun.result1 = s.result1 := rfl
@[simp] theorem overrun_tstate (s : State) : s.overrun.tstate = s.tstate := rfl
@[simp] theorem overrun_ft (s : State) : s.overrun.ft = s.ft := rfl
@[simp] theorem overrun_kind (s : State) : s.overrun.kind = s.kind := rfl
@[simp] theorem overrun_root (s : State) : s.overrun.root = s.root := rfl
@[simp] theorem overrun_nnodes (s : State) : s.overrun.nnodes = s.nnodes := rfl
@[simp] theorem overrun_nleaves (s : State) : s.overrun.nleaves = s.nleaves := rfl
@[simp] theorem overrun_arena (s : State) : s.overrun.arena = s.arena := rfl
@[simp] theorem overrun_ct (s : State) : s.overrun.ct = s.ct := rfl
@[simp] theorem overrun_estate (s : State) : s.overrun.estate = s.estate := rfl
@[simp] theorem overrun_ebuf (s : State) : s.overrun.ebuf = s.ebuf := rfl
@[simp] theorem overrun_erp (s : State) : s.overrun.erp = s.erp := rfl
@[simp] theorem overrun_dstate (s : State) : s.overrun.dstate = s.dstate := rfl
@[simp] theorem overrun_din (s : State) : s.overrun.din = s.din := rfl
@[simp] theorem overrun_dout (s : State) : s.overrun.dout = s.dout := rfl
@[simp] theorem overrun_drp (s : State) : s.overrun.drp = s.drp := rfl
@[simp] theorem overrun_arenaDraws (s : State) : s.overrun.arenaDraws = s.arenaDraws := rfl
@[simp] theorem overrun_cfg (s : State) : s.overrun.cfg = s.cfg := rfl
@[simp] theorem overrun_script (s : State) : s.overrun.script = s.script := rfl
@[simp] theorem overrun_reads (s : State) : s.overrun.reads = s.reads := rfl

/-! `retire`: PEND. -/

@[simp] theorem retire_pend (s : State) : (retire s).pend = none := rfl
@[simp] theorem retire_err (s : State) : (retire s).err = s.err := rfl
@[simp] theorem retire_ovr (s : State) : (retire s).ovr = s.ovr := rfl
@[simp] theorem retire_errcode (s : State) : (retire s).errcode = s.errcode := rfl
@[simp] theorem retire_errcmd (s : State) : (retire s).errcmd = s.errcmd := rfl
@[simp] theorem retire_arg (s : State) : (retire s).arg = s.arg := rfl
@[simp] theorem retire_result0 (s : State) : (retire s).result0 = s.result0 := rfl
@[simp] theorem retire_result1 (s : State) : (retire s).result1 = s.result1 := rfl
@[simp] theorem retire_tstate (s : State) : (retire s).tstate = s.tstate := rfl
@[simp] theorem retire_ft (s : State) : (retire s).ft = s.ft := rfl
@[simp] theorem retire_kind (s : State) : (retire s).kind = s.kind := rfl
@[simp] theorem retire_root (s : State) : (retire s).root = s.root := rfl
@[simp] theorem retire_nnodes (s : State) : (retire s).nnodes = s.nnodes := rfl
@[simp] theorem retire_nleaves (s : State) : (retire s).nleaves = s.nleaves := rfl
@[simp] theorem retire_arena (s : State) : (retire s).arena = s.arena := rfl
@[simp] theorem retire_ct (s : State) : (retire s).ct = s.ct := rfl
@[simp] theorem retire_estate (s : State) : (retire s).estate = s.estate := rfl
@[simp] theorem retire_ebuf (s : State) : (retire s).ebuf = s.ebuf := rfl
@[simp] theorem retire_erp (s : State) : (retire s).erp = s.erp := rfl
@[simp] theorem retire_dstate (s : State) : (retire s).dstate = s.dstate := rfl
@[simp] theorem retire_din (s : State) : (retire s).din = s.din := rfl
@[simp] theorem retire_dout (s : State) : (retire s).dout = s.dout := rfl
@[simp] theorem retire_drp (s : State) : (retire s).drp = s.drp := rfl
@[simp] theorem retire_arenaDraws (s : State) : (retire s).arenaDraws = s.arenaDraws := rfl
@[simp] theorem retire_cfg (s : State) : (retire s).cfg = s.cfg := rfl
@[simp] theorem retire_script (s : State) : (retire s).script = s.script := rfl
@[simp] theorem retire_reads (s : State) : (retire s).reads = s.reads := rfl

/-! `raise`: the error record. -/

@[simp] theorem raise_pend (code : ErrCode) (s : State) : (raise code s).pend = s.pend := rfl
@[simp] theorem raise_err (code : ErrCode) (s : State) : (raise code s).err = true := rfl
@[simp] theorem raise_ovr (code : ErrCode) (s : State) : (raise code s).ovr = s.ovr := rfl
@[simp] theorem raise_errcode (code : ErrCode) (s : State) : (raise code s).errcode = code := rfl
@[simp] theorem raise_errcmd (code : ErrCode) (s : State) : (raise code s).errcmd = s.pend.getD s.errcmd := rfl
@[simp] theorem raise_arg (code : ErrCode) (s : State) : (raise code s).arg = s.arg := rfl
@[simp] theorem raise_result0 (code : ErrCode) (s : State) : (raise code s).result0 = s.result0 := rfl
@[simp] theorem raise_result1 (code : ErrCode) (s : State) : (raise code s).result1 = s.result1 := rfl
@[simp] theorem raise_tstate (code : ErrCode) (s : State) : (raise code s).tstate = s.tstate := rfl
@[simp] theorem raise_ft (code : ErrCode) (s : State) : (raise code s).ft = s.ft := rfl
@[simp] theorem raise_kind (code : ErrCode) (s : State) : (raise code s).kind = s.kind := rfl
@[simp] theorem raise_root (code : ErrCode) (s : State) : (raise code s).root = s.root := rfl
@[simp] theorem raise_nnodes (code : ErrCode) (s : State) : (raise code s).nnodes = s.nnodes := rfl
@[simp] theorem raise_nleaves (code : ErrCode) (s : State) : (raise code s).nleaves = s.nleaves := rfl
@[simp] theorem raise_arena (code : ErrCode) (s : State) : (raise code s).arena = s.arena := rfl
@[simp] theorem raise_ct (code : ErrCode) (s : State) : (raise code s).ct = s.ct := rfl
@[simp] theorem raise_estate (code : ErrCode) (s : State) : (raise code s).estate = s.estate := rfl
@[simp] theorem raise_ebuf (code : ErrCode) (s : State) : (raise code s).ebuf = s.ebuf := rfl
@[simp] theorem raise_erp (code : ErrCode) (s : State) : (raise code s).erp = s.erp := rfl
@[simp] theorem raise_dstate (code : ErrCode) (s : State) : (raise code s).dstate = s.dstate := rfl
@[simp] theorem raise_din (code : ErrCode) (s : State) : (raise code s).din = s.din := rfl
@[simp] theorem raise_dout (code : ErrCode) (s : State) : (raise code s).dout = s.dout := rfl
@[simp] theorem raise_drp (code : ErrCode) (s : State) : (raise code s).drp = s.drp := rfl
@[simp] theorem raise_arenaDraws (code : ErrCode) (s : State) : (raise code s).arenaDraws = s.arenaDraws := rfl
@[simp] theorem raise_cfg (code : ErrCode) (s : State) : (raise code s).cfg = s.cfg := rfl
@[simp] theorem raise_script (code : ErrCode) (s : State) : (raise code s).script = s.script := rfl
@[simp] theorem raise_reads (code : ErrCode) (s : State) : (raise code s).reads = s.reads := rfl

/-! `acknowledge`: the error record and OVR. -/

@[simp] theorem acknowledge_pend (s : State) : (acknowledge s).pend = s.pend := rfl
@[simp] theorem acknowledge_err (s : State) : (acknowledge s).err = false := rfl
@[simp] theorem acknowledge_ovr (s : State) : (acknowledge s).ovr = false := rfl
@[simp] theorem acknowledge_errcode (s : State) : (acknowledge s).errcode = .none := rfl
@[simp] theorem acknowledge_errcmd (s : State) : (acknowledge s).errcmd = 0 := rfl
@[simp] theorem acknowledge_arg (s : State) : (acknowledge s).arg = s.arg := rfl
@[simp] theorem acknowledge_result0 (s : State) : (acknowledge s).result0 = s.result0 := rfl
@[simp] theorem acknowledge_result1 (s : State) : (acknowledge s).result1 = s.result1 := rfl
@[simp] theorem acknowledge_tstate (s : State) : (acknowledge s).tstate = s.tstate := rfl
@[simp] theorem acknowledge_ft (s : State) : (acknowledge s).ft = s.ft := rfl
@[simp] theorem acknowledge_kind (s : State) : (acknowledge s).kind = s.kind := rfl
@[simp] theorem acknowledge_root (s : State) : (acknowledge s).root = s.root := rfl
@[simp] theorem acknowledge_nnodes (s : State) : (acknowledge s).nnodes = s.nnodes := rfl
@[simp] theorem acknowledge_nleaves (s : State) : (acknowledge s).nleaves = s.nleaves := rfl
@[simp] theorem acknowledge_arena (s : State) : (acknowledge s).arena = s.arena := rfl
@[simp] theorem acknowledge_ct (s : State) : (acknowledge s).ct = s.ct := rfl
@[simp] theorem acknowledge_estate (s : State) : (acknowledge s).estate = s.estate := rfl
@[simp] theorem acknowledge_ebuf (s : State) : (acknowledge s).ebuf = s.ebuf := rfl
@[simp] theorem acknowledge_erp (s : State) : (acknowledge s).erp = s.erp := rfl
@[simp] theorem acknowledge_dstate (s : State) : (acknowledge s).dstate = s.dstate := rfl
@[simp] theorem acknowledge_din (s : State) : (acknowledge s).din = s.din := rfl
@[simp] theorem acknowledge_dout (s : State) : (acknowledge s).dout = s.dout := rfl
@[simp] theorem acknowledge_drp (s : State) : (acknowledge s).drp = s.drp := rfl
@[simp] theorem acknowledge_arenaDraws (s : State) : (acknowledge s).arenaDraws = s.arenaDraws := rfl
@[simp] theorem acknowledge_cfg (s : State) : (acknowledge s).cfg = s.cfg := rfl
@[simp] theorem acknowledge_script (s : State) : (acknowledge s).script = s.script := rfl
@[simp] theorem acknowledge_reads (s : State) : (acknowledge s).reads = s.reads := rfl

/-! `clearBlock`: all but PEND, ARG and the model's own fields. -/

@[simp] theorem clearBlock_pend (s : State) : (clearBlock s).pend = s.pend := rfl
@[simp] theorem clearBlock_err (s : State) : (clearBlock s).err = false := rfl
@[simp] theorem clearBlock_ovr (s : State) : (clearBlock s).ovr = false := rfl
@[simp] theorem clearBlock_errcode (s : State) : (clearBlock s).errcode = .none := rfl
@[simp] theorem clearBlock_errcmd (s : State) : (clearBlock s).errcmd = 0 := rfl
@[simp] theorem clearBlock_arg (s : State) : (clearBlock s).arg = s.arg := rfl
@[simp] theorem clearBlock_result0 (s : State) : (clearBlock s).result0 = 0 := rfl
@[simp] theorem clearBlock_result1 (s : State) : (clearBlock s).result1 = 0 := rfl
@[simp] theorem clearBlock_tstate (s : State) : (clearBlock s).tstate = .collect := rfl
@[simp] theorem clearBlock_ft (s : State) : (clearBlock s).ft = ftEmpty := rfl
@[simp] theorem clearBlock_kind (s : State) : (clearBlock s).kind = .none := rfl
@[simp] theorem clearBlock_root (s : State) : (clearBlock s).root = 0 := rfl
@[simp] theorem clearBlock_nnodes (s : State) : (clearBlock s).nnodes = 0 := rfl
@[simp] theorem clearBlock_nleaves (s : State) : (clearBlock s).nleaves = 0 := rfl
@[simp] theorem clearBlock_arena (s : State) : (clearBlock s).arena = [] := rfl
@[simp] theorem clearBlock_ct (s : State) : (clearBlock s).ct = ctEmpty := rfl
@[simp] theorem clearBlock_estate (s : State) : (clearBlock s).estate = .idle := rfl
@[simp] theorem clearBlock_ebuf (s : State) : (clearBlock s).ebuf = [] := rfl
@[simp] theorem clearBlock_erp (s : State) : (clearBlock s).erp = 0 := rfl
@[simp] theorem clearBlock_dstate (s : State) : (clearBlock s).dstate = .idle := rfl
@[simp] theorem clearBlock_din (s : State) : (clearBlock s).din = [] := rfl
@[simp] theorem clearBlock_dout (s : State) : (clearBlock s).dout = [] := rfl
@[simp] theorem clearBlock_drp (s : State) : (clearBlock s).drp = 0 := rfl
@[simp] theorem clearBlock_arenaDraws (s : State) : (clearBlock s).arenaDraws = s.arenaDraws + 1 := rfl
@[simp] theorem clearBlock_cfg (s : State) : (clearBlock s).cfg = s.cfg := rfl
@[simp] theorem clearBlock_script (s : State) : (clearBlock s).script = s.script := rfl
@[simp] theorem clearBlock_reads (s : State) : (clearBlock s).reads = s.reads := rfl

/-! `dropEncoder`: the encoder session. -/

@[simp] theorem dropEncoder_pend (s : State) : (dropEncoder s).pend = s.pend := rfl
@[simp] theorem dropEncoder_err (s : State) : (dropEncoder s).err = s.err := rfl
@[simp] theorem dropEncoder_ovr (s : State) : (dropEncoder s).ovr = s.ovr := rfl
@[simp] theorem dropEncoder_errcode (s : State) : (dropEncoder s).errcode = s.errcode := rfl
@[simp] theorem dropEncoder_errcmd (s : State) : (dropEncoder s).errcmd = s.errcmd := rfl
@[simp] theorem dropEncoder_arg (s : State) : (dropEncoder s).arg = s.arg := rfl
@[simp] theorem dropEncoder_result0 (s : State) : (dropEncoder s).result0 = s.result0 := rfl
@[simp] theorem dropEncoder_result1 (s : State) : (dropEncoder s).result1 = s.result1 := rfl
@[simp] theorem dropEncoder_tstate (s : State) : (dropEncoder s).tstate = s.tstate := rfl
@[simp] theorem dropEncoder_ft (s : State) : (dropEncoder s).ft = s.ft := rfl
@[simp] theorem dropEncoder_kind (s : State) : (dropEncoder s).kind = s.kind := rfl
@[simp] theorem dropEncoder_root (s : State) : (dropEncoder s).root = s.root := rfl
@[simp] theorem dropEncoder_nnodes (s : State) : (dropEncoder s).nnodes = s.nnodes := rfl
@[simp] theorem dropEncoder_nleaves (s : State) : (dropEncoder s).nleaves = s.nleaves := rfl
@[simp] theorem dropEncoder_arena (s : State) : (dropEncoder s).arena = s.arena := rfl
@[simp] theorem dropEncoder_ct (s : State) : (dropEncoder s).ct = s.ct := rfl
@[simp] theorem dropEncoder_estate (s : State) : (dropEncoder s).estate = .idle := rfl
@[simp] theorem dropEncoder_ebuf (s : State) : (dropEncoder s).ebuf = [] := rfl
@[simp] theorem dropEncoder_erp (s : State) : (dropEncoder s).erp = 0 := rfl
@[simp] theorem dropEncoder_dstate (s : State) : (dropEncoder s).dstate = s.dstate := rfl
@[simp] theorem dropEncoder_din (s : State) : (dropEncoder s).din = s.din := rfl
@[simp] theorem dropEncoder_dout (s : State) : (dropEncoder s).dout = s.dout := rfl
@[simp] theorem dropEncoder_drp (s : State) : (dropEncoder s).drp = s.drp := rfl
@[simp] theorem dropEncoder_arenaDraws (s : State) : (dropEncoder s).arenaDraws = s.arenaDraws := rfl
@[simp] theorem dropEncoder_cfg (s : State) : (dropEncoder s).cfg = s.cfg := rfl
@[simp] theorem dropEncoder_script (s : State) : (dropEncoder s).script = s.script := rfl
@[simp] theorem dropEncoder_reads (s : State) : (dropEncoder s).reads = s.reads := rfl

/-! `dropDecoder`: the decoder session. -/

@[simp] theorem dropDecoder_pend (s : State) : (dropDecoder s).pend = s.pend := rfl
@[simp] theorem dropDecoder_err (s : State) : (dropDecoder s).err = s.err := rfl
@[simp] theorem dropDecoder_ovr (s : State) : (dropDecoder s).ovr = s.ovr := rfl
@[simp] theorem dropDecoder_errcode (s : State) : (dropDecoder s).errcode = s.errcode := rfl
@[simp] theorem dropDecoder_errcmd (s : State) : (dropDecoder s).errcmd = s.errcmd := rfl
@[simp] theorem dropDecoder_arg (s : State) : (dropDecoder s).arg = s.arg := rfl
@[simp] theorem dropDecoder_result0 (s : State) : (dropDecoder s).result0 = s.result0 := rfl
@[simp] theorem dropDecoder_result1 (s : State) : (dropDecoder s).result1 = s.result1 := rfl
@[simp] theorem dropDecoder_tstate (s : State) : (dropDecoder s).tstate = s.tstate := rfl
@[simp] theorem dropDecoder_ft (s : State) : (dropDecoder s).ft = s.ft := rfl
@[simp] theorem dropDecoder_kind (s : State) : (dropDecoder s).kind = s.kind := rfl
@[simp] theorem dropDecoder_root (s : State) : (dropDecoder s).root = s.root := rfl
@[simp] theorem dropDecoder_nnodes (s : State) : (dropDecoder s).nnodes = s.nnodes := rfl
@[simp] theorem dropDecoder_nleaves (s : State) : (dropDecoder s).nleaves = s.nleaves := rfl
@[simp] theorem dropDecoder_arena (s : State) : (dropDecoder s).arena = s.arena := rfl
@[simp] theorem dropDecoder_ct (s : State) : (dropDecoder s).ct = s.ct := rfl
@[simp] theorem dropDecoder_estate (s : State) : (dropDecoder s).estate = s.estate := rfl
@[simp] theorem dropDecoder_ebuf (s : State) : (dropDecoder s).ebuf = s.ebuf := rfl
@[simp] theorem dropDecoder_erp (s : State) : (dropDecoder s).erp = s.erp := rfl
@[simp] theorem dropDecoder_dstate (s : State) : (dropDecoder s).dstate = .idle := rfl
@[simp] theorem dropDecoder_din (s : State) : (dropDecoder s).din = [] := rfl
@[simp] theorem dropDecoder_dout (s : State) : (dropDecoder s).dout = [] := rfl
@[simp] theorem dropDecoder_drp (s : State) : (dropDecoder s).drp = 0 := rfl
@[simp] theorem dropDecoder_arenaDraws (s : State) : (dropDecoder s).arenaDraws = s.arenaDraws := rfl
@[simp] theorem dropDecoder_cfg (s : State) : (dropDecoder s).cfg = s.cfg := rfl
@[simp] theorem dropDecoder_script (s : State) : (dropDecoder s).script = s.script := rfl
@[simp] theorem dropDecoder_reads (s : State) : (dropDecoder s).reads = s.reads := rfl

/-! `setResults`: RESULT0 and RESULT1. -/

@[simp] theorem setResults_pend (r0 r1 : Word) (s : State) : (setResults r0 r1 s).pend = s.pend := rfl
@[simp] theorem setResults_err (r0 r1 : Word) (s : State) : (setResults r0 r1 s).err = s.err := rfl
@[simp] theorem setResults_ovr (r0 r1 : Word) (s : State) : (setResults r0 r1 s).ovr = s.ovr := rfl
@[simp] theorem setResults_errcode (r0 r1 : Word) (s : State) : (setResults r0 r1 s).errcode = s.errcode := rfl
@[simp] theorem setResults_errcmd (r0 r1 : Word) (s : State) : (setResults r0 r1 s).errcmd = s.errcmd := rfl
@[simp] theorem setResults_arg (r0 r1 : Word) (s : State) : (setResults r0 r1 s).arg = s.arg := rfl
@[simp] theorem setResults_result0 (r0 r1 : Word) (s : State) : (setResults r0 r1 s).result0 = r0 := rfl
@[simp] theorem setResults_result1 (r0 r1 : Word) (s : State) : (setResults r0 r1 s).result1 = r1 := rfl
@[simp] theorem setResults_tstate (r0 r1 : Word) (s : State) : (setResults r0 r1 s).tstate = s.tstate := rfl
@[simp] theorem setResults_ft (r0 r1 : Word) (s : State) : (setResults r0 r1 s).ft = s.ft := rfl
@[simp] theorem setResults_kind (r0 r1 : Word) (s : State) : (setResults r0 r1 s).kind = s.kind := rfl
@[simp] theorem setResults_root (r0 r1 : Word) (s : State) : (setResults r0 r1 s).root = s.root := rfl
@[simp] theorem setResults_nnodes (r0 r1 : Word) (s : State) : (setResults r0 r1 s).nnodes = s.nnodes := rfl
@[simp] theorem setResults_nleaves (r0 r1 : Word) (s : State) : (setResults r0 r1 s).nleaves = s.nleaves := rfl
@[simp] theorem setResults_arena (r0 r1 : Word) (s : State) : (setResults r0 r1 s).arena = s.arena := rfl
@[simp] theorem setResults_ct (r0 r1 : Word) (s : State) : (setResults r0 r1 s).ct = s.ct := rfl
@[simp] theorem setResults_estate (r0 r1 : Word) (s : State) : (setResults r0 r1 s).estate = s.estate := rfl
@[simp] theorem setResults_ebuf (r0 r1 : Word) (s : State) : (setResults r0 r1 s).ebuf = s.ebuf := rfl
@[simp] theorem setResults_erp (r0 r1 : Word) (s : State) : (setResults r0 r1 s).erp = s.erp := rfl
@[simp] theorem setResults_dstate (r0 r1 : Word) (s : State) : (setResults r0 r1 s).dstate = s.dstate := rfl
@[simp] theorem setResults_din (r0 r1 : Word) (s : State) : (setResults r0 r1 s).din = s.din := rfl
@[simp] theorem setResults_dout (r0 r1 : Word) (s : State) : (setResults r0 r1 s).dout = s.dout := rfl
@[simp] theorem setResults_drp (r0 r1 : Word) (s : State) : (setResults r0 r1 s).drp = s.drp := rfl
@[simp] theorem setResults_arenaDraws (r0 r1 : Word) (s : State) : (setResults r0 r1 s).arenaDraws = s.arenaDraws := rfl
@[simp] theorem setResults_cfg (r0 r1 : Word) (s : State) : (setResults r0 r1 s).cfg = s.cfg := rfl
@[simp] theorem setResults_script (r0 r1 : Word) (s : State) : (setResults r0 r1 s).script = s.script := rfl
@[simp] theorem setResults_reads (r0 r1 : Word) (s : State) : (setResults r0 r1 s).reads = s.reads := rfl

/-! `encBeginOwn`: the encoder session. -/

@[simp] theorem encBeginOwn_pend (s : State) : (encBeginOwn s).pend = s.pend := rfl
@[simp] theorem encBeginOwn_err (s : State) : (encBeginOwn s).err = s.err := rfl
@[simp] theorem encBeginOwn_ovr (s : State) : (encBeginOwn s).ovr = s.ovr := rfl
@[simp] theorem encBeginOwn_errcode (s : State) : (encBeginOwn s).errcode = s.errcode := rfl
@[simp] theorem encBeginOwn_errcmd (s : State) : (encBeginOwn s).errcmd = s.errcmd := rfl
@[simp] theorem encBeginOwn_arg (s : State) : (encBeginOwn s).arg = s.arg := rfl
@[simp] theorem encBeginOwn_result0 (s : State) : (encBeginOwn s).result0 = s.result0 := rfl
@[simp] theorem encBeginOwn_result1 (s : State) : (encBeginOwn s).result1 = s.result1 := rfl
@[simp] theorem encBeginOwn_tstate (s : State) : (encBeginOwn s).tstate = s.tstate := rfl
@[simp] theorem encBeginOwn_ft (s : State) : (encBeginOwn s).ft = s.ft := rfl
@[simp] theorem encBeginOwn_kind (s : State) : (encBeginOwn s).kind = s.kind := rfl
@[simp] theorem encBeginOwn_root (s : State) : (encBeginOwn s).root = s.root := rfl
@[simp] theorem encBeginOwn_nnodes (s : State) : (encBeginOwn s).nnodes = s.nnodes := rfl
@[simp] theorem encBeginOwn_nleaves (s : State) : (encBeginOwn s).nleaves = s.nleaves := rfl
@[simp] theorem encBeginOwn_arena (s : State) : (encBeginOwn s).arena = s.arena := rfl
@[simp] theorem encBeginOwn_ct (s : State) : (encBeginOwn s).ct = s.ct := rfl
@[simp] theorem encBeginOwn_estate (s : State) : (encBeginOwn s).estate = .active := rfl
@[simp] theorem encBeginOwn_ebuf (s : State) : (encBeginOwn s).ebuf = [] := rfl
@[simp] theorem encBeginOwn_erp (s : State) : (encBeginOwn s).erp = 0 := rfl
@[simp] theorem encBeginOwn_dstate (s : State) : (encBeginOwn s).dstate = s.dstate := rfl
@[simp] theorem encBeginOwn_din (s : State) : (encBeginOwn s).din = s.din := rfl
@[simp] theorem encBeginOwn_dout (s : State) : (encBeginOwn s).dout = s.dout := rfl
@[simp] theorem encBeginOwn_drp (s : State) : (encBeginOwn s).drp = s.drp := rfl
@[simp] theorem encBeginOwn_arenaDraws (s : State) : (encBeginOwn s).arenaDraws = s.arenaDraws := rfl
@[simp] theorem encBeginOwn_cfg (s : State) : (encBeginOwn s).cfg = s.cfg := rfl
@[simp] theorem encBeginOwn_script (s : State) : (encBeginOwn s).script = s.script := rfl
@[simp] theorem encBeginOwn_reads (s : State) : (encBeginOwn s).reads = s.reads := rfl

/-! `encEndOwn`: the encoder session. -/

@[simp] theorem encEndOwn_pend (s : State) : (encEndOwn s).pend = s.pend := rfl
@[simp] theorem encEndOwn_err (s : State) : (encEndOwn s).err = s.err := rfl
@[simp] theorem encEndOwn_ovr (s : State) : (encEndOwn s).ovr = s.ovr := rfl
@[simp] theorem encEndOwn_errcode (s : State) : (encEndOwn s).errcode = s.errcode := rfl
@[simp] theorem encEndOwn_errcmd (s : State) : (encEndOwn s).errcmd = s.errcmd := rfl
@[simp] theorem encEndOwn_arg (s : State) : (encEndOwn s).arg = s.arg := rfl
@[simp] theorem encEndOwn_result0 (s : State) : (encEndOwn s).result0 = s.result0 := rfl
@[simp] theorem encEndOwn_result1 (s : State) : (encEndOwn s).result1 = s.result1 := rfl
@[simp] theorem encEndOwn_tstate (s : State) : (encEndOwn s).tstate = s.tstate := rfl
@[simp] theorem encEndOwn_ft (s : State) : (encEndOwn s).ft = s.ft := rfl
@[simp] theorem encEndOwn_kind (s : State) : (encEndOwn s).kind = s.kind := rfl
@[simp] theorem encEndOwn_root (s : State) : (encEndOwn s).root = s.root := rfl
@[simp] theorem encEndOwn_nnodes (s : State) : (encEndOwn s).nnodes = s.nnodes := rfl
@[simp] theorem encEndOwn_nleaves (s : State) : (encEndOwn s).nleaves = s.nleaves := rfl
@[simp] theorem encEndOwn_arena (s : State) : (encEndOwn s).arena = s.arena := rfl
@[simp] theorem encEndOwn_ct (s : State) : (encEndOwn s).ct = s.ct := rfl
@[simp] theorem encEndOwn_estate (s : State) : (encEndOwn s).estate = .done := rfl
@[simp] theorem encEndOwn_ebuf (s : State) : (encEndOwn s).ebuf = s.ebuf := rfl
@[simp] theorem encEndOwn_erp (s : State) : (encEndOwn s).erp = 0 := rfl
@[simp] theorem encEndOwn_dstate (s : State) : (encEndOwn s).dstate = s.dstate := rfl
@[simp] theorem encEndOwn_din (s : State) : (encEndOwn s).din = s.din := rfl
@[simp] theorem encEndOwn_dout (s : State) : (encEndOwn s).dout = s.dout := rfl
@[simp] theorem encEndOwn_drp (s : State) : (encEndOwn s).drp = s.drp := rfl
@[simp] theorem encEndOwn_arenaDraws (s : State) : (encEndOwn s).arenaDraws = s.arenaDraws := rfl
@[simp] theorem encEndOwn_cfg (s : State) : (encEndOwn s).cfg = s.cfg := rfl
@[simp] theorem encEndOwn_script (s : State) : (encEndOwn s).script = s.script := rfl
@[simp] theorem encEndOwn_reads (s : State) : (encEndOwn s).reads = s.reads := rfl

/-! `decBeginOwn`: the decoder session. -/

@[simp] theorem decBeginOwn_pend (s : State) : (decBeginOwn s).pend = s.pend := rfl
@[simp] theorem decBeginOwn_err (s : State) : (decBeginOwn s).err = s.err := rfl
@[simp] theorem decBeginOwn_ovr (s : State) : (decBeginOwn s).ovr = s.ovr := rfl
@[simp] theorem decBeginOwn_errcode (s : State) : (decBeginOwn s).errcode = s.errcode := rfl
@[simp] theorem decBeginOwn_errcmd (s : State) : (decBeginOwn s).errcmd = s.errcmd := rfl
@[simp] theorem decBeginOwn_arg (s : State) : (decBeginOwn s).arg = s.arg := rfl
@[simp] theorem decBeginOwn_result0 (s : State) : (decBeginOwn s).result0 = s.result0 := rfl
@[simp] theorem decBeginOwn_result1 (s : State) : (decBeginOwn s).result1 = s.result1 := rfl
@[simp] theorem decBeginOwn_tstate (s : State) : (decBeginOwn s).tstate = s.tstate := rfl
@[simp] theorem decBeginOwn_ft (s : State) : (decBeginOwn s).ft = s.ft := rfl
@[simp] theorem decBeginOwn_kind (s : State) : (decBeginOwn s).kind = s.kind := rfl
@[simp] theorem decBeginOwn_root (s : State) : (decBeginOwn s).root = s.root := rfl
@[simp] theorem decBeginOwn_nnodes (s : State) : (decBeginOwn s).nnodes = s.nnodes := rfl
@[simp] theorem decBeginOwn_nleaves (s : State) : (decBeginOwn s).nleaves = s.nleaves := rfl
@[simp] theorem decBeginOwn_arena (s : State) : (decBeginOwn s).arena = s.arena := rfl
@[simp] theorem decBeginOwn_ct (s : State) : (decBeginOwn s).ct = s.ct := rfl
@[simp] theorem decBeginOwn_estate (s : State) : (decBeginOwn s).estate = s.estate := rfl
@[simp] theorem decBeginOwn_ebuf (s : State) : (decBeginOwn s).ebuf = s.ebuf := rfl
@[simp] theorem decBeginOwn_erp (s : State) : (decBeginOwn s).erp = s.erp := rfl
@[simp] theorem decBeginOwn_dstate (s : State) : (decBeginOwn s).dstate = .active := rfl
@[simp] theorem decBeginOwn_din (s : State) : (decBeginOwn s).din = [] := rfl
@[simp] theorem decBeginOwn_dout (s : State) : (decBeginOwn s).dout = [] := rfl
@[simp] theorem decBeginOwn_drp (s : State) : (decBeginOwn s).drp = 0 := rfl
@[simp] theorem decBeginOwn_arenaDraws (s : State) : (decBeginOwn s).arenaDraws = s.arenaDraws := rfl
@[simp] theorem decBeginOwn_cfg (s : State) : (decBeginOwn s).cfg = s.cfg := rfl
@[simp] theorem decBeginOwn_script (s : State) : (decBeginOwn s).script = s.script := rfl
@[simp] theorem decBeginOwn_reads (s : State) : (decBeginOwn s).reads = s.reads := rfl

/-! `resetBlock`: all but the configuration and the steps to come. -/

@[simp] theorem resetBlock_pend (s : State) : (resetBlock s).pend = none := rfl
@[simp] theorem resetBlock_err (s : State) : (resetBlock s).err = false := rfl
@[simp] theorem resetBlock_ovr (s : State) : (resetBlock s).ovr = false := rfl
@[simp] theorem resetBlock_errcode (s : State) : (resetBlock s).errcode = .none := rfl
@[simp] theorem resetBlock_errcmd (s : State) : (resetBlock s).errcmd = 0 := rfl
@[simp] theorem resetBlock_arg (s : State) : (resetBlock s).arg = 0 := rfl
@[simp] theorem resetBlock_result0 (s : State) : (resetBlock s).result0 = 0 := rfl
@[simp] theorem resetBlock_result1 (s : State) : (resetBlock s).result1 = 0 := rfl
@[simp] theorem resetBlock_tstate (s : State) : (resetBlock s).tstate = .collect := rfl
@[simp] theorem resetBlock_ft (s : State) : (resetBlock s).ft = ftEmpty := rfl
@[simp] theorem resetBlock_kind (s : State) : (resetBlock s).kind = .none := rfl
@[simp] theorem resetBlock_root (s : State) : (resetBlock s).root = 0 := rfl
@[simp] theorem resetBlock_nnodes (s : State) : (resetBlock s).nnodes = 0 := rfl
@[simp] theorem resetBlock_nleaves (s : State) : (resetBlock s).nleaves = 0 := rfl
@[simp] theorem resetBlock_arena (s : State) : (resetBlock s).arena = [] := rfl
@[simp] theorem resetBlock_ct (s : State) : (resetBlock s).ct = ctEmpty := rfl
@[simp] theorem resetBlock_estate (s : State) : (resetBlock s).estate = .idle := rfl
@[simp] theorem resetBlock_ebuf (s : State) : (resetBlock s).ebuf = [] := rfl
@[simp] theorem resetBlock_erp (s : State) : (resetBlock s).erp = 0 := rfl
@[simp] theorem resetBlock_dstate (s : State) : (resetBlock s).dstate = .idle := rfl
@[simp] theorem resetBlock_din (s : State) : (resetBlock s).din = [] := rfl
@[simp] theorem resetBlock_dout (s : State) : (resetBlock s).dout = [] := rfl
@[simp] theorem resetBlock_drp (s : State) : (resetBlock s).drp = 0 := rfl
@[simp] theorem resetBlock_arenaDraws (s : State) : (resetBlock s).arenaDraws = s.arenaDraws + 1 := rfl
@[simp] theorem resetBlock_cfg (s : State) : (resetBlock s).cfg = s.cfg := rfl
@[simp] theorem resetBlock_script (s : State) : (resetBlock s).script = s.script := rfl
@[simp] theorem resetBlock_reads (s : State) : (resetBlock s).reads = [] := rfl

end Sys2Proof.Machine
end

