-- ==== Sys2Proof/Laws/Ops.lean ====
section
/-! SUPPORT. What the shared operations do: the internal memories, packing and stream bits, the engine's dispatch rule. -/

namespace Sys2Proof.Machine

/-! ### The internal memories -/

@[simp] theorem ftGet_ftSet_self (ft : FreqTable) (x : Symbol) (v : Count) : ftGet (ftSet ft x v) x = v := by
  simp [ftGet, ftSet]

@[simp] theorem ftGet_ftSet_ne (ft : FreqTable) {x y : Symbol} (v : Count) (h : x ≠ y) :
    ftGet (ftSet ft x v) y = ftGet ft y := by
  have hne : x.toNat ≠ y.toNat := fun e => h (BitVec.eq_of_toNat_eq e)
  simp [ftGet, ftSet, hne]

theorem ftGet_ftSet (ft : FreqTable) (x y : Symbol) (v : Count) :
    ftGet (ftSet ft x v) y = if x = y then v else ftGet ft y := by
  by_cases h : x = y
  · subst h; simp
  · simp [h]

@[simp] theorem ftGet_ftEmpty (x : Symbol) : ftGet ftEmpty x = 0 := by simp [ftGet, ftEmpty]

@[simp] theorem ctGet_ctSet_self (ct : CodeTable) (x : Symbol) (c : Bits) : ctGet (ctSet ct x c) x = some c := by
  simp [ctGet, ctSet]

@[simp] theorem ctGet_ctSet_ne (ct : CodeTable) {x y : Symbol} (c : Bits) (h : x ≠ y) :
    ctGet (ctSet ct x c) y = ctGet ct y := by
  have hne : x.toNat ≠ y.toNat := fun e => h (BitVec.eq_of_toNat_eq e)
  simp [ctGet, ctSet, hne]

theorem ctGet_ctSet (ct : CodeTable) (x y : Symbol) (c : Bits) :
    ctGet (ctSet ct x c) y = if x = y then some c else ctGet ct y := by
  by_cases h : x = y
  · subst h; simp
  · simp [h]

@[simp] theorem ctGet_ctEmpty (x : Symbol) : ctGet ctEmpty x = none := by simp [ctGet, ctEmpty]

/-- Two code tables that agree at every symbol are the same table. -/
theorem codeTable_ext {a b : CodeTable} (h : ∀ x, ctGet a x = ctGet b x) : a = b := by
  apply Vector.ext
  intro i hi
  simpa [ctGet, Nat.mod_eq_of_lt hi] using h (BitVec.ofNat 8 i)

/-- Two frequency tables that agree at every symbol are the same table. -/
theorem freqTable_ext {a b : FreqTable} (h : ∀ x, ftGet a x = ftGet b x) : a = b := by
  apply Vector.ext
  intro i hi
  simpa [ftGet, Nat.mod_eq_of_lt hi] using h (BitVec.ofNat 8 i)

@[simp] theorem mem_allSymbols (x : Symbol) : x ∈ allSymbols := by
  simp only [allSymbols, List.mem_map, List.mem_range, Config.numSymbols]
  exact ⟨x.toNat, x.isLt, by simp⟩

theorem nodup_allSymbols : allSymbols.Nodup := by
  refine List.Nodup.map_on ?_ List.nodup_range
  intro a ha b hb h
  simp only [List.mem_range, Config.numSymbols] at ha hb
  have := congrArg BitVec.toNat h
  simpa [BitVec.toNat_ofNat, Nat.mod_eq_of_lt, ha, hb] using this

@[simp] theorem length_allSymbols : allSymbols.length = 256 := by simp [allSymbols, Config.numSymbols]

/-- A listed arena entry reads as what was written there. -/
theorem nodeAt_of_getElem? {arena : List Node} {draw : Nat} {i : Index} {n : Node} (h : arena[i.toNat]? = some n) :
    nodeAt arena draw i = n := by
  simp [nodeAt, h]

/-! ### Packing -/

/-- Bit 31-i of a packed word is bit 32k+i of the string, 0 past its end (R66). -/
theorem getMsbD_packWord (b : Bits) (k : Nat) {i : Nat} (h : i < 32) :
    (packWord b k).getMsbD i = b.getD (32 * k + i) false := by
  simp [packWord, BitVec.getMsbD_ofFnBE, h]

@[simp] theorem length_streamBits (nm1 : BitVec 4) (data : BitVec 16) :
    (streamBits nm1 data).length = bitCount nm1 := by
  simp [streamBits]

/-- Element k of `bits(w)` is w[15-k] (R87). -/
theorem getElem?_streamBits (nm1 : BitVec 4) (data : BitVec 16) {k : Nat} (h : k < bitCount nm1) :
    (streamBits nm1 data)[k]? = some (data.getMsbD k) := by
  simp [streamBits, h]

theorem bitCount_pos (nm1 : BitVec 4) : 1 ≤ bitCount nm1 := by simp [bitCount]

theorem bitCount_le (nm1 : BitVec 4) : bitCount nm1 ≤ 16 := by
  have := nm1.isLt
  simp only [bitCount]
  omega

/-! ### The engine's dispatch rule -/

/-- While ERR = 1 a gated command is discarded (R100, R226). -/
theorem runGated_of_err {op : Opcode} {own : State → State} {s : State} (h : s.err = true) :
    runGated op own s = .next (retire s) := by
  simp [runGated, h]

/-- Out of phase, with ERR = 0, a gated command raises ILLEGAL_COMMAND (R102). -/
theorem runGated_of_outOfPhase {op : Opcode} {own : State → State} {s : State} (h : s.err = false)
    (hp : phaseOk op s = false) : runGated op own s = .next (retire (raise .illegalCommand s)) := by
  simp [runGated, h, hp]

/-- In phase, with ERR = 0, a gated command runs its own rule (R100). -/
theorem runGated_of_ok {op : Opcode} {own : State → State} {s : State} (h : s.err = false)
    (hp : phaseOk op s = true) : runGated op own s = .next (retire (own s)) := by
  simp [runGated, h, hp]

/-- Everything a gated command can do. -/
theorem runGated_cases {op : Opcode} {own : State → State} {s t : State} (h : runGated op own s = .next t) :
    (s.err = true ∧ t = retire s) ∨
    (s.err = false ∧ phaseOk op s = false ∧ t = retire (raise .illegalCommand s)) ∨
    (s.err = false ∧ phaseOk op s = true ∧ t = retire (own s)) := by
  unfold runGated at h
  injection h with h
  subst h
  by_cases he : s.err = true
  · exact .inl ⟨he, by simp [he]⟩
  · have he' : s.err = false := by simpa using he
    by_cases hp : phaseOk op s = true
    · exact .inr (.inr ⟨he', hp, by simp [he', hp]⟩)
    · exact .inr (.inl ⟨he', by simpa using hp, by simp [he', hp]⟩)

/-- Everything CLEAR and ACK can do. -/
theorem runAlways_cases {own : State → State} {s t : State} (h : runAlways own s = .next t) : t = retire (own s) := by
  unfold runAlways at h
  injection h with h
  exact h.symm

/-- Everything an illegal word can do. -/
theorem runIllegal_cases {s t : State} (h : runIllegal s = .next t) :
    (s.err = true ∧ t = retire s) ∨ (s.err = false ∧ t = retire (raise .illegalCommand s)) := by
  unfold runIllegal at h
  injection h with h
  subst h
  by_cases he : s.err = true
  · exact .inl ⟨he, by simp [he]⟩
  · exact .inr ⟨by simpa using he, by simp [he]⟩

end Sys2Proof.Machine
end

