-- ==== Sys2Proof/Laws/Exec.lean ====
section
/-! SUPPORT. Everything a command's completion and a machine step can do, once: the own rule of each command, `exec`,
the bus accesses, and `step`. Later proofs split on these and do not unfold the machine. -/

namespace Sys2Proof.Machine

/-! ### The commands' own rules -/

theorem countOwn_cases (sym : Symbol) (s : State) :
    (ftGet s.ft sym = Config.freqMax ∧ countOwn sym s = raise .capacityExceeded s) ∨
    (ftGet s.ft sym ≠ Config.freqMax ∧
      countOwn sym s = { s with ft := ftSet s.ft sym (ftGet s.ft sym + 1) }) := by
  by_cases h : ftGet s.ft sym = Config.freqMax
  · exact .inl ⟨h, by simp [countOwn, h]⟩
  · exact .inr ⟨h, by simp [countOwn, h]⟩

theorem setFreqOwn_cases (sym : Symbol) (s : State) :
    (s.arg = 0 ∧ setFreqOwn sym s = raise .invalidFrequency s) ∨
    (s.arg ≠ 0 ∧ setFreqOwn sym s = { s with ft := ftSet s.ft sym s.arg }) := by
  by_cases h : s.arg = 0
  · exact .inl ⟨h, if_pos h⟩
  · exact .inr ⟨h, if_neg h⟩

/-- RD_NODE writes the results and nothing else. -/
theorem rdNodeOwn_cases (idx : Index) (s : State) : ∃ r0 r1, rdNodeOwn idx s = setResults r0 r1 s := by
  by_cases h : idx < s.nnodes
  · exact ⟨_, _, if_pos h⟩
  · exact ⟨0, 0, if_neg h⟩

theorem encSymOwn_cases (sym : Symbol) (s : State) :
    (ctGet s.ct sym = none ∧ encSymOwn sym s = raise .unknownSymbol (dropEncoder s)) ∨
    (∃ c, ctGet s.ct sym = some c ∧ s.cfg.encCapBits.toNat < s.ebuf.length + c.length ∧
      encSymOwn sym s = raise .capacityExceeded (dropEncoder s)) ∨
    (∃ c, ctGet s.ct sym = some c ∧ s.ebuf.length + c.length ≤ s.cfg.encCapBits.toNat ∧
      encSymOwn sym s = { s with ebuf := s.ebuf ++ c }) := by
  cases hc : ctGet s.ct sym with
  | none => exact .inl ⟨rfl, by simp [encSymOwn, hc]⟩
  | some c =>
    by_cases h : s.cfg.encCapBits.toNat < s.ebuf.length + c.length
    · exact .inr (.inl ⟨c, rfl, h, by simp [encSymOwn, hc, h]⟩)
    · exact .inr (.inr ⟨c, rfl, by omega, by simp [encSymOwn, hc, h]⟩)

theorem decBitsOwn_cases (nm1 : BitVec 4) (data : BitVec 16) (s : State) :
    (s.cfg.decInCapBits.toNat < s.din.length + bitCount nm1 ∧
      decBitsOwn nm1 data s = raise .capacityExceeded (dropDecoder s)) ∨
    (s.din.length + bitCount nm1 ≤ s.cfg.decInCapBits.toNat ∧
      decBitsOwn nm1 data s = { s with din := s.din ++ streamBits nm1 data }) := by
  by_cases h : s.cfg.decInCapBits.toNat < s.din.length + bitCount nm1
  · exact .inl ⟨h, by simp [decBitsOwn, h]⟩
  · exact .inr ⟨by omega, by simp [decBitsOwn, h]⟩

/-- The length of a result is the length of its output. -/
theorem Decoded.length_eq {r : Decoded} {out : List Symbol} (h : r.output = some out) : r.length = out.length := by
  cases r with
  | malformed => cases h
  | symbols o => simp only [Decoded.output, Option.some.injEq] at h; subst h; rfl
  | copies n sym => simp only [Decoded.output, Option.some.injEq] at h; subst h; simp [Decoded.length]

theorem publish_cases (r : Decoded) (s : State) :
    (r.output = none ∧ publish r s = raise .malformedStream (dropDecoder s)) ∨
    (∃ out, r.output = some out ∧ s.cfg.decOutCapSyms.toNat < out.length ∧
      publish r s = raise .capacityExceeded (dropDecoder s)) ∨
    (∃ out, r.output = some out ∧ out.length ≤ s.cfg.decOutCapSyms.toNat ∧
      publish r s = { s with din := [], dout := out, drp := 0, dstate := .done }) := by
  cases hr : r.output with
  | none => exact .inl ⟨rfl, by simp [publish, hr]⟩
  | some out =>
    have hl := Decoded.length_eq hr
    by_cases h : s.cfg.decOutCapSyms.toNat < out.length
    · exact .inr (.inl ⟨out, rfl, h, by simp [publish, hr, hl, h]⟩)
    · exact .inr (.inr ⟨out, rfl, by omega, by simp [publish, hr, hl, h]⟩)

/-! ### exec -/

/-- The own rule of a command: what it does once the checks of R100 have passed. -/
def ownRule : Instr → State → State
  | .nop => id
  | .clear => clearBlock
  | .ack => acknowledge
  | .count sym => countOwn sym
  | .setFreq sym => setFreqOwn sym
  | .rdFreq sym => rdFreqOwn sym
  | .build => buildOwn
  | .rdNode idx => rdNodeOwn idx
  | .rdCode chunk sym => rdCodeOwn chunk sym
  | .encBegin => encBeginOwn
  | .encSym sym => encSymOwn sym
  | .encEnd => encEndOwn
  | .decBegin => decBeginOwn
  | .decBits nm1 data => decBitsOwn nm1 data
  | .decEnd => decEndOwn

/-- The two commands that run whatever ERR is (R226). -/
def runsOnError (i : Instr) : Prop := i = .clear ∨ i = .ack

/-- CLEAR and ACK run their own rule. -/
theorem exec_of_runsOnError {i : Instr} (h : runsOnError i) (s : State) : exec i s = runAlways (ownRule i) s := by
  rcases h with rfl | rfl <;> rfl

/-- Every other command is gated by ERR and by its phase. -/
theorem exec_of_gated {i : Instr} (h : ¬ runsOnError i) (s : State) :
    exec i s = runGated i.opcode (ownRule i) s := by
  cases i <;> first | rfl | exact absurd (by simp [runsOnError]) h

/-- Every command completes: no meaning faults or refuses (R237). -/
theorem exec_next (i : Instr) (s : State) : ∃ t, exec i s = .next t := by
  cases i <;> exact ⟨_, rfl⟩

/-- Everything a command's completion can do. -/
theorem exec_cases {i : Instr} {s t : State} (h : exec i s = .next t) :
    (runsOnError i ∧ t = retire (ownRule i s)) ∨
    (¬ runsOnError i ∧ s.err = true ∧ t = retire s) ∨
    (¬ runsOnError i ∧ s.err = false ∧ phaseOk i.opcode s = false ∧ t = retire (raise .illegalCommand s)) ∨
    (¬ runsOnError i ∧ s.err = false ∧ phaseOk i.opcode s = true ∧ t = retire (ownRule i s)) := by
  by_cases hr : runsOnError i
  · rw [exec_of_runsOnError hr] at h
    exact .inl ⟨hr, runAlways_cases h⟩
  · rw [exec_of_gated hr] at h
    rcases runGated_cases h with ⟨a, b⟩ | ⟨a, b, c⟩ | ⟨a, b, c⟩
    · exact .inr (.inl ⟨hr, a, b⟩)
    · exact .inr (.inr (.inl ⟨hr, a, b, c⟩))
    · exact .inr (.inr (.inr ⟨hr, a, b, c⟩))

/-! ### The bus -/

theorem encPop_cases (s : State) :
    (s.estate = .done ∧ s.erp < wordCount s.ebuf ∧
      encPop s = (packWord s.ebuf s.erp, { s with erp := s.erp + 1 })) ∨
    (¬ (s.estate = .done ∧ s.erp < wordCount s.ebuf) ∧ encPop s = (0, s)) := by
  by_cases h : s.estate = .done ∧ s.erp < wordCount s.ebuf
  · exact .inl ⟨h.1, h.2, by simp [encPop, h]⟩
  · exact .inr ⟨h, by simp only [encPop, h, if_false]⟩

theorem decPop_cases (s : State) :
    (∃ sym, s.dstate = .done ∧ s.dout[s.drp]? = some sym ∧
      decPop s = (symbolWord sym, { s with drp := s.drp + 1 })) ∨
    (¬ (s.dstate = .done ∧ s.drp < s.dout.length) ∧ decPop s = (0, s)) := by
  rcases Nat.lt_or_ge s.drp s.dout.length with hlt | hge
  · have hx : s.dout[s.drp]? = some s.dout[s.drp] := List.getElem?_eq_getElem hlt
    cases hd : s.dstate with
    | idle => exact .inr ⟨by simp, by simp [decPop, hd]⟩
    | active => exact .inr ⟨by simp, by simp [decPop, hd]⟩
    | done => exact .inl ⟨_, rfl, hx, by simp [decPop, hd, hx]⟩
  · have hx : s.dout[s.drp]? = none := List.getElem?_eq_none hge
    exact .inr ⟨fun h => by omega, by simp [decPop, hx]⟩

/-- A read changes at most one read pointer, and only of a completed session with data left, while nothing is pending
(R64). -/
theorem busRead_cases (r : Reg) (s : State) :
    (busRead r s).2 = s ∨
    (r = .encOut ∧ s.pend = none ∧ s.estate = .done ∧ s.erp < wordCount s.ebuf ∧
      (busRead r s).2 = { s with erp := s.erp + 1 }) ∨
    (r = .decOut ∧ s.pend = none ∧ s.dstate = .done ∧ s.drp < s.dout.length ∧
      (busRead r s).2 = { s with drp := s.drp + 1 }) := by
  by_cases hb : s.busy = true
  · left
    cases r <;> simp [busRead, busReadAlways, hb]
  · have hb' : s.busy = false := by simpa using hb
    have hp : s.pend = none := by simpa [State.busy] using hb'
    cases r with
    | encOut =>
      have e : busRead .encOut s = encPop s := by simp [busRead, busReadAlways, hb', busReadIdle]
      rw [e]
      rcases encPop_cases s with ⟨h1, h2, h3⟩ | ⟨-, h3⟩
      · exact .inr (.inl ⟨rfl, hp, h1, h2, by rw [h3]⟩)
      · exact .inl (by rw [h3])
    | decOut =>
      have e : busRead .decOut s = decPop s := by simp [busRead, busReadAlways, hb', busReadIdle]
      rw [e]
      rcases decPop_cases s with ⟨sym, h1, h2, h3⟩ | ⟨-, h3⟩
      · exact .inr (.inr ⟨rfl, hp, h1, (List.getElem?_eq_some_iff.1 h2).1, by rw [h3]⟩)
      · exact .inl (by rw [h3])
    | _ => left; simp [busRead, busReadAlways, hb', busReadIdle]

/-- A write makes a command pending, stores ARG, sets OVR, or does nothing (R62). -/
theorem busWrite_cases (r : Reg) (v : Word) (s : State) :
    (r = .cmd ∧ s.pend = none ∧ busWrite r v s = { s with pend := some v }) ∨
    (r = .arg ∧ s.pend = none ∧ busWrite r v s = { s with arg := v }) ∨
    ((r = .cmd ∨ r = .arg) ∧ s.pend ≠ none ∧ busWrite r v s = s.overrun) ∨
    (r ≠ .cmd ∧ r ≠ .arg ∧ busWrite r v s = s) := by
  cases hp : s.pend with
  | none => cases r <;> simp [busWrite, State.busy, hp]
  | some w => cases r <;> simp [busWrite, State.busy, hp]

/-- A host step that goes on is a read or a write of one register. -/
theorem hostStep_cases {a : Access} {s t : State} (h : hostStep a s = .next t) :
    (∃ addr bytes r, a = .read addr bytes ∧ route s.cfg addr bytes = .reg r ∧ t = hostRead r s) ∨
    (∃ addr bytes v r, a = .write addr bytes v ∧ route s.cfg addr bytes = .reg r ∧ t = busWrite r v s) := by
  cases a with
  | read addr bytes =>
    cases hr : route s.cfg addr bytes with
    | reg r => simp only [hostStep, hr] at h; injection h with h; exact .inl ⟨_, _, r, rfl, hr, h.symm⟩
    | outside => simp [hostStep, hr] at h
    | notWhole => simp [hostStep, hr] at h
  | write addr bytes v =>
    cases hr : route s.cfg addr bytes with
    | reg r => simp only [hostStep, hr] at h; injection h with h; exact .inr ⟨_, _, v, r, rfl, hr, h.symm⟩
    | outside => simp [hostStep, hr] at h
    | notWhole => simp [hostStep, hr] at h

/-! ### step -/

/-- `s` with the step about to be made taken off the script. -/
def State.advance (s : State) : State := { s with script := s.script.tail }

theorem advance_of_nil {s : State} (h : s.script = []) : s.advance = s := by
  cases s
  simp only at h
  subst h
  rfl

/-- On the engine's turn, a machine step is the engine's step. -/
theorem step_of_engineNext {s : State} (h : s.EngineNext) : step s = engineStep s.advance := by
  rcases h with h | ⟨rest, h⟩
  · rw [advance_of_nil h]
    simp [step, machineStep, h]
  · simp [step, machineStep, h, State.advance]

/-- Everything a machine step can do. -/
theorem step_cases {s t : State} (h : step s = .next t) :
    (s.EngineNext ∧ s.pend = none ∧ t = s.advance) ∨
    (∃ w i, s.EngineNext ∧ s.pend = some w ∧ decode w = some i ∧ exec i s.advance = .next t) ∨
    (∃ w, s.EngineNext ∧ s.pend = some w ∧ decode w = none ∧ runIllegal s.advance = .next t) ∨
    (∃ a rest, s.script = .host a :: rest ∧ hostStep a s.advance = .next t) ∨
    (∃ rest, s.script = .rst :: rest ∧ t = resetBlock s.advance) := by
  have engine : s.EngineNext → engineStep s.advance = .next t →
      (s.EngineNext ∧ s.pend = none ∧ t = s.advance) ∨
      (∃ w i, s.EngineNext ∧ s.pend = some w ∧ decode w = some i ∧ exec i s.advance = .next t) ∨
      (∃ w, s.EngineNext ∧ s.pend = some w ∧ decode w = none ∧ runIllegal s.advance = .next t) := by
    intro ht he
    have hpa : s.advance.pend = s.pend := rfl
    cases hp : s.pend with
    | none =>
      simp only [engineStep, hpa, hp] at he
      injection he with he
      exact .inl ⟨ht, rfl, he.symm⟩
    | some w =>
      simp only [engineStep, hpa, hp] at he
      cases hd : decode w with
      | some i => simp only [hd] at he; exact .inr (.inl ⟨w, i, ht, rfl, hd, he⟩)
      | none => simp only [hd] at he; exact .inr (.inr ⟨w, ht, rfl, hd, he⟩)
  match hs : s.script with
  | [] =>
    have ht : s.EngineNext := .inl hs
    rw [step_of_engineNext ht] at h
    rcases engine ht h with h | h | h
    · exact .inl h
    · exact .inr (.inl h)
    · exact .inr (.inr (.inl h))
  | .engine :: rest =>
    have ht : s.EngineNext := .inr ⟨rest, hs⟩
    rw [step_of_engineNext ht] at h
    rcases engine ht h with h | h | h
    · exact .inl h
    · exact .inr (.inl h)
    · exact .inr (.inr (.inl h))
  | .host a :: rest =>
    have ha : s.advance = { s with script := rest } := by simp [State.advance, hs]
    simp only [step, machineStep, hs] at h
    exact .inr (.inr (.inr (.inl ⟨a, rest, rfl, by rw [ha]; exact h⟩)))
  | .rst :: rest =>
    have ha : s.advance = { s with script := rest } := by simp [State.advance, hs]
    simp only [step, machineStep, hs] at h
    injection h with h
    exact .inr (.inr (.inr (.inr ⟨rest, rfl, by rw [ha]; exact h.symm⟩)))

end Sys2Proof.Machine
end

