-- ==== Sys2Proof/Laws/PerInstr.lean ====
section
/-! SUPPORT. A fact about every command as syntax, one lemma per constructor: its word carries its opcode in the field OPC
(spec/30_encoding.md R81, R88). -/

namespace Sys2Proof.Laws.OpcodeField

/-- The command is well formed, and bits [31:24] of its word are its opcode's code. -/
def Statement (i : Instr) : Prop := i.wellFormed = true ∧ opc (encode i) = i.opcode.code

theorem nop : Statement .nop := ⟨rfl, opc_encode _⟩
theorem clear : Statement .clear := ⟨rfl, opc_encode _⟩
theorem ack : Statement .ack := ⟨rfl, opc_encode _⟩
theorem count (sym : Symbol) : Statement (.count sym) := ⟨rfl, opc_encode _⟩
theorem setFreq (sym : Symbol) : Statement (.setFreq sym) := ⟨rfl, opc_encode _⟩
theorem rdFreq (sym : Symbol) : Statement (.rdFreq sym) := ⟨rfl, opc_encode _⟩
theorem build : Statement .build := ⟨rfl, opc_encode _⟩
theorem rdNode (idx : Index) : Statement (.rdNode idx) := ⟨rfl, opc_encode _⟩
theorem rdCode (chunk : BitVec 3) (sym : Symbol) : Statement (.rdCode chunk sym) := ⟨rfl, opc_encode _⟩
theorem encBegin : Statement .encBegin := ⟨rfl, opc_encode _⟩
theorem encSym (sym : Symbol) : Statement (.encSym sym) := ⟨rfl, opc_encode _⟩
theorem encEnd : Statement .encEnd := ⟨rfl, opc_encode _⟩
theorem decBegin : Statement .decBegin := ⟨rfl, opc_encode _⟩
theorem decBits (nm1 : BitVec 4) (data : BitVec 16) : Statement (.decBits nm1 data) := ⟨rfl, opc_encode _⟩
theorem decEnd : Statement .decEnd := ⟨rfl, opc_encode _⟩

end Sys2Proof.Laws.OpcodeField
end

