-- ==== Sys2Proof/Laws/Step.lean ====
section
/-! SUPPORT. What a command's own rule and a whole machine step leave, by shape: one constructor for each kind of update.
Claims about every step split on `stepShape` and `ownShape`. -/

namespace Sys2Proof.Machine

/-- A gated command that is in phase, with ERR = 0, runs its own rule (R100). -/
theorem exec_of_phase {i : Instr} {s : State} (hr : ¬ runsOnError i) (he : s.err = false)
    (hp : phaseOk i.opcode s = true) : exec i s = .next (retire (ownRule i s)) := by
  rw [exec_of_gated hr, runGated_of_ok he hp]

/-- What a command's own rule leaves of the state `s`. -/
inductive OwnShape (s : State) : Instr → State → Prop
  | nop : OwnShape s .nop s
  | clear : OwnShape s .clear (clearBlock s)
  | ack : OwnShape s .ack (acknowledge s)
  | table (i : Instr) (sym : Symbol) (v : Count) (hi : i = .count sym ∨ i = .setFreq sym) (hv : v ≠ 0) :
      OwnShape s i { s with ft := ftSet s.ft sym v }
  | tableError (i : Instr) (sym : Symbol) (c : ErrCode) (hi : i = .count sym ∨ i = .setFreq sym) (hc : c ≠ .none) :
      OwnShape s i (raise c s)
  | results (i : Instr) (r0 r1 : Word) (hi : i.opcode = .rdFreq ∨ i.opcode = .rdNode ∨ i.opcode = .rdCode) :
      OwnShape s i (setResults r0 r1 s)
  | build : OwnShape s .build (buildOwn s)
  | encBegin : OwnShape s .encBegin (encBeginOwn s)
  | encSym (sym : Symbol) (c : Bits) (hc : ctGet s.ct sym = some c)
      (hf : s.ebuf.length + c.length ≤ s.cfg.encCapBits.toNat) :
      OwnShape s (.encSym sym) { s with ebuf := s.ebuf ++ c }
  | encError (sym : Symbol) (c : ErrCode) (hc : c ≠ .none) : OwnShape s (.encSym sym) (raise c (dropEncoder s))
  | encEnd : OwnShape s .encEnd (encEndOwn s)
  | decBegin : OwnShape s .decBegin (decBeginOwn s)
  | decBits (n : BitVec 4) (d : BitVec 16) (hf : s.din.length + bitCount n ≤ s.cfg.decInCapBits.toNat) :
      OwnShape s (.decBits n d) { s with din := s.din ++ streamBits n d }
  | decEnd (out : List Symbol) (hf : out.length ≤ s.cfg.decOutCapSyms.toNat) :
      OwnShape s .decEnd { s with din := [], dout := out, drp := 0, dstate := .done }
  | decError (i : Instr) (c : ErrCode) (hi : i.opcode = .decBits ∨ i.opcode = .decEnd) (hc : c ≠ .none) :
      OwnShape s i (raise c (dropDecoder s))

theorem ownShape (i : Instr) (s : State) : OwnShape s i (ownRule i s) := by
  cases i with
  | nop => exact .nop
  | clear => exact .clear
  | ack => exact .ack
  | count sym =>
    rcases countOwn_cases sym s with ⟨_, e⟩ | ⟨h, e⟩ <;> simp only [ownRule, e]
    · exact .tableError _ sym _ (.inl rfl) (by decide)
    · refine .table _ sym _ (.inl rfl) (fun h0 => h ?_)
      have := congrArg (· - 1) h0
      simpa [Config.freqMax] using this
  | setFreq sym =>
    rcases setFreqOwn_cases sym s with ⟨_, e⟩ | ⟨h, e⟩ <;> simp only [ownRule, e]
    · exact .tableError _ sym _ (.inr rfl) (by decide)
    · exact .table _ sym _ (.inr rfl) h
  | rdFreq sym => exact .results _ _ _ (.inl rfl)
  | build => exact .build
  | rdNode idx =>
    obtain ⟨a, b, e⟩ := rdNodeOwn_cases idx s
    simp only [ownRule, e]
    exact .results _ _ _ (.inr (.inl rfl))
  | rdCode k x => exact .results _ _ _ (.inr (.inr rfl))
  | encBegin => exact .encBegin
  | encSym sym =>
    rcases encSymOwn_cases sym s with ⟨_, e⟩ | ⟨_, _, _, e⟩ | ⟨_, h1, h2, e⟩ <;> simp only [ownRule, e]
    · exact .encError _ _ (by decide)
    · exact .encError _ _ (by decide)
    · exact .encSym _ _ h1 h2
  | encEnd => exact .encEnd
  | decBegin => exact .decBegin
  | decBits n d =>
    rcases decBitsOwn_cases n d s with ⟨_, e⟩ | ⟨h, e⟩ <;> simp only [ownRule, e]
    · exact .decError _ _ (.inl rfl) (by decide)
    · exact .decBits _ _ h
  | decEnd =>
    rcases publish_cases (decodeStream s.node s.kind s.root s.din) s with ⟨_, e⟩ | ⟨_, _, _, e⟩ | ⟨_, h1, h2, e⟩ <;>
      simp only [ownRule, decEndOwn, e]
    · exact .decError _ _ (.inr rfl) (by decide)
    · exact .decError _ _ (.inr rfl) (by decide)
    · exact .decEnd _ h2

/-! ### The window -/

/-- An access that reaches a register is one word at a multiple of 4 inside the window (R61, R67). -/
theorem route_cases {c : Config} {addr bytes : Nat} {r : Reg} (h : route c addr bytes = .reg r) :
    ∃ off, addr = c.base + off ∧ bytes = 4 ∧ r = Reg.ofOffset off ∧ off < 0x80 ∧ off % 4 = 0 := by
  unfold route at h
  split at h
  · cases h
  · split at h
    · rename_i h1 h2
      injection h with h
      refine ⟨addr - c.base, by omega, h2.1, h.symm, ?_, h2.2⟩
      simp only [Config.window] at h1
      omega
    · cases h

/-- A word at a multiple of 4 inside the window reaches its register. -/
theorem route_word (c : Config) {off : Nat} (h : off < 0x80) (h4 : off % 4 = 0) :
    route c (c.base + off) 4 = .reg (Reg.ofOffset off) := by
  unfold route
  rw [if_neg (by simp only [Config.window]; omega), if_pos ⟨rfl, by rw [Nat.add_sub_cancel_left]; exact h4⟩,
    Nat.add_sub_cancel_left]

/-- An access faults exactly outside the window (R67, log entry 4). -/
theorem route_eq_outside {c : Config} {addr bytes : Nat} :
    route c addr bytes = .outside ↔ addr < c.base ∨ c.base + 0x80 ≤ addr := by
  unfold route
  by_cases h : addr < c.base ∨ c.base + Config.window ≤ addr
  · rw [if_pos h]
    exact iff_of_true rfl h
  · rw [if_neg h]
    refine iff_of_false ?_ h
    split <;> simp

/-- An access is refused exactly inside the window and not as a whole register (R61). -/
theorem route_eq_notWhole {c : Config} {addr bytes : Nat} :
    route c addr bytes = .notWhole ↔
      c.base ≤ addr ∧ addr < c.base + 0x80 ∧ (bytes ≠ 4 ∨ (addr - c.base) % 4 ≠ 0) := by
  have hw : Config.window = 0x80 := rfl
  unfold route
  by_cases h : addr < c.base ∨ c.base + Config.window ≤ addr
  · rw [if_pos h]
    exact iff_of_false (by simp) (by omega)
  · rw [if_neg h]
    by_cases h4 : bytes = 4 ∧ (addr - c.base) % 4 = 0
    · rw [if_pos h4]
      exact iff_of_false (by simp) (by omega)
    · rw [if_neg h4]
      exact iff_of_true rfl (by omega)

theorem ofOffset_eq_cmd {off : Nat} : Reg.ofOffset off = .cmd ↔ off = 0x08 := by
  constructor
  · intro h
    unfold Reg.ofOffset at h
    split at h <;> first | rfl | cases h
  · rintro rfl
    rfl

theorem ofOffset_eq_arg {off : Nat} : Reg.ofOffset off = .arg ↔ off = 0x14 := by
  constructor
  · intro h
    unfold Reg.ofOffset at h
    split at h <;> first | rfl | cases h
  · rintro rfl
    rfl

/-! ### The end of a run (R273) -/

/-- No host access is left before the next reset exactly when every one in the script stands after a reset. -/
theorem accessesBeforeReset_eq_nil {moves : List Move} :
    accessesBeforeReset moves = [] ↔
      ∀ before a after, moves = before ++ .host a :: after → Move.rst ∈ before := by
  induction moves with
  | nil => simp [accessesBeforeReset]
  | cons m ms ih =>
    cases m with
    | host a =>
      simp only [accessesBeforeReset, reduceCtorEq, false_iff, not_forall]
      exact ⟨[], a, ms, rfl, List.not_mem_nil⟩
    | rst =>
      simp only [accessesBeforeReset, true_iff]
      intro before a after h
      cases before with
      | nil => cases h
      | cons b bs => injection h with h; simp [← h]
    | engine =>
      rw [accessesBeforeReset, ih]
      constructor
      · intro H before a after h
        cases before with
        | nil => cases h
        | cons b bs => injection h with _ h; exact List.mem_cons_of_mem _ (H bs a after h)
      · intro H before a after h
        have := H (.engine :: before) a after (by rw [h]; rfl)
        simpa using this

/-! ### step -/

/-- What a machine step leaves of the state `s`. -/
inductive StepShape (s : State) : State → Prop
  | pass (h : s.EngineNext) (hp : s.pend = none) : StepShape s s.advance
  | always (i : Instr) (h : s.Completes i) (hr : runsOnError i) : StepShape s (retire (ownRule i s.advance))
  | discarded (h : s.EngineNext) (hp : s.pend ≠ none) (he : s.err = true) : StepShape s (retire s.advance)
  | illegal (h : s.EngineNext) (hp : s.pend ≠ none) (he : s.err = false) :
      StepShape s (retire (raise .illegalCommand s.advance))
  | ran (i : Instr) (h : s.Completes i) (hr : ¬ runsOnError i) (he : s.err = false) (hp : phaseOk i.opcode s = true) :
      StepShape s (retire (ownRule i s.advance))
  | read (v : List Word) : StepShape s { s.advance with reads := v }
  | encPop (v : List Word) (hd : s.estate = .done) (hl : s.erp < wordCount s.ebuf) :
      StepShape s { s.advance with reads := v, erp := s.erp + 1 }
  | decPop (v : List Word) (hd : s.dstate = .done) (hl : s.drp < s.dout.length) :
      StepShape s { s.advance with reads := v, drp := s.drp + 1 }
  | cmd (v : Word) (h : s.HostWrites 0x08 v) (hp : s.pend = none) : StepShape s { s.advance with pend := some v }
  | arg (v : Word) (h : s.HostWrites 0x14 v) (hp : s.pend = none) : StepShape s { s.advance with arg := v }
  | dropped (h : ∃ v, s.HostWrites 0x08 v ∨ s.HostWrites 0x14 v) (hp : s.pend ≠ none) : StepShape s s.advance.overrun
  | ignored : StepShape s s.advance
  | rst (h : s.ResetsNext) : StepShape s (resetBlock s.advance)

theorem stepShape {s t : State} (h : step s = .next t) : StepShape s t := by
  rcases step_cases h with ⟨a, b, rfl⟩ | ⟨w, i, h1, h2, h3, h4⟩ | ⟨w, h1, h2, h3, h4⟩ | ⟨a, r, h1, h2⟩ | ⟨r, h1, rfl⟩
  · exact .pass a b
  · have hw : s.pend ≠ none := by rw [h2]; simp
    rcases exec_cases h4 with ⟨hr, rfl⟩ | ⟨_, he, rfl⟩ | ⟨_, he, _, rfl⟩ | ⟨hr, he, hp, rfl⟩
    · exact .always i ⟨h1, w, h2, h3⟩ hr
    · exact .discarded h1 hw he
    · exact .illegal h1 hw he
    · exact .ran i ⟨h1, w, h2, h3⟩ hr he (by cases i <;> exact hp)
  · have hw : s.pend ≠ none := by rw [h2]; simp
    rcases runIllegal_cases h4 with ⟨he, rfl⟩ | ⟨he, rfl⟩
    · exact .discarded h1 hw he
    · exact .illegal h1 hw he
  · rcases hostStep_cases h2 with ⟨_, _, r, rfl, hr, rfl⟩ | ⟨_, _, v, r, rfl, hr, rfl⟩
    · rcases busRead_cases r s.advance with e | ⟨_, _, h5, h6, e⟩ | ⟨_, _, h5, h6, e⟩
      · have : hostRead r s.advance = { s.advance with reads := (hostRead r s.advance).reads } := by
          simp only [hostRead, e]
        rw [this]
        exact .read _
      · have : hostRead r s.advance = { s.advance with reads := (hostRead r s.advance).reads, erp := s.erp + 1 } := by
          simp only [hostRead, e]
          rfl
        rw [this]
        exact .encPop _ h5 h6
      · have : hostRead r s.advance = { s.advance with reads := (hostRead r s.advance).reads, drp := s.drp + 1 } := by
          simp only [hostRead, e]
          rfl
        rw [this]
        exact .decPop _ h5 h6
    · obtain ⟨off, rfl, rfl, rfl, _, _⟩ := route_cases hr
      rcases busWrite_cases (Reg.ofOffset off) v s.advance with ⟨h6, h5, e⟩ | ⟨h6, h5, e⟩ | ⟨h6, h5, e⟩ | ⟨_, _, e⟩ <;>
        rw [e]
      · rw [ofOffset_eq_cmd] at h6
        subst h6
        exact .cmd v ⟨_, h1⟩ h5
      · rw [ofOffset_eq_arg] at h6
        subst h6
        exact .arg v ⟨_, h1⟩ h5
      · refine .dropped ⟨v, ?_⟩ h5
        rcases h6 with h6 | h6
        · rw [ofOffset_eq_cmd] at h6
          subst h6
          exact .inl ⟨_, h1⟩
        · rw [ofOffset_eq_arg] at h6
          subst h6
          exact .inr ⟨_, h1⟩
      · exact .ignored
  · exact .rst ⟨_, h1⟩

end Sys2Proof.Machine
end

