-- ==== Sys2Proof/Laws/Tree.lean ====
section
/-! SUPPORT. What the Code Tree Builder, the Code Table Generator and the decoder's walk do: the arena BUILD leaves holds
one tree over the symbols that have an entry (R141, R144); the code table records its paths (R143); the walk follows
them (R193). -/

namespace Sys2Proof.Machine

/-- A code tree as a term: what the arena holds from a root down. -/
inductive CodeTree where
  | leaf (sym : Symbol)
  | node (left right : CodeTree)

namespace CodeTree

/-- The symbols of the leaves, left to right. -/
def leaves : CodeTree → List Symbol
  | leaf sym => [sym]
  | node l r => l.leaves ++ r.leaves

/-- Each leaf's symbol with its path from the root, below the path `p`. -/
def paths : CodeTree → Bits → List (Symbol × Bits)
  | leaf sym, p => [(sym, p)]
  | node l r, p => l.paths (p ++ [false]) ++ r.paths (p ++ [true])

/-- The sum of the counts of the leaves. -/
def weight (ft : FreqTable) : CodeTree → Nat
  | leaf sym => (ftGet ft sym).toNat
  | node l r => l.weight ft + r.weight ft

theorem length_leaves_pos (t : CodeTree) : 1 ≤ t.leaves.length := by
  induction t with
  | leaf => simp [leaves]
  | node l r hl hr => simp only [leaves, List.length_append]; omega

@[simp] theorem map_fst_paths (t : CodeTree) (p : Bits) : (t.paths p).map Prod.fst = t.leaves := by
  induction t generalizing p with
  | leaf => simp [paths, leaves]
  | node l r hl hr => simp [paths, leaves, hl, hr]

end CodeTree

/-- `Holds ft arena i t`: from index `i` down, the arena holds the tree `t`, each record with the frequency the rules give
it and each child below its parent. -/
inductive Holds (ft : FreqTable) (arena : List Node) : Index → CodeTree → Prop
  | leaf {i : Index} {sym : Symbol} (h : arena[i.toNat]? = some (leafOf ft sym)) : Holds ft arena i (.leaf sym)
  | node {i l r : Index} {f : NodeFreq} {tl tr : CodeTree} (h : arena[i.toNat]? = some (.internal f l r))
      (hl : l < i) (hr : r < i) (left : Holds ft arena l tl) (right : Holds ft arena r tr)
      (hf : f.toNat = tl.weight ft + tr.weight ft) : Holds ft arena i (.node tl tr)

theorem getElem?_append_of_some {α : Type} {xs : List α} {i : Nat} {x : α} (h : xs[i]? = some x) (ys : List α) :
    (xs ++ ys)[i]? = some x := by
  have hi : i < xs.length := by
    rcases Nat.lt_or_ge i xs.length with h' | h'
    · exact h'
    · rw [List.getElem?_eq_none h'] at h; cases h
  rw [List.getElem?_append_left hi, h]

/-- Appending records to the arena keeps the trees it holds. -/
theorem Holds.append {ft : FreqTable} {arena : List Node} {i : Index} {t : CodeTree} (h : Holds ft arena i t)
    (more : List Node) : Holds ft (arena ++ more) i t := by
  induction h with
  | leaf h => exact .leaf (getElem?_append_of_some h more)
  | node h hl hr _ _ hf ihl ihr => exact .node (getElem?_append_of_some h more) hl hr ihl ihr hf

/-- The record at the root of a held tree carries the tree's weight. -/
theorem Holds.record {ft : FreqTable} {arena : List Node} {i : Index} {t : CodeTree} (h : Holds ft arena i t) :
    ∃ n, arena[i.toNat]? = some n ∧ (nodeFreq n).toNat = t.weight ft := by
  cases h with
  | leaf h =>
    refine ⟨_, h, ?_⟩
    simp only [nodeFreq, leafOf, CodeTree.weight, BitVec.truncate_eq_setWidth, BitVec.toNat_setWidth]
    have := (ftGet ft ‹_›).isLt
    exact Nat.mod_eq_of_lt (by omega)
  | node h _ _ _ _ hf => exact ⟨_, h, hf⟩

/-! ### The priority queue -/

theorem least_mem (a : QEntry) (q : List QEntry) : least a q ∈ a :: q := by
  induction q generalizing a with
  | nil => simp [least]
  | cons b q ih =>
    simp only [least]
    by_cases h : b.before a = true
    · simp only [h, if_true]
      have := ih b
      exact List.mem_cons_of_mem _ this
    · simp only [h]
      have := ih a
      rcases List.mem_cons.1 this with e | e
      · simp [e]
      · simp [e]

/-- Taking the least element away leaves the rest of the queue. -/
theorem popLeast_perm {q q' : List QEntry} {a : QEntry} (h : popLeast q = some (a, q')) : q.Perm (a :: q') := by
  cases q with
  | nil => simp [popLeast] at h
  | cons x xs =>
    simp only [popLeast, Option.some.injEq, Prod.mk.injEq] at h
    obtain ⟨rfl, rfl⟩ := h
    exact List.perm_cons_erase (least_mem x xs)

theorem popLeast_eq_none {q : List QEntry} : popLeast q = none ↔ q = [] := by
  cases q <;> simp [popLeast]

theorem before_iff (a b : QEntry) :
    a.before b = true ↔ a.freq.toNat < b.freq.toNat ∨ (a.freq.toNat = b.freq.toNat ∧ a.idx.toNat < b.idx.toNat) := by
  simp [QEntry.before, BitVec.lt_def, ← BitVec.toNat_inj]

/-- No element of a queue comes before its least one (R142). -/
theorem least_le (a : QEntry) (q : List QEntry) : ∀ b ∈ a :: q, b.before (least a q) = false := by
  induction q generalizing a with
  | nil =>
    intro b hb
    simp only [List.mem_singleton] at hb
    subst hb
    rw [Bool.eq_false_iff]
    intro h
    rw [before_iff] at h
    simp only [least] at h
    omega
  | cons c q ih =>
    intro b hb
    simp only [least]
    by_cases hc : c.before a = true
    · simp only [hc, if_true]
      rcases List.mem_cons.1 hb with rfl | hb
      · have h1 := ih c c (by simp)
        rw [Bool.eq_false_iff] at h1 ⊢
        intro h2
        apply h1
        rw [before_iff] at *
        omega
      · exact ih c b hb
    · simp only [hc]
      rcases List.mem_cons.1 hb with rfl | hb
      · exact ih _ _ (by simp)
      · rcases List.mem_cons.1 hb with rfl | hb
        · have h1 := ih a a (by simp)
          have hc' : b.before a = false := by simpa using hc
          rw [Bool.eq_false_iff] at h1 hc' ⊢
          intro h2
          simp only [Bool.false_eq_true, if_false] at h2
          rw [ne_eq, before_iff] at h1 hc'
          rw [before_iff] at h2
          omega
        · exact ih a b (by simp [hb])

/-- The element taken is least under R142: no other comes before it. -/
theorem popLeast_le {q q' : List QEntry} {a : QEntry} (h : popLeast q = some (a, q')) :
    ∀ b ∈ q, b.before a = false := by
  cases q with
  | nil => simp [popLeast] at h
  | cons x xs =>
    simp only [popLeast, Option.some.injEq, Prod.mk.injEq] at h
    obtain ⟨rfl, rfl⟩ := h
    exact least_le x xs

/-! ### The merge loop (R141) -/

theorem CodeTree.weight_le (ft : FreqTable) (t : CodeTree) : t.weight ft ≤ t.leaves.length * (2 ^ 32 - 1) := by
  induction t with
  | leaf sym =>
    have := (ftGet ft sym).isLt
    simp only [weight, leaves, List.length_singleton]
    omega
  | node l r hl hr => simp only [weight, leaves, List.length_append]; omega

/-- The arena's indices, ascending. -/
def indicesBelow (n : Nat) : List Index := (List.range n).map (BitVec.ofNat 9)

/-- Every internal node merges the two nodes that were least under R142 among those no earlier node had taken, the lesser
of them on the left, and its frequency is their exact sum (R141, R142, R149). -/
def MergedInOrder (arena : List Node) : Prop :=
  ∀ k f l r, arena[k]? = some (.internal f l r) → ∃ nl nr,
    arena[l.toNat]? = some nl ∧ arena[r.toNat]? = some nr ∧ l.toNat < k ∧ r.toNat < k ∧
    l ∉ childrenOf (arena.take k) ∧ r ∉ childrenOf (arena.take k) ∧
    f.toNat = (nodeFreq nl).toNat + (nodeFreq nr).toNat ∧ QEntry.before ⟨nodeFreq nl, l⟩ ⟨nodeFreq nr, r⟩ = true ∧
    ∀ j n, arena[j.toNat]? = some n → j.toNat < k → j ∉ childrenOf (arena.take k) → j ≠ l → j ≠ r →
      QEntry.before ⟨nodeFreq nr, r⟩ ⟨nodeFreq n, j⟩ = true

/-- What holds at every turn of the merge loop: each queue element is the root of a tree the arena holds, the trees' leaves
are the symbols of `l`, every index is either in the queue or the child of exactly one node, and the merges
were in order. -/
structure MergeInv (ft : FreqTable) (l : List Symbol) (arena : List Node) (q : List QEntry) : Prop where
  forest : ∃ f : List (QEntry × CodeTree), (f.map Prod.fst).Perm q ∧
    (∀ p ∈ f, Holds ft arena p.1.idx p.2 ∧ p.1.freq.toNat = p.2.weight ft) ∧
    (f.flatMap fun p => p.2.leaves).Perm l
  indices : (q.map QEntry.idx ++ childrenOf arena).Perm (indicesBelow arena.length)
  ordered : MergedInOrder arena

theorem toNat_ofNat9 {n : Nat} (h : n < 512) : (BitVec.ofNat 9 n).toNat = n := by
  simp [Nat.mod_eq_of_lt h]

theorem nodup_indicesBelow {n : Nat} (h : n ≤ 512) : (indicesBelow n).Nodup := by
  refine List.Nodup.map_on ?_ List.nodup_range
  intro a ha b hb e
  simp only [List.mem_range] at ha hb
  have := congrArg BitVec.toNat e
  rwa [toNat_ofNat9 (by omega), toNat_ofNat9 (by omega)] at this

theorem childrenOf_append (a b : List Node) : childrenOf (a ++ b) = childrenOf a ++ childrenOf b := by
  simp [childrenOf]

theorem indicesBelow_succ (n : Nat) : indicesBelow (n + 1) = indicesBelow n ++ [BitVec.ofNat 9 n] := by
  simp [indicesBelow, List.range_succ]

theorem mem_indicesBelow {n : Nat} {i : Index} (h : i ∈ indicesBelow n) : i.toNat < n := by
  simp only [indicesBelow, List.mem_map, List.mem_range] at h
  obtain ⟨k, hk, rfl⟩ := h
  have := Nat.mod_le k (2 ^ 9)
  simp only [BitVec.toNat_ofNat]
  omega

/-- A forest over a queue splits where the queue does. -/
theorem forest_split {f : List (QEntry × CodeTree)} {a : QEntry} {q : List QEntry}
    (h : (f.map Prod.fst).Perm (a :: q)) : ∃ t g, f.Perm ((a, t) :: g) ∧ (g.map Prod.fst).Perm q := by
  have ha : a ∈ f.map Prod.fst := h.symm.subset (by simp)
  obtain ⟨⟨a', t⟩, hm, rfl⟩ := List.mem_map.1 ha
  obtain ⟨x, y, rfl⟩ := List.append_of_mem hm
  refine ⟨t, x ++ y, List.perm_middle, ?_⟩
  have h2 : ((x ++ (a', t) :: y).map Prod.fst).Perm (a' :: (x ++ y).map Prod.fst) := by
    simp [List.perm_middle]
  exact List.Perm.cons_inv (h2.symm.trans h)

theorem mergeInv_step {ft : FreqTable} {l : List Symbol} {arena : List Node} {q q₁ q₂ : List QEntry} {a b : QEntry}
    (inv : MergeInv ft l arena q) (hl : l.length ≤ 256) (hlen : arena.length < 511)
    (ha : popLeast q = some (a, q₁)) (hb : popLeast q₁ = some (b, q₂)) :
    MergeInv ft l (arena ++ [.internal (a.freq + b.freq) a.idx b.idx])
      (q₂ ++ [⟨a.freq + b.freq, BitVec.ofNat 9 arena.length⟩]) := by
  have hqa := popLeast_perm ha
  have hqb := popLeast_perm hb
  have hq : q.Perm (a :: b :: q₂) := hqa.trans (hqb.cons a)
  obtain ⟨f, hf, hholds, hleaves⟩ := inv.forest
  obtain ⟨ta, g, hg, hgq⟩ := forest_split (hf.trans hq)
  obtain ⟨tb, g', hg', hgq'⟩ := forest_split hgq
  have hperm : f.Perm ((a, ta) :: (b, tb) :: g') := hg.trans (hg'.cons _)
  obtain ⟨hHa, hWa⟩ := hholds (a, ta) (hperm.symm.subset (by simp))
  obtain ⟨hHb, hWb⟩ := hholds (b, tb) (hperm.symm.subset (by simp))
  simp only at hHa hWa hHb hWb
  have hl' : ((a, ta) :: (b, tb) :: g').flatMap (fun p => p.2.leaves) |>.Perm l :=
    (hperm.flatMap_right _).symm.trans hleaves
  simp only [List.flatMap_cons] at hl'
  have hcount : ta.leaves.length + tb.leaves.length ≤ 256 := by
    have := hl'.length_eq
    simp only [List.length_append] at this
    omega
  have hidx := inv.indices
  have hidx' : ((a.idx :: b.idx :: q₂.map QEntry.idx) ++ childrenOf arena).Perm (indicesBelow arena.length) := by
    refine List.Perm.trans ?_ hidx
    exact ((hq.map QEntry.idx).symm).append_right _
  have haidx : a.idx.toNat < arena.length := mem_indicesBelow (hidx'.subset (by simp))
  have hbidx : b.idx.toNat < arena.length := mem_indicesBelow (hidx'.subset (by simp))
  have hne : a.idx ≠ b.idx := by
    have := hidx'.symm.nodup (nodup_indicesBelow (by omega))
    simp only [List.cons_append, List.nodup_cons, List.mem_cons] at this
    exact fun e => this.1 (.inl e)
  have hsum : (a.freq + b.freq).toNat = ta.weight ft + tb.weight ft := by
    have h1 := ta.weight_le ft
    have h2 := tb.weight_le ft
    rw [BitVec.toNat_add, hWa, hWb, Nat.mod_eq_of_lt]
    have : (ta.leaves.length + tb.leaves.length) * (2 ^ 32 - 1) ≤ 256 * (2 ^ 32 - 1) := Nat.mul_le_mul_right _ hcount
    omega
  have hnew : (BitVec.ofNat 9 arena.length).toNat = arena.length := toNat_ofNat9 (by omega)
  refine ⟨⟨g' ++ [(⟨a.freq + b.freq, BitVec.ofNat 9 arena.length⟩, .node ta tb)], ?_, ?_, ?_⟩, ?_, ?_⟩
  · simpa using hgq'.append_right _
  · intro p hp
    rcases List.mem_append.1 hp with hp | hp
    · obtain ⟨h1, h2⟩ := hholds p (hperm.symm.subset (by simp [hp]))
      exact ⟨h1.append _, h2⟩
    · simp only [List.mem_singleton] at hp
      subst hp
      refine ⟨.node (f := a.freq + b.freq) (l := a.idx) (r := b.idx) ?_ ?_ ?_ (hHa.append _) (hHb.append _) hsum, ?_⟩
      · simp [hnew]
      · rw [BitVec.lt_def, hnew]; exact haidx
      · rw [BitVec.lt_def, hnew]; exact hbidx
      · simpa [CodeTree.weight] using hsum
  · simp only [List.flatMap_append, List.flatMap_cons, List.flatMap_nil, List.append_nil, CodeTree.leaves]
    refine List.Perm.trans ?_ hl'
    refine List.perm_append_comm.trans ?_
    simp
  · simp only [childrenOf_append, List.map_append, List.map_cons, List.map_nil, List.length_append, List.length_singleton,
      indicesBelow_succ]
    have h3 : childrenOf [Node.internal (a.freq + b.freq) a.idx b.idx] = [a.idx, b.idx] := rfl
    rw [h3]
    refine List.Perm.trans ?_ (hidx'.append_right _)
    simp only [List.cons_append, List.append_assoc]
    rw [List.perm_iff_count]
    intro x
    simp only [List.count_append, List.count_cons, List.count_nil]
    omega
  · have htake : (arena ++ [Node.internal (a.freq + b.freq) a.idx b.idx]).take arena.length = arena := by simp
    have hnd := hidx'.symm.nodup (nodup_indicesBelow (by omega))
    intro k f' l' r' hk
    rcases Nat.lt_or_ge k arena.length with hlt | hge
    · rw [List.getElem?_append_left hlt] at hk
      obtain ⟨nl, nr, h1, h2, h3, h4, h5, h6, h7, h8, h9⟩ := inv.ordered k f' l' r' hk
      have htk : (arena ++ [Node.internal (a.freq + b.freq) a.idx b.idx]).take k = arena.take k := by
        rw [List.take_append_of_le_length (by omega)]
      rw [htk]
      refine ⟨nl, nr, getElem?_append_of_some h1 _, getElem?_append_of_some h2 _, h3, h4, h5, h6, h7, h8, ?_⟩
      intro j n hj hjk
      rw [List.getElem?_append_left (by omega)] at hj
      exact h9 j n hj hjk
    · have hkeq : k = arena.length := by
        have := (List.getElem?_eq_some_iff.1 hk).1
        simp only [List.length_append, List.length_singleton] at this
        omega
      subst hkeq
      simp only [List.getElem?_concat_length, Option.some.injEq, Node.internal.injEq] at hk
      obtain ⟨rfl, rfl, rfl⟩ := hk
      rw [htake]
      obtain ⟨na, hna, hna'⟩ := hHa.record
      obtain ⟨nb, hnb, hnb'⟩ := hHb.record
      have ea : nodeFreq na = a.freq := BitVec.eq_of_toNat_eq (by omega)
      have eb : nodeFreq nb = b.freq := BitVec.eq_of_toNat_eq (by omega)
      have hnd' : a.idx ∉ childrenOf arena ∧ b.idx ∉ childrenOf arena := by
        simp only [List.cons_append, List.nodup_cons, List.mem_cons, List.mem_append, not_or] at hnd
        exact ⟨hnd.1.2.2, hnd.2.1.2⟩
      refine ⟨na, nb, getElem?_append_of_some hna _, getElem?_append_of_some hnb _, haidx, hbidx, hnd'.1, hnd'.2,
        by rw [hsum, ea, eb, hWa, hWb], ?_, ?_⟩
      · rw [ea, eb]
        have hle := popLeast_le ha b (hqa.symm.subset (List.mem_cons_of_mem _ (hqb.symm.subset (by simp))))
        rw [before_iff]
        rw [Bool.eq_false_iff, ne_eq, before_iff] at hle
        have : a.idx.toNat ≠ b.idx.toNat := fun e => hne (BitVec.eq_of_toNat_eq e)
        simp only
        omega
      · intro j n hj hjk hjc hja hjb
        rw [List.getElem?_append_left hjk] at hj
        have hmem : j ∈ (a.idx :: b.idx :: q₂.map QEntry.idx) ++ childrenOf arena := by
          refine hidx'.symm.subset ?_
          simp only [indicesBelow, List.mem_map, List.mem_range]
          exact ⟨j.toNat, hjk, by simp⟩
        have hj2 : j ∈ q₂.map QEntry.idx := by
          simp only [List.cons_append, List.mem_cons, List.mem_append] at hmem
          rcases hmem with h | h | h | h
          · exact absurd h hja
          · exact absurd h hjb
          · exact h
          · exact absurd h hjc
        obtain ⟨c, hc, rfl⟩ := List.mem_map.1 hj2
        have hcg : c ∈ g'.map Prod.fst := hgq'.symm.subset hc
        obtain ⟨⟨c', tc⟩, hm, rfl⟩ := List.mem_map.1 hcg
        obtain ⟨hHc, hWc⟩ := hholds (c', tc) (hperm.symm.subset (by simp [hm]))
        simp only at hHc hWc hj hjb hc
        obtain ⟨n', hn', hnw⟩ := hHc.record
        rw [hj] at hn'
        injection hn' with hn'
        subst hn'
        have ec : nodeFreq n = c'.freq := BitVec.eq_of_toNat_eq (by omega)
        rw [eb, ec]
        have hle := popLeast_le hb c' (hqb.symm.subset (List.mem_cons_of_mem _ hc))
        rw [before_iff]
        rw [Bool.eq_false_iff, ne_eq, before_iff] at hle
        have : c'.idx.toNat ≠ b.idx.toNat := fun e => hjb (BitVec.eq_of_toNat_eq e)
        simp only
        omega

/-- What the merge loop leaves: n-1 more records, and the last of them, or the one queue element, is the root of a tree
over all the symbols. -/
theorem mergeLoop_spec {ft : FreqTable} {l : List Symbol} (hl : l.length ≤ 256) :
    ∀ (fuel : Nat) (arena : List Node) (q : List QEntry), MergeInv ft l arena q → q ≠ [] → q.length ≤ fuel + 1 →
      arena.length + q.length ≤ 512 →
      ∃ e, MergeInv ft l (mergeLoop fuel arena q) [e] ∧ (mergeLoop fuel arena q).length + 1 = arena.length + q.length ∧
        (q.length = 1 → mergeLoop fuel arena q = arena ∧ q = [e]) ∧
        (2 ≤ q.length → e.idx.toNat + 1 = (mergeLoop fuel arena q).length) ∧
        ∃ more, mergeLoop fuel arena q = arena ++ more ∧ ∀ n ∈ more, ∃ f x y, n = .internal f x y := by
  intro fuel
  induction fuel with
  | zero =>
    intro arena q inv hne hfuel hlen
    match q, hne, hfuel with
    | [e], _, _ => exact ⟨e, inv, by simp [mergeLoop], by simp [mergeLoop], by simp, [], by simp [mergeLoop]⟩
  | succ fuel ih =>
    intro arena q inv hne hfuel hlen
    cases ha : popLeast q with
    | none => exact absurd (popLeast_eq_none.1 ha) hne
    | some p =>
      obtain ⟨a, q₁⟩ := p
      have hqa := (popLeast_perm ha).length_eq
      cases hb : popLeast q₁ with
      | none =>
        rw [popLeast_eq_none] at hb
        subst hb
        have hm : mergeLoop (fuel + 1) arena q = arena := by
          have hn : popLeast [] = none := rfl
          simp [mergeLoop, ha, hn]
        match q, hqa with
        | [e], _ =>
          rw [hm]
          exact ⟨e, inv, by simp, by simp, by simp, [], by simp⟩
      | some p₂ =>
        obtain ⟨b, q₂⟩ := p₂
        have hqb := (popLeast_perm hb).length_eq
        simp only [List.length_cons] at hqa hqb
        have hm : mergeLoop (fuel + 1) arena q = mergeLoop fuel (arena ++ [.internal (a.freq + b.freq) a.idx b.idx])
            (q₂ ++ [⟨a.freq + b.freq, BitVec.ofNat 9 arena.length⟩]) := by simp [mergeLoop, ha, hb]
        rw [hm]
        have inv' := mergeInv_step inv hl (by omega) ha hb
        obtain ⟨e, h1, h2, h3, h4, more, h5, h6⟩ := ih _ _ inv' (by simp) (by simp; omega) (by simp; omega)
        refine ⟨e, h1, ?_, ?_, ?_, .internal (a.freq + b.freq) a.idx b.idx :: more, ?_, ?_⟩
        · simp only [List.length_append, List.length_singleton] at h2
          omega
        · omega
        · intro _
          by_cases hz : q₂ = []
          · subst hz
            obtain ⟨h7, h8⟩ := h3 (by simp)
            rw [h7]
            have he : e = ⟨a.freq + b.freq, BitVec.ofNat 9 arena.length⟩ := by simpa using h8.symm
            rw [he]
            simp only [List.length_append, List.length_singleton]
            rw [toNat_ofNat9 (by omega)]
          · apply h4
            have := List.length_pos_iff.2 hz
            simp only [List.length_append, List.length_singleton]
            omega
        · rw [h5]; simp
        · intro n hn
          rcases List.mem_cons.1 hn with rfl | hn
          · exact ⟨_, _, _, rfl⟩
          · exact h6 n hn

/-! ### TreeBuild (R141) -/

theorem mem_leafSymbols {ft : FreqTable} {x : Symbol} : x ∈ leafSymbols ft ↔ ftGet ft x ≠ 0 := by
  simp [leafSymbols]

theorem nodup_leafSymbols (ft : FreqTable) : (leafSymbols ft).Nodup := nodup_allSymbols.filter _

theorem length_leafSymbols_le (ft : FreqTable) : (leafSymbols ft).length ≤ 256 := by
  have := List.length_filter_le (fun sym => ftGet ft sym != 0) allSymbols
  simpa [leafSymbols] using this

theorem idx_queueOf (arena : List Node) : (queueOf arena).map QEntry.idx = indicesBelow arena.length := by
  simp only [queueOf, indicesBelow, List.map_map]
  have : (QEntry.idx ∘ fun (x : Node × Nat) => (⟨nodeFreq x.1, BitVec.ofNat 9 x.2⟩ : QEntry)) =
      BitVec.ofNat 9 ∘ Prod.snd := rfl
  rw [this, ← List.map_map, List.zipIdx_map_snd, List.range_eq_range']

theorem childrenOf_leaves (ft : FreqTable) (l : List Symbol) : childrenOf (l.map (leafOf ft)) = [] := by
  simp [childrenOf, List.flatMap_eq_nil_iff, leafOf, nodeChildren]

/-- The queue over the leaves alone meets the merge loop's invariant. -/
theorem mergeInv_leaves (ft : FreqTable) {l : List Symbol} (hl : l.length ≤ 256) :
    MergeInv ft l (l.map (leafOf ft)) (queueOf (l.map (leafOf ft))) := by
  refine ⟨⟨l.zipIdx.map fun p => (⟨nodeFreq (leafOf ft p.1), BitVec.ofNat 9 p.2⟩, .leaf p.1), ?_, ?_, ?_⟩, ?_, ?_⟩
  · apply List.Perm.of_eq
    simp [queueOf, List.zipIdx_map]
  · intro p hp
    obtain ⟨⟨x, k⟩, hk, rfl⟩ := List.mem_map.1 hp
    have hk' := List.mem_zipIdx_iff_getElem?.1 hk
    have hlt : k < l.length := by
      rcases Nat.lt_or_ge k l.length with h | h
      · exact h
      · rw [List.getElem?_eq_none h] at hk'; cases hk'
    simp only at hk'
    have hH : Holds ft (l.map (leafOf ft)) (BitVec.ofNat 9 k) (.leaf x) :=
      .leaf (by rw [toNat_ofNat9 (by omega)]; simp [hk'])
    refine ⟨hH, ?_⟩
    obtain ⟨n, hn, hn'⟩ := hH.record
    rw [toNat_ofNat9 (by omega)] at hn
    simp only [List.getElem?_map, hk', Option.map_some, Option.some.injEq] at hn
    subst hn
    exact hn'
  · apply List.Perm.of_eq
    rw [List.flatMap_map]
    simp only [CodeTree.leaves]
    rw [← List.map_eq_flatMap]
    simp
  · rw [childrenOf_leaves, List.append_nil, idx_queueOf]
  · intro k f a b hk
    simp [leafOf] at hk

/-- A tree over two or more symbols: its arena is the leaves in order and then n-1 internal nodes, its root is the last of
them, and the whole meets the merge loop's invariant with the root alone in the queue (R141, R144). -/
theorem treeBuild_general {ft : FreqTable} (h : 2 ≤ (leafSymbols ft).length) :
    ∃ more e, (treeBuild ft).arena = (leafSymbols ft).map (leafOf ft) ++ more ∧
      (∀ n ∈ more, ∃ f x y, n = .internal f x y) ∧
      (treeBuild ft).arena.length + 1 = 2 * (leafSymbols ft).length ∧
      (treeBuild ft).kind = .general ∧
      (treeBuild ft).nleaves.toNat = (leafSymbols ft).length ∧
      (treeBuild ft).nnodes.toNat = (treeBuild ft).arena.length ∧
      (treeBuild ft).root.toNat + 1 = (treeBuild ft).arena.length ∧
      e.idx = (treeBuild ft).root ∧
      MergeInv ft (leafSymbols ft) (treeBuild ft).arena [e] := by
  have hle := length_leafSymbols_le ft
  have hT : treeBuild ft =
      { arena := mergeLoop (leafSymbols ft).length ((leafSymbols ft).map (leafOf ft)) (queueOf ((leafSymbols ft).map (leafOf ft))),
        kind := .general,
        root := BitVec.ofNat 9 ((mergeLoop (leafSymbols ft).length ((leafSymbols ft).map (leafOf ft)) (queueOf ((leafSymbols ft).map (leafOf ft)))).length - 1),
        nnodes := BitVec.ofNat 9 (mergeLoop (leafSymbols ft).length ((leafSymbols ft).map (leafOf ft)) (queueOf ((leafSymbols ft).map (leafOf ft)))).length,
        nleaves := BitVec.ofNat 9 (leafSymbols ft).length } := by
    unfold treeBuild
    match hl : leafSymbols ft, h with
    | a :: b :: l, _ => rfl
  have hq : (queueOf ((leafSymbols ft).map (leafOf ft))).length = (leafSymbols ft).length := by simp [queueOf]
  obtain ⟨e, h1, h2, -, h4, more, h5, h6⟩ := mergeLoop_spec hle (leafSymbols ft).length _ _ (mergeInv_leaves ft hle)
    (by intro e; rw [e] at hq; simp at hq; omega) (by omega) (by simp [hq]; omega)
  rw [hq, List.length_map] at h2
  have h4 := h4 (by omega)
  rw [hT]
  refine ⟨more, e, h5, h6, by simp only; omega, rfl, ?_, ?_, ?_, ?_, h1⟩
  · exact toNat_ofNat9 (by omega)
  · exact toNat_ofNat9 (by omega)
  · simp only
    rw [toNat_ofNat9 (by omega)]
    omega
  · apply BitVec.eq_of_toNat_eq
    simp only
    rw [toNat_ofNat9 (by omega)]
    omega

theorem treeBuild_empty {ft : FreqTable} (h : leafSymbols ft = []) :
    treeBuild ft = { arena := [.leaf 0x00 1 true], kind := .empty, root := 0, nnodes := 1, nleaves := 0 } := by
  simp [treeBuild, h]

theorem treeBuild_single {ft : FreqTable} {x : Symbol} (h : leafSymbols ft = [x]) :
    treeBuild ft = { arena := [leafOf ft x], kind := .single, root := 0, nnodes := 1, nleaves := 1 } := by
  simp [treeBuild, h]

theorem entryCount_eq (ft : FreqTable) : entryCount ft = (leafSymbols ft).length := by
  simp [entryCount, leafSymbols, List.countP_eq_length_filter]

/-- The three cases of TreeBuild (R141). -/
theorem leafSymbols_cases (ft : FreqTable) :
    leafSymbols ft = [] ∨ (∃ x, leafSymbols ft = [x]) ∨ 2 ≤ (leafSymbols ft).length := by
  match leafSymbols ft with
  | [] => exact .inl rfl
  | [x] => exact .inr (.inl ⟨x, rfl⟩)
  | _ :: _ :: _ => exact .inr (.inr (by simp))

/-- TreeBuild writes exactly the NNODES entries from index 0 up (R41, R43). -/
theorem length_arena (ft : FreqTable) : (treeBuild ft).arena.length = (treeBuild ft).nnodes.toNat := by
  rcases leafSymbols_cases ft with h | ⟨x, h⟩ | h
  · rw [treeBuild_empty h]; rfl
  · rw [treeBuild_single h]; rfl
  · obtain ⟨_, _, _, _, _, _, _, h, _⟩ := treeBuild_general h
    exact h.symm

/-- Every internal node of a built tree is a merge of the two least (R141, R142). -/
theorem mergedInOrder_treeBuild (ft : FreqTable) : MergedInOrder (treeBuild ft).arena := by
  rcases leafSymbols_cases ft with h | ⟨x, h⟩ | h
  · rw [treeBuild_empty h]
    intro k f l r hk
    rcases k with _ | k <;> simp at hk
  · rw [treeBuild_single h]
    intro k f l r hk
    rcases k with _ | k <;> simp [leafOf] at hk
  · obtain ⟨_, _, _, _, _, _, _, _, _, _, inv⟩ := treeBuild_general h
    exact inv.ordered

/-- The resident tree of a table with an entry, as a term: it is held from ROOT down, and its leaves are the symbols with
an entry. -/
theorem treeBuild_holds {ft : FreqTable} (h : leafSymbols ft ≠ []) :
    ∃ t, Holds ft (treeBuild ft).arena (treeBuild ft).root t ∧ t.leaves.Perm (leafSymbols ft) := by
  by_cases h2 : 2 ≤ (leafSymbols ft).length
  · obtain ⟨more, e, -, -, -, -, -, -, -, he, inv⟩ := treeBuild_general h2
    obtain ⟨f, hf, hH, hL⟩ := inv.forest
    have hlen := hf.length_eq
    match f, hlen with
    | [(e', t)], _ =>
      simp only [List.map_cons, List.map_nil, List.perm_singleton, List.cons.injEq, and_true] at hf
      subst hf
      refine ⟨t, he ▸ (hH (e', t) (by simp)).1, by simpa using hL⟩
  · match hl : leafSymbols ft, h, h2 with
    | [x], _, _ =>
      rw [treeBuild_single hl]
      exact ⟨.leaf x, .leaf (by simp), by simp [CodeTree.leaves]⟩
    | _ :: _ :: _, _, h2 => exact absurd (by simp) h2

/-! ### Paths -/

namespace CodeTree

theorem paths_eq (t : CodeTree) (p : Bits) : t.paths p = (t.paths []).map fun q => (q.1, p ++ q.2) := by
  induction t generalizing p with
  | leaf x => simp [paths]
  | node l r hl hr =>
    simp only [paths]
    rw [hl (p ++ [false]), hr (p ++ [true]), hl ([] ++ [false]), hr ([] ++ [true])]
    simp only [List.map_append, List.map_map, List.nil_append, List.append_assoc, Function.comp_def]

theorem mem_paths_node {l r : CodeTree} {x : Symbol} {c : Bits} :
    (x, c) ∈ (node l r).paths [] ↔
      (∃ d, c = false :: d ∧ (x, d) ∈ l.paths []) ∨ (∃ d, c = true :: d ∧ (x, d) ∈ r.paths []) := by
  simp only [paths, List.mem_append]
  rw [paths_eq l, paths_eq r]
  simp only [List.nil_append, List.mem_map, Prod.mk.injEq, Prod.exists]
  constructor
  · rintro (⟨a, b, hm, rfl, rfl⟩ | ⟨a, b, hm, rfl, rfl⟩)
    · exact .inl ⟨b, rfl, hm⟩
    · exact .inr ⟨b, rfl, hm⟩
  · rintro (⟨d, rfl, hm⟩ | ⟨d, rfl, hm⟩)
    · exact .inl ⟨x, d, hm, rfl, rfl⟩
    · exact .inr ⟨x, d, hm, rfl, rfl⟩

theorem mem_leaves_of_path {t : CodeTree} {x : Symbol} {c : Bits} (h : (x, c) ∈ t.paths []) : x ∈ t.leaves := by
  rw [← map_fst_paths t []]
  exact List.mem_map_of_mem (f := Prod.fst) h

theorem path_of_mem_leaves {t : CodeTree} {x : Symbol} (h : x ∈ t.leaves) : ∃ c, (x, c) ∈ t.paths [] := by
  rw [← map_fst_paths t []] at h
  obtain ⟨⟨y, c⟩, hm, rfl⟩ := List.mem_map.1 h
  exact ⟨c, hm⟩

/-- Paths to different leaves are never one the beginning of the other. -/
theorem paths_prefixFree {t : CodeTree} {x y : Symbol} {c d : Bits} (hx : (x, c) ∈ t.paths []) (hy : (y, d) ∈ t.paths [])
    (h : c <+: d) : x = y := by
  induction t generalizing c d with
  | leaf z =>
    simp only [paths, List.mem_singleton, Prod.mk.injEq] at hx hy
    rw [hx.1, hy.1]
  | node l r hl hr =>
    rw [mem_paths_node] at hx hy
    rcases hx with ⟨c, rfl, hx⟩ | ⟨c, rfl, hx⟩ <;> rcases hy with ⟨d, rfl, hy⟩ | ⟨d, rfl, hy⟩
    · exact hl hx hy (by simpa using h)
    · simp at h
    · simp at h
    · exact hr hx hy (by simpa using h)

theorem path_length_lt {t : CodeTree} {x : Symbol} {c : Bits} (h : (x, c) ∈ t.paths []) :
    c.length < t.leaves.length := by
  induction t generalizing c with
  | leaf z =>
    simp only [paths, List.mem_singleton, Prod.mk.injEq] at h
    simp [h.2, leaves]
  | node l r hl hr =>
    have h1 := l.length_leaves_pos
    have h2 := r.length_leaves_pos
    simp only [leaves, List.length_append]
    rcases mem_paths_node.1 h with ⟨d, rfl, hd⟩ | ⟨d, rfl, hd⟩
    · have := hl hd
      simp only [List.length_cons]
      omega
    · have := hr hd
      simp only [List.length_cons]
      omega

/-- Kraft's sum over the paths, as whole numbers: it is exactly full. -/
theorem kraft (t : CodeTree) (p : Bits) (n : Nat) (h : p.length + t.leaves.length ≤ n + 1) :
    ((t.paths p).map fun q => 2 ^ (n - q.2.length)).sum = 2 ^ (n - p.length) := by
  induction t generalizing p with
  | leaf x => simp [paths]
  | node l r hl hr =>
    have h1 := l.length_leaves_pos
    have h2 := r.length_leaves_pos
    simp only [leaves, List.length_append] at h
    simp only [paths, List.map_append, List.sum_append]
    rw [hl _ (by simp; omega), hr _ (by simp; omega)]
    simp only [List.length_append, List.length_singleton]
    have : n - p.length = (n - (p.length + 1)) + 1 := by omega
    rw [this, Nat.pow_succ]
    omega

end CodeTree

/-! ### CodeGen -/

/-- A node reader that agrees with the arena wherever the arena has a record. -/
def Reads (node : Index → Node) (arena : List Node) : Prop := ∀ i n, arena[i.toNat]? = some n → node i = n

theorem reads_nodeAt (arena : List Node) (draw : Nat) : Reads (nodeAt arena draw) arena :=
  fun _ _ h => nodeAt_of_getElem? h

/-- The walk over a held tree records each leaf's path. -/
theorem walkCodes_holds {ft : FreqTable} {arena : List Node} {node : Index → Node} (hn : Reads node arena)
    {i : Index} {t : CodeTree} (h : Holds ft arena i t) :
    ∀ (fuel : Nat) (p : Bits) (ct : CodeTable), i.toNat < fuel →
      walkCodes node fuel i p ct = (t.paths p).foldl (fun ct q => ctSet ct q.1 q.2) ct := by
  induction h with
  | leaf h =>
    intro fuel p ct hf
    cases fuel with
    | zero => omega
    | succ fuel => simp [walkCodes, hn _ _ h, leafOf, CodeTree.paths]
  | node h hl hr _ _ _ ihl ihr =>
    intro fuel p ct hf
    rw [BitVec.lt_def] at hl hr
    cases fuel with
    | zero => omega
    | succ fuel =>
      simp only [walkCodes, hn _ _ h, CodeTree.paths, List.foldl_append]
      rw [ihl fuel _ _ (by omega), ihr fuel _ _ (by omega)]

theorem ctGet_foldl_of_notMem {ps : List (Symbol × Bits)} {x : Symbol} (h : x ∉ ps.map Prod.fst) (ct : CodeTable) :
    ctGet (ps.foldl (fun ct q => ctSet ct q.1 q.2) ct) x = ctGet ct x := by
  induction ps generalizing ct with
  | nil => rfl
  | cons q ps ih =>
    simp only [List.map_cons, List.mem_cons, not_or] at h
    simp only [List.foldl_cons]
    rw [ih h.2, ctGet_ctSet_ne _ _ (Ne.symm h.1)]

theorem ctGet_foldl_of_mem {ps : List (Symbol × Bits)} {x : Symbol} {c : Bits} (hd : (ps.map Prod.fst).Nodup)
    (h : (x, c) ∈ ps) (ct : CodeTable) : ctGet (ps.foldl (fun ct q => ctSet ct q.1 q.2) ct) x = some c := by
  induction ps generalizing ct with
  | nil => cases h
  | cons q ps ih =>
    simp only [List.map_cons, List.nodup_cons] at hd
    simp only [List.foldl_cons]
    rcases List.mem_cons.1 h with rfl | h
    · rw [ctGet_foldl_of_notMem hd.1, ctGet_ctSet_self]
    · exact ih hd.2 h _

/-- The code table of BUILD (R140): CodeGen over what TreeBuild leaves, whatever the unspecified entries hold. -/
def builtCodes (ft : FreqTable) (draw : Nat) : CodeTable :=
  codeGen (nodeAt (treeBuild ft).arena draw) (treeBuild ft).kind (treeBuild ft).root

theorem treeBuild_kind_ne {ft : FreqTable} (h : leafSymbols ft ≠ []) :
    (treeBuild ft).kind = .single ∨ (treeBuild ft).kind = .general := by
  by_cases h2 : 2 ≤ (leafSymbols ft).length
  · obtain ⟨_, _, _, _, _, hk, _⟩ := treeBuild_general h2
    exact .inr hk
  · match hl : leafSymbols ft, h, h2 with
    | [x], _, _ => rw [treeBuild_single hl]; exact .inl rfl
    | _ :: _ :: _, _, h2 => exact absurd (by simp) h2

/-- The entries of the code table are the paths of the tree. -/
theorem ctGet_builtCodes {ft : FreqTable} {t : CodeTree} (draw : Nat)
    (hH : Holds ft (treeBuild ft).arena (treeBuild ft).root t) (hL : t.leaves.Perm (leafSymbols ft)) (x : Symbol)
    (c : Bits) : ctGet (builtCodes ft draw) x = some c ↔ (x, c) ∈ t.paths [] := by
  have hne : leafSymbols ft ≠ [] := by
    intro e
    rw [e] at hL
    have := hL.length_eq
    have := t.length_leaves_pos
    simp_all
  have hnd : ((t.paths []).map Prod.fst).Nodup := by
    rw [CodeTree.map_fst_paths]
    exact hL.symm.nodup (nodup_leafSymbols ft)
  have hroot : (treeBuild ft).root.toNat < Config.maxNodes := by
    by_cases h2 : 2 ≤ (leafSymbols ft).length
    · obtain ⟨_, _, _, _, h3, _, _, _, h4, _⟩ := treeBuild_general h2
      have := length_leafSymbols_le ft
      simp only [Config.maxNodes]
      omega
    · match hl : leafSymbols ft, hne, h2 with
      | [y], _, _ => rw [treeBuild_single hl]; show (0 : Nat) < 511; omega
      | _ :: _ :: _, _, h2 => exact absurd (by simp) h2
  have hw : builtCodes ft draw = (t.paths []).foldl (fun ct q => ctSet ct q.1 q.2) ctEmpty := by
    have := walkCodes_holds (reads_nodeAt _ draw) hH Config.maxNodes [] ctEmpty hroot
    rcases treeBuild_kind_ne hne with hk | hk <;> simp only [builtCodes, codeGen, hk, this]
  rw [hw]
  constructor
  · intro h
    by_cases hx : x ∈ t.leaves
    · obtain ⟨d, hd⟩ := CodeTree.path_of_mem_leaves hx
      rw [ctGet_foldl_of_mem hnd hd] at h
      injection h with h
      exact h ▸ hd
    · rw [ctGet_foldl_of_notMem (by simpa using hx)] at h
      simp at h
  · intro h
    exact ctGet_foldl_of_mem hnd h _

/-- The symbols with a code are those with an entry (R143, R144). -/
theorem isSome_builtCodes (ft : FreqTable) (draw : Nat) (x : Symbol) :
    (ctGet (builtCodes ft draw) x).isSome = true ↔ ftGet ft x ≠ 0 := by
  rw [← mem_leafSymbols]
  by_cases hne : leafSymbols ft = []
  · simp [builtCodes, treeBuild_empty hne, codeGen, hne]
  · obtain ⟨t, hH, hL⟩ := treeBuild_holds hne
    rw [Option.isSome_iff_exists]
    constructor
    · rintro ⟨c, hc⟩
      rw [ctGet_builtCodes _ hH hL] at hc
      exact hL.subset (CodeTree.mem_leaves_of_path hc)
    · intro hx
      obtain ⟨c, hc⟩ := CodeTree.path_of_mem_leaves (hL.symm.subset hx)
      exact ⟨c, (ctGet_builtCodes _ hH hL _ _).2 hc⟩

/-- A code is shorter than the alphabet in use (R144 item 4). -/
theorem length_builtCodes_lt {ft : FreqTable} {draw : Nat} {x : Symbol} {c : Bits}
    (hc : ctGet (builtCodes ft draw) x = some c) : c.length < (leafSymbols ft).length := by
  by_cases hne : leafSymbols ft = []
  · simp [builtCodes, treeBuild_empty hne, codeGen] at hc
  · obtain ⟨t, hH, hL⟩ := treeBuild_holds hne
    rw [ctGet_builtCodes _ hH hL] at hc
    have := CodeTree.path_length_lt hc
    rwa [hL.length_eq] at this

/-! ### Decode -/

/-- From the root of a held tree, a leaf's path brings the cursor to that leaf. -/
theorem walkStream_path {ft : FreqTable} {arena : List Node} {node : Index → Node} (hn : Reads node arena) (root : Index)
    {i : Index} {t : CodeTree} (h : Holds ft arena i t) {x : Symbol} {c : Bits} (hc : (x, c) ∈ t.paths []) :
    ∃ j, node j = leafOf ft x ∧ ∀ rest, walkStream node root i (c ++ rest) = walkStream node root j rest := by
  induction h generalizing c with
  | @leaf i sym h =>
    simp only [CodeTree.paths, List.mem_singleton, Prod.mk.injEq] at hc
    obtain ⟨rfl, rfl⟩ := hc
    exact ⟨i, hn _ _ h, fun _ => rfl⟩
  | node h _ _ _ _ _ ihl ihr =>
    rcases CodeTree.mem_paths_node.1 hc with ⟨d, rfl, hd⟩ | ⟨d, rfl, hd⟩
    · obtain ⟨j, hj, hw⟩ := ihl hd
      exact ⟨j, hj, fun rest => by simp [walkStream, hn _ _ h, hw]⟩
    · obtain ⟨j, hj, hw⟩ := ihr hd
      exact ⟨j, hj, fun rest => by simp [walkStream, hn _ _ h, hw]⟩

/-- At a leaf, with bits left and an internal root, the leaf's symbol is emitted and the walk goes on from the root. -/
theorem walkStream_emit {node : Index → Node} {root i : Index} {x : Symbol} {f g : NodeFreq} {b : Bool} {l r : Index}
    (hi : node i = .leaf x f b) (hr : node root = .internal g l r) {bits : Bits} (hb : bits ≠ []) :
    walkStream node root i bits = (walkStream node root root bits).map (x :: ·) := by
  cases bits with
  | nil => exact absurd rfl hb
  | cons b bs => simp [walkStream, hi, hr]

/-- Decoding a concatenation of codes gives the symbols, in order. -/
theorem walkStream_codes {ft : FreqTable} {arena : List Node} {node : Index → Node} (hn : Reads node arena)
    {root : Index} {tl tr : CodeTree} (h : Holds ft arena root (.node tl tr)) (code : Symbol → Bits) :
    ∀ s : List Symbol, s ≠ [] → (∀ x ∈ s, (x, code x) ∈ (CodeTree.node tl tr).paths []) →
      walkStream node root root (s.flatMap code) = some s := by
  intro s
  induction s with
  | nil => intro hs; exact absurd rfl hs
  | cons x s ih =>
    intro _ hm
    have hx := hm x (by simp)
    obtain ⟨j, hj, hw⟩ := walkStream_path hn root h hx
    simp only [List.flatMap_cons]
    rw [hw]
    by_cases hs : s = []
    · subst hs
      simp [walkStream, hj, leafOf]
    · obtain ⟨g, l, r, hroot⟩ : ∃ g l r, node root = .internal g l r := by
        cases h with
        | node h _ _ _ _ _ => exact ⟨_, _, _, hn _ _ h⟩
      have hne : s.flatMap code ≠ [] := by
        obtain ⟨y, s', rfl⟩ := List.exists_cons_of_ne_nil hs
        have hy := hm y (by simp)
        rcases CodeTree.mem_paths_node.1 hy with ⟨d, hd, _⟩ | ⟨d, hd, _⟩ <;> simp [hd]
      rw [walkStream_emit (by rw [hj, leafOf]) hroot hne, ih hs (fun y hy => hm y (by simp [hy]))]
      rfl

/-- What a walk returns: the symbols whose codes make up the bits. -/
theorem walkStream_sound {ft : FreqTable} {arena : List Node} {node : Index → Node} (hn : Reads node arena)
    {root : Index} {tl tr : CodeTree} (hroot : Holds ft arena root (.node tl tr)) (code : Symbol → Bits)
    (hcode : ∀ x c, (x, c) ∈ (CodeTree.node tl tr).paths [] → code x = c) :
    ∀ (bits : Bits) (i : Index) (t : CodeTree) (out : List Symbol), Holds ft arena i t →
      walkStream node root i bits = some out →
      ∃ x c rest, (x, c) ∈ t.paths [] ∧ out = x :: rest ∧ bits = c ++ rest.flatMap code ∧
        ∀ y ∈ rest, y ∈ (CodeTree.node tl tr).leaves := by
  intro bits
  induction bits with
  | nil =>
    intro i t out h hw
    cases h with
    | @leaf _ sym h =>
      simp only [walkStream, hn _ _ h, leafOf, Option.some.injEq] at hw
      exact ⟨sym, [], [], by simp [CodeTree.paths], hw.symm, by simp, by simp⟩
    | node h _ _ _ _ _ => simp [walkStream, hn _ _ h] at hw
  | cons b bs ih =>
    intro i t out h hw
    cases h with
    | @leaf _ sym h =>
      cases hroot with
      | @node _ l r f _ _ h' hl hr hHl hHr hf =>
        simp only [walkStream, hn _ _ h, leafOf, hn _ _ h', Option.map_eq_some_iff] at hw
        obtain ⟨out', hw, rfl⟩ := hw
        cases b with
        | false =>
          simp only [Bool.false_eq_true, if_false] at hw
          obtain ⟨y, c, rest, hy, rfl, rfl, hmem⟩ := ih _ _ _ hHl hw
          have hy' : (y, false :: c) ∈ (CodeTree.node tl tr).paths [] := CodeTree.mem_paths_node.2 (.inl ⟨c, rfl, hy⟩)
          refine ⟨sym, [], y :: rest, by simp [CodeTree.paths], rfl, ?_, ?_⟩
          · simp [hcode _ _ hy']
          · intro z hz
            rcases List.mem_cons.1 hz with rfl | hz
            · exact CodeTree.mem_leaves_of_path hy'
            · exact hmem z hz
        | true =>
          simp only [if_true] at hw
          obtain ⟨y, c, rest, hy, rfl, rfl, hmem⟩ := ih _ _ _ hHr hw
          have hy' : (y, true :: c) ∈ (CodeTree.node tl tr).paths [] := CodeTree.mem_paths_node.2 (.inr ⟨c, rfl, hy⟩)
          refine ⟨sym, [], y :: rest, by simp [CodeTree.paths], rfl, ?_, ?_⟩
          · simp [hcode _ _ hy']
          · intro z hz
            rcases List.mem_cons.1 hz with rfl | hz
            · exact CodeTree.mem_leaves_of_path hy'
            · exact hmem z hz
    | @node _ l r f ul ur h hl hr hHl hHr hf =>
      simp only [walkStream, hn _ _ h] at hw
      cases b with
      | false =>
        simp only [Bool.false_eq_true, if_false] at hw
        obtain ⟨y, c, rest, hy, rfl, rfl, hmem⟩ := ih _ _ _ hHl hw
        exact ⟨y, false :: c, rest, CodeTree.mem_paths_node.2 (.inl ⟨c, rfl, hy⟩), rfl, by simp, hmem⟩
      | true =>
        simp only [if_true] at hw
        obtain ⟨y, c, rest, hy, rfl, rfl, hmem⟩ := ih _ _ _ hHr hw
        exact ⟨y, true :: c, rest, CodeTree.mem_paths_node.2 (.inr ⟨c, rfl, hy⟩), rfl, by simp, hmem⟩

end Sys2Proof.Machine
end

