-- ==== Sys2Proof/Tests/Slice0.lean ====
section
/-! SUPPORT. The model's own tests: ill-formed command lines, the word of every command written out, vectors of
spec/95_test_vectors.md, and for every obligation with hypotheses states and operands that meet them. -/

namespace Sys2Proof.Tests

open Sys2Proof.Machine

-- One test at a time: each kernel evaluation that waits for another holds a thread and its stack.
set_option Elab.async false

/-! ### Command lines (spec/30_encoding.md R92) -/

theorem test_refuses_missing_symbol : (AsmLine.bare .count).wellFormed = false := by decide
theorem test_refuses_symbol_of_nop : (AsmLine.withSym .nop 1).wellFormed = false := by decide
theorem test_refuses_symbol_256 : (AsmLine.withSym .count 256).wellFormed = false := by decide
theorem test_refuses_index_512 : (AsmLine.rdNode 512).wellFormed = false := by decide
theorem test_refuses_code_symbol_256 : (AsmLine.rdCode 256 0).wellFormed = false := by decide
theorem test_refuses_chunk_8 : (AsmLine.rdCode 0 8).wellFormed = false := by decide
theorem test_refuses_no_bits : (AsmLine.decBits []).wellFormed = false := by decide
theorem test_refuses_17_bits : (AsmLine.decBits (List.replicate 17 true)).wellFormed = false := by decide

/-- The "encodes to" column of R92, at each operand's largest value. -/
theorem test_assembles :
    (AsmLine.bare .encEnd).assemble = some 0x32000000 ∧ (AsmLine.withSym .encSym 255).assemble = some 0x310000FF ∧
    (AsmLine.rdNode 511).assemble = some 0x210001FF ∧ (AsmLine.rdCode 255 7).assemble = some 0x220007FF ∧
    (AsmLine.decBits [false, true, false, false, true, true]).assemble = some 0x41054C00 := by decide

/-! ### The words of R81 to R88, bit by bit -/

theorem test_decode_nop : decode 0b00000000_000000000000000000000000 = some .nop := by decide
theorem test_decode_clear : decode 0b00000001_000000000000000000000000 = some .clear := by decide
theorem test_decode_ack : decode 0b00000010_000000000000000000000000 = some .ack := by decide
theorem test_decode_count : decode 0b00010000_0000000000000000_01000001 = some (.count 65) := by decide
theorem test_decode_setFreq : decode 0b00010001_0000000000000000_10000000 = some (.setFreq 128) := by decide
theorem test_decode_rdFreq : decode 0b00010010_0000000000000000_00000001 = some (.rdFreq 1) := by decide
theorem test_decode_build : decode 0b00100000_000000000000000000000000 = some .build := by decide
theorem test_decode_rdNode : decode 0b00100001_000000000000000_100000001 = some (.rdNode 257) := by decide
theorem test_decode_rdCode : decode 0b00100010_0000000000000_100_01000010 = some (.rdCode 4 66) := by decide
theorem test_decode_encBegin : decode 0b00110000_000000000000000000000000 = some .encBegin := by decide
theorem test_decode_encSym : decode 0b00110001_0000000000000000_11111110 = some (.encSym 254) := by decide
theorem test_decode_encEnd : decode 0b00110010_000000000000000000000000 = some .encEnd := by decide
theorem test_decode_decBegin : decode 0b01000000_000000000000000000000000 = some .decBegin := by decide
theorem test_decode_decBits : decode 0b01000001_0000_0101_0100110000000001 = some (.decBits 5 0x4C01) := by decide
theorem test_decode_decEnd : decode 0b01000010_000000000000000000000000 = some .decEnd := by decide

/-- One reserved bit of each format, at the format's edge (R90): illegal. -/
theorem test_reserved_bits :
    decode 0x01800000 = none ∧ decode 0x10000100 = none ∧ decode 0x21000200 = none ∧ decode 0x22000800 = none ∧
    decode 0x41100000 = none := by decide

/-! ### States and one step -/

/-- What `f` sees of a next state. -/
def probe {α : Type} (f : State → α) : Host.Outcome State Fault Refusal → Option α
  | .next t => some (f t)
  | _ => none

theorem of_probe {α : Type} {f : State → α} {o : Host.Outcome State Fault Refusal} {v : α} (h : probe f o = some v) :
    ∃ t, o = .next t ∧ f t = v := by
  cases o with
  | next t => exact ⟨t, rfl, by simpa [probe] using h⟩
  | fault x => cases h
  | refused x => cases h

/-- `s` with a command word pending. -/
def pending (w : Word) (s : State) : State := { s with pend := some w }

/-- The engine's step with `w` pending. -/
def complete (w : Word) (s : State) : Host.Outcome State Fault Refusal := engineStep (pending w s)

/-- ERR = 1 with an UNKNOWN_SYMBOL record (V-CTL-3, V-CTL-6). -/
def errored (s : State) : State := { s with err := true, errcode := .unknownSymbol, errcmd := 0x31000043 }

/-- The error record, as the host sees it. -/
def record (t : State) : Word × Word × Word := (t.status, t.errcodeWord, t.errcmd)

/-- Both results. -/
def results (t : State) : Word × Word := (t.result0, t.result1)

/-- FT with one entry. -/
def ftOne (x : Symbol) (n : Count) : FreqTable := ftSet ftEmpty x n

/-- FT of "ABAC" (V-TB-5). -/
def ftABC : FreqTable := ftSet (ftSet (ftOne 0x41 2) 0x42 1) 0x43 1

/-- COLLECT with a given FT. -/
def collected (ft : FreqTable) : State := { State.reset with ft := ft }

/-- V-TB-5 after BUILD, as the vector lists it: leaves A 2, B 1, C 1, nodes 3=(1,2) f2 and 4=(0,3) f4, codes "0", "10",
"11". -/
def builtABC : State :=
  { collected ftABC with
    tstate := .built, kind := .general, root := 4, nnodes := 5, nleaves := 3
    arena := [.leaf 0x41 2 false, .leaf 0x42 1 false, .leaf 0x43 1 false, .internal 2 1 2, .internal 4 0 3]
    ct := ctSet (ctSet (ctSet ctEmpty 0x41 [false]) 0x42 [true, false]) 0x43 [true, true] }

/-- V-TB-1, the sentinel tree. -/
def builtEmpty : State :=
  { State.reset with tstate := .built, kind := .empty, nnodes := 1, arena := [.leaf 0 1 true] }

/-- A bare leaf (E3: 'A', ten times). -/
def builtSingle : State :=
  { collected (ftOne 0x41 10) with
    tstate := .built, kind := .single, nnodes := 1, nleaves := 1, arena := [.leaf 0x41 10 false]
    ct := ctSet ctEmpty 0x41 [] }

/-- V-TB-5 with an encoder session, `b` already in EBUF. -/
def encoding (b : Bits) : State := { builtABC with estate := .active, ebuf := b }

/-- V-TB-5 with a decoder session, `b` already in DIN. -/
def decoding (b : Bits) : State := { builtABC with dstate := .active, din := b }

/-- V-ENC-1 after ENC_END: EBUF = "010011". -/
def encoded : State := { builtABC with estate := .done, ebuf := [false, true, false, false, true, true] }

/-- V-DEC-1 after DEC_END. -/
def decoded : State := { builtABC with dstate := .done, dout := [0x41, 0x42, 0x41, 0x43] }

/-- A state with other capacities. -/
def withCaps (e i o : Word) (s : State) : State :=
  { s with cfg := { encCapBits := e, decInCapBits := i, decOutCapSyms := o, base := 0x80 } }

/-- A state whose next machine step is given. -/
def moving (m : Move) (s : State) : State := { s with script := [m] }

/-! ### Vectors of spec/95_test_vectors.md -/

/-- V-CTL-6: discarded. -/
theorem test_clear_reserved_bit_on_error :
    probe record (complete 0x01000001 (errored State.reset)) = some (0x00000002, 2, 0x31000043) := by decide +kernel

/-- V-CTL-7. -/
theorem test_clear_reserved_bit : probe record (complete 0x01000001 builtABC) = some (0x0000000A, 4, 0x01000001) := by
  decide +kernel

/-- V-CTL-10. -/
theorem test_encBegin_in_collect : probe record (complete 0x30000000 State.reset) = some (0x00000002, 4, 0x30000000) := by
  decide +kernel

/-- V-CTL-2: ARG stays. -/
theorem test_clear_keeps_arg :
    probe (fun t => (t.status, t.treeWord, t.arg, ftGet t.ft 0x41)) (complete 0x01000000 { builtABC with arg := 7 }) =
      some (0, 0, 7, 0) := by decide +kernel

/-- V-CTL-3. -/
theorem test_ack : probe (fun t => (record t, t.treeWord)) (complete 0x02000000 (errored builtABC)) =
    some ((0x00000008, 0, 0), 0x60301404) := by decide +kernel

/-- V-FT-6 and V-FT-7: COUNT at the largest count, and just below it. -/
theorem test_count_at_the_maximum :
    probe (fun t => (record t, ftGet t.ft 0x41)) (complete 0x10000041 (collected (ftOne 0x41 0xFFFFFFFF))) =
      some ((0x00000002, 5, 0x10000041), 0xFFFFFFFF) ∧
    probe (fun t => (record t, ftGet t.ft 0x41)) (complete 0x10000041 (collected (ftOne 0x41 0xFFFFFFFE))) =
      some ((0x00000000, 0, 0), 0xFFFFFFFF) := by decide +kernel

/-- V-FT-3 and V-FT-4: SETFREQ 'Z' with ARG = 5 and with ARG = 0. -/
theorem test_setFreq :
    probe (fun t => (record t, ftGet t.ft 0x5A)) (complete 0x1100005A { State.reset with arg := 5 }) =
      some ((0x00000000, 0, 0), 5) ∧
    probe (fun t => (record t, ftGet t.ft 0x5A)) (complete 0x1100005A State.reset) =
      some ((0x00000002, 1, 0x1100005A), 0) := by decide +kernel

/-- V-FT-9 and V-FT-10. -/
theorem test_rdFreq : probe results (complete 0x12000041 builtABC) = some (2, 0) ∧
    probe results (complete 0x12000051 { State.reset with result0 := 9, result1 := 9 }) = some (0, 0) := by
  decide +kernel

/-- V-TB-5: TREE and the records, from FT of "ABAC". -/
theorem test_build : probe (fun t => (t.treeWord, t.arena)) (complete 0x20000000 (collected ftABC)) =
    some (0x60301404, builtABC.arena) := by decide +kernel

/-- V-TB-4: the codes under the tie-break of R142. -/
theorem test_build_tie_break :
    probe (fun t => (ctGet t.ct 0x41, ctGet t.ct 0x42, ctGet t.ct 0x43))
      (complete 0x20000000 (collected (ftSet (ftSet (ftOne 0x41 1) 0x42 1) 0x43 2))) =
      some (some [true, false], some [true, true], some [false]) := by decide +kernel

/-- V-TB-5, RD_NODE 4 and the index past the tree. -/
theorem test_rdNode : probe results (complete 0x21000004 builtABC) = some (0x00000004, 0x00600400) ∧
    probe results (complete 0x21000005 builtABC) = some (0, 0) := by decide +kernel

/-- V-TB-11's record and V-TB-1: a 40-bit frequency, and the sentinel. -/
theorem test_rdNode_wide_and_sentinel :
    probe results (complete 0x21000003 { builtABC with arena := builtABC.arena.take 3 ++ [.internal 0x1FFFFFFFE 0 1] }) =
      some (0xFFFFFFFE, 0x00200401) ∧
    probe results (complete 0x21000000 builtEmpty) = some (0x00000001, 0x00000700) := by decide +kernel

/-- V-TB-5, RD_CODE 'B' chunks 0 and 1, and the absent 'D'. -/
theorem test_rdCode : probe results (complete 0x22000042 builtABC) = some (0x80000000, 0x80000002) ∧
    probe results (complete 0x22000142 builtABC) = some (0, 0x80000002) ∧
    probe results (complete 0x22000044 builtABC) = some (0, 0) := by decide +kernel

/-- V-ENC-14: the unread output is discarded. -/
theorem test_encBegin : probe (fun t => (t.status, t.encLen)) (complete 0x30000000 encoded) = some (0x00000018, 0) := by
  decide +kernel

/-- V-ENC-10 and V-ENC-11: no code, and a code that does not fit. -/
theorem test_encSym_errors :
    probe (fun t => (record t, t.ebuf)) (complete 0x31000044 (encoding [false, true, false])) =
      some ((0x0000000A, 2, 0x31000044), []) ∧
    probe (fun t => (record t, t.ebuf)) (complete 0x31000043 (withCaps 4 8 5 (encoding [false, true, false, false]))) =
      some ((0x0000000A, 5, 0x31000043), []) := by decide +kernel

/-- V-ENC-12: exactly at capacity. -/
theorem test_encSym_at_capacity :
    probe (fun t => (record t, t.ebuf)) (complete 0x31000043 (withCaps 6 8 5 (encoding [false, true, false, false]))) =
      some ((0x00000018, 0, 0), [false, true, false, false, true, true]) := by decide +kernel

/-- V-ENC-1 and V-ENC-13: ENC_END, and a second one. -/
theorem test_encEnd :
    probe (fun t => (record t, t.encLen)) (complete 0x32000000 (encoding [false, true, false, false, true, true])) =
      some ((0x00000028, 0, 0), 6) ∧
    probe record (complete 0x32000000 encoded) = some (0x0000002A, 4, 0x32000000) := by decide +kernel

/-- V-DEC-21: the unread output is discarded. -/
theorem test_decBegin : probe (fun t => (t.status, t.decLen, t.dout)) (complete 0x40000000 decoded) =
    some (0x00000048, 0, []) := by decide +kernel

/-- V-DEC-3 and V-DEC-17: DATA below the counted bits, and more bits than DIN holds. -/
theorem test_decBits :
    probe (fun t => (record t, t.din)) (complete 0x4100FFFF (decoding [])) = some ((0x00000048, 0, 0), [true]) ∧
    probe (fun t => (record t, t.din)) (complete 0x410F4C00 (withCaps 4 8 5 (decoding []))) =
      some ((0x0000000A, 5, 0x410F4C00), []) := by decide +kernel

/-- V-DEC-1 and V-DEC-19: the text, and MALFORMED_STREAM before CAPACITY_EXCEEDED. -/
theorem test_decEnd :
    probe (fun t => (record t, t.dout)) (complete 0x42000000 (decoding [false, true, false, false, true, true])) =
      some ((0x00000088, 0, 0), [0x41, 0x42, 0x41, 0x43]) ∧
    probe record (complete 0x42000000 (withCaps 6 8 1 (decoding [false, true, false, false, true]))) =
      some (0x0000000A, 3, 0x42000000) := by decide +kernel

/-- V-DEC-18: a single-symbol tree of frequency 10 against a capacity of 5. -/
theorem test_decEnd_single :
    probe record (complete 0x42000000
      (withCaps 4 8 5 { builtSingle with dstate := .active })) =
      some (0x0000000A, 5, 0x42000000) := by decide +kernel

/-- V-DEC-11 and V-DEC-8. -/
theorem test_decEnd_no_bits :
    probe (fun t => (record t, t.dout)) (complete 0x42000000 (decoding [])) = some ((0x00000088, 0, 0), []) ∧
    probe record (complete 0x42000000 { builtEmpty with dstate := .active, din := [false] }) =
      some (0x0000000A, 3, 0x42000000) := by decide +kernel

/-- V-BUS-1: the second CMD write is dropped. -/
theorem test_dropped_write :
    probe (fun t => (t.pend, t.status)) (step (moving (.host (.write 0x08 4 0x10000042)) (pending 0x10000041 State.reset))) =
      some (some 0x10000041, 0x00000005) := by decide +kernel

/-- V-BUS-3 and V-BUS-4: what reads while a command is pending. -/
theorem test_reads_while_busy :
    (busRead (Reg.ofOffset 0x18) (pending 0 { State.reset with result0 := 7 })).1 = 0 ∧
    (busRead (Reg.ofOffset 0x00) (pending 0 State.reset)).1 = 0x48554646 ∧
    (busRead (Reg.ofOffset 0x04) (pending 0 State.reset)).1 = 0x01282008 ∧
    (busRead (Reg.ofOffset 0x30) (pending 0 State.reset)).1 = 0x00800000 := by decide +kernel

/-- V-BUS-6: a pop that does not pop, and the pop. -/
theorem test_encOut :
    (busRead (Reg.ofOffset 0x24) (pending 0 encoded)).1 = 0 ∧ (busRead (Reg.ofOffset 0x24) (pending 0 encoded)).2.erp = 0 ∧
    (busRead (Reg.ofOffset 0x24) encoded).1 = 0x4C000000 ∧ (busRead (Reg.ofOffset 0x24) encoded).2.erp = 1 := by
  decide +kernel

/-- V-DEC-1: the first symbol, and nothing past the last. -/
theorem test_decOut : (busRead (Reg.ofOffset 0x2C) decoded).1 = 0x80000041 ∧
    (busRead (Reg.ofOffset 0x2C) { decoded with drp := 4 }).1 = 0 := by decide +kernel

/-- V-BUS-8: a byte write. -/
theorem test_byte_write : step (moving (.host (.write 0x09 1 0)) State.reset) = .refused .notAWholeRegister := rfl

/-- R94's example form: DECW 0x6E8ADC00, 23 is two DEC_BITS (V-DEC-4). -/
theorem test_decw : (decwCommands 0x6E8ADC00 23).map encode = [0x410F6E8A, 0x4106DC00] := by decide

/-- R273: a run whose last engine turn is left, or a reset, is over, and its end state is the state it has. -/
theorem test_run_over : (moving .engine State.reset).RunOver ∧ (moving .rst encoded).RunOver ∧
    ¬ (moving (.host (.read 0 4)) State.reset).RunOver ∧ ¬ (moving .engine (pending 0 State.reset)).RunOver := by decide

theorem test_run_to_end : probe (fun t => (t.ebuf.length, t.reads)) (runToEnd 3 { encoded with
    script := promptly [.read 0x20 4] ++ [.rst] }) = some (6, [6]) := by decide +kernel

/-- The host's two questions of the table: the row's command is read, and it runs as the next step. -/
theorem test_withFetchWord : decodeTableWord 32 0x10000041 = some (.count 0x41) ∧
    probe (fun t => ftGet t.ft 0x41) (step (State.reset.withFetchWord 32 0x10000041)) = some 1 := by decide +kernel

/-! ### Hypotheses that are met

For each obligation with hypotheses, states and operands that meet those of each of its clauses, at boundary values where a
clause has a range. -/

theorem test_meets_DecodeEncode : (Instr.decBits 15 0xFFFF).wellFormed = true ∧ (Instr.rdNode 511).wellFormed = true := by decide

theorem test_meets_EncodeDecode : decode 0x220007FF = some (.rdCode 7 0xFF) := by decide

theorem test_meets_LegalWordSelectsOneRow : OpcodeRow.mk .rdNode 0x21000000 0xFFFFFE00 ∈ opcodeMap ∧
    decode 0x100000FF = some (.count 0xFF) ∧ decode 0x10000100 = none := by decide

theorem test_meets_IllegalWords :
    (∀ op : Opcode, op ∈ Opcode.all → op.code ≠ (0xFF000000 : Word).extractLsb' 24 8) ∧
    (Opcode.count.code = (0x10000100 : Word).extractLsb' 24 8 ∧ reservedBits Opcode.count.format 0x10000100 ≠ 0) ∧
    (pending 0x03000000 State.reset).pend = some 0x03000000 ∧ decode 0x03000000 = none ∧
    (pending 0x03000000 State.reset).err = false ∧ (pending 0x03000000 (errored State.reset)).err = true := by decide

theorem test_meets_OperandAssembly :
    decode 0x100000FF = some (.count 0xFF) ∧ decode 0x110000FF = some (.setFreq 0xFF) ∧
    decode 0x120000FF = some (.rdFreq 0xFF) ∧ decode 0x310000FF = some (.encSym 0xFF) ∧
    decode 0x210001FF = some (.rdNode 511) ∧ decode 0x220007FF = some (.rdCode 7 0xFF) ∧
    decode 0x410F8001 = some (.decBits 15 0x8001) ∧
    (∀ k, k ≤ (0 : BitVec 4).toNat → (0x8000 : BitVec 16).getMsbD k = (0xFFFF : BitVec 16).getMsbD k) := by decide

theorem test_meets_OperandAssembly_arg : { State.reset with arg := 0xFFFFFFFF }.err = false ∧
    { State.reset with arg := 0xFFFFFFFF }.tstate = .collect ∧ { State.reset with arg := 0xFFFFFFFF }.arg ≠ 0 := by decide

theorem test_meets_AssembledLines : (AsmLine.rdNode 512).wellFormed = false ∧ (AsmLine.bare .decEnd).wellFormed = true ∧
    (AsmLine.withSym .rdFreq 255).wellFormed = true ∧ (AsmLine.rdNode 511).wellFormed = true ∧
    (AsmLine.rdCode 255 7).wellFormed = true ∧ (AsmLine.decBits [true]).wellFormed = true ∧
    (AsmLine.decBits (List.replicate 16 true)).wellFormed = true := by decide

theorem test_meets_StepRunsTheDecodedCommand :
    ((pending 0x10000041 State.reset).pend = some 0x10000041 ∧ decode 0x10000041 = some (.count 0x41) ∧
      (Instr.count 0x41).wellFormed = true ∧ (pending 0x10000041 State.reset).script = []) ∧
    (moving .engine (pending 0x10000041 State.reset)).script = .engine :: [] ∧
    State.reset.pend = none ∧ State.reset.EngineNext ∧ (moving .engine State.reset).EngineNext ∧
    ((pending 0x03000000 State.reset).pend = some 0x03000000 ∧ decode 0x03000000 = none ∧
      (moving .engine (pending 0x03000000 State.reset)).EngineNext) :=
  ⟨by decide, rfl, rfl, .inl rfl, .inr ⟨[], rfl⟩, rfl, by decide, .inr ⟨[], rfl⟩⟩

theorem test_meets_EngineStepDispatch :
    State.reset.pend = none ∧ (∀ w s, (pending w s).pend = some w) ∧
    (pending 0x01000000 (errored builtABC)).err = true ∧ decode 0x01000000 = some .clear ∧
    decode 0x02000000 = some .ack ∧ decode 0x10000041 ≠ some .clear ∧ decode 0x10000041 ≠ some .ack ∧
    builtABC.err = false ∧ decode 0xFF000000 = none ∧
    ¬ PhaseHolds (.count 0x41) builtABC ∧ PhaseHolds (.rdNode 4) builtABC :=
  ⟨rfl, fun _ _ => rfl, rfl, by decide, by decide, by decide, by decide, rfl, by decide, (fun h => by cases h), rfl⟩

theorem test_meets_StickyError : (errored builtABC).err = true ∧ (pending 0x32000000 (errored builtABC)).pend = some 0x32000000 :=
  ⟨rfl, rfl⟩

/-- The clean-up of a session, and a session kept because the command was out of phase. -/
theorem test_meets_ErrorEntry :
    (∃ t, complete 0x31000044 (encoding [true]) = .next t ∧ (t.err, t.ebuf, t.estate) = (true, [], .idle)) ∧
    (∃ t, complete 0x31000041 encoded = .next t ∧ (t.err, t.estate) = (true, .done)) ∧
    (∃ t, complete 0x42000000 (decoding [true]) = .next t ∧ (t.err, t.din, t.dstate) = (true, [], .idle)) ∧
    ∃ t, complete 0x41008000 decoded = .next t ∧ (t.err, t.dstate, t.dout.length) = (true, .done, 4) :=
  ⟨of_probe (by decide +kernel), of_probe (by decide +kernel), of_probe (by decide +kernel), of_probe (by decide +kernel)⟩

/-- Each cause, and beside it the nearest command that raises nothing. -/
theorem test_meets_ErrorCauses :
    (probe State.err (complete 0x10000041 (collected (ftOne 0x41 0xFFFFFFFF))) = some true ∧
      probe State.err (complete 0x10000041 (collected (ftOne 0x41 0xFFFFFFFE))) = some false) ∧
    (probe State.err (complete 0x11000041 State.reset) = some true ∧
      probe State.err (complete 0x11000041 { State.reset with arg := 1 }) = some false) ∧
    (probe State.err (complete 0x31000043 (withCaps 5 8 4 (encoding [true, true, true, true]))) = some true ∧
      probe State.err (complete 0x31000043 (withCaps 6 8 4 (encoding [true, true, true, true]))) = some false) ∧
    (probe State.err (complete 0x41014000 (withCaps 6 3 4 (decoding [true, true]))) = some true ∧
      probe State.err (complete 0x41014000 (withCaps 6 4 4 (decoding [true, true]))) = some false) ∧
    (probe State.err (complete 0x42000000 (withCaps 6 8 1 (decoding [false, false]))) = some true ∧
      probe State.err (complete 0x42000000 (withCaps 6 8 2 (decoding [false, false]))) = some false) := by decide +kernel

/-- Nothing, ACK, CLEAR and `rst` in a state with an error. -/
theorem test_meets_FirstErrorIsKept :
    (errored State.reset).err = true ∧ (∃ t, step (pending 0x10000041 (errored State.reset)) = .next t ∧
      (t.err, t.errcode, t.errcmd) = (true, .unknownSymbol, 0x31000043)) ∧
    (pending 0x02000000 (errored State.reset)).Completes .ack ∧
    (pending 0x01000000 (errored State.reset)).Completes .clear ∧ (moving .rst (errored State.reset)).ResetsNext :=
  ⟨rfl, of_probe (by decide +kernel), ⟨.inl rfl, _, rfl, by decide⟩, ⟨.inl rfl, _, rfl, by decide⟩, [], rfl⟩

/-- Past the window's end, before its start, misaligned at its last byte, and wide. -/
theorem test_meets_NothingStopsTheBlock :
    step (moving (.host (.read 0x80 4)) State.reset) = .fault .outsideWindow ∧
    step (moving (.host (.write 0x7C 4 0)) (withCaps 1 1 1 State.reset)) = .fault .outsideWindow ∧
    step (moving (.host (.read 0x7F 4)) State.reset) = .refused .notAWholeRegister ∧
    step (moving (.host (.read 0x00 8)) State.reset) = .refused .notAWholeRegister := ⟨rfl, rfl, rfl, rfl⟩

theorem test_meets_NopDoesNothing : (pending 0x00000000 State.reset).pend = some 0x00000000 := rfl

theorem test_meets_ClearIsASoftReset : (pending 0x01800000 builtABC).pend = some 0x01800000 ∧
    (0x01800000 : Word).extractLsb' 24 8 = 0x01 ∧ (0x01800000 : Word) ≠ 0x01000000 ∧
    (pending 0x01800000 builtABC).err = false ∧ (pending 0x01800000 (errored builtABC)).err = true := by decide +kernel

theorem test_meets_CountAddsOne :
    (pending 0x10000041 builtABC).err = false ∧ ¬ PhaseHolds (.count 0x41) builtABC ∧
    (collected (ftOne 0x41 0xFFFFFFFE)).err = false ∧ (collected (ftOne 0x41 0xFFFFFFFE)).tstate = .collect ∧
    ftGet (collected (ftOne 0x41 0xFFFFFFFE)).ft 0x41 ≠ 0xFFFFFFFF ∧
    ftGet (collected (ftOne 0x41 0xFFFFFFFF)).ft 0x41 = 0xFFFFFFFF ∧ ftGet (collected ftABC).ft 0x44 ≠ 0xFFFFFFFF :=
  ⟨rfl, (fun h => by cases h), rfl, rfl, by decide +kernel, by decide +kernel, by decide +kernel⟩

theorem test_meets_SetFreqCopiesArg :
    ¬ PhaseHolds (.setFreq 0x5A) builtABC ∧ State.reset.err = false ∧ State.reset.tstate = .collect ∧
    { State.reset with arg := 1 }.arg ≠ 0 ∧ State.reset.arg = 0 ∧ ftGet ftABC 0x41 ≠ 0 ∧
    ∃ t, exec .clear (collected ftABC) = .next t ∧ ftGet t.ft 0x41 = 0 :=
  ⟨(fun h => by cases h), rfl, rfl, by decide, rfl, by decide +kernel, of_probe (by decide +kernel)⟩

theorem test_meets_RdFreqReadsTheTable : builtABC.err = false := rfl

theorem test_meets_CountPassCounts : State.reset.err = false ∧ State.reset.tstate = .collect ∧
    (∀ x, ftGet State.reset.ft x = 0) ∧ (∀ x, [0x41, 0x41].count (x : Symbol) ≤ 2 ^ 32 - 1) ∧
    ∃ t, completeAll ([0x41, 0x41].map Instr.count) State.reset = .next t ∧ (t.err, ftGet t.ft 0x41) = (false, 2) :=
  ⟨rfl, rfl, ftGet_ftEmpty, fun x => le_trans List.count_le_length (by decide), of_probe (by decide +kernel)⟩

theorem test_meets_BuildCompletes : ¬ PhaseHolds .build builtABC ∧ State.reset.MayBuild ∧ (collected (ftOne 0x41 10)).MayBuild :=
  ⟨(fun h => by cases h), ⟨rfl, rfl⟩, ⟨rfl, rfl⟩⟩

/-- 'A' with frequency 5 and 'B' with frequency 3 (V-TB-13). -/
def collectedAB : State := collected (ftSet (ftOne 0x41 5) 0x42 3)

/-- What BUILD leaves of no entry, one entry and two entries (V-TB-1, E3, V-TB-13). -/
theorem build_none : probe (fun t => (t.kind, t.arena)) (exec .build State.reset) = some (.empty, [.leaf 0 1 true]) := by
  decide +kernel

theorem build_one : probe (fun t => (t.kind, t.arena, ctGet t.ct 0x41)) (exec .build (collected (ftOne 0x41 10))) =
    some (.single, [.leaf 0x41 10 false], some []) := by decide +kernel

theorem build_two :
    probe (fun t => (t.kind, t.arena, [ctGet t.ct 0x41, ctGet t.ct 0x42])) (exec .build collectedAB) =
      some (.general, [.leaf 0x41 5 false, .leaf 0x42 3 false, .internal 8 1 0], [some [true], some [false]]) := by
  decide +kernel

theorem entries_none : (allSymbols.filter fun x => ftGet State.reset.ft x != 0) = [] := by decide +kernel
theorem entries_one : (allSymbols.filter fun x => ftGet (ftOne 0x41 10) x != 0) = [0x41] := by decide +kernel
theorem entries_two : (allSymbols.filter fun x => ftGet collectedAB.ft x != 0) = [0x41, 0x42] := by decide +kernel

theorem test_meets_TreeBuildWritesTheHuffmanTree : State.reset.MayBuild ∧ (collected (ftOne 0x41 10)).MayBuild ∧
    collectedAB.MayBuild ∧ (∃ t, exec .build State.reset = .next t) ∧
    (∃ t, exec .build (collected (ftOne 0x41 10)) = .next t) ∧ (∃ t, exec .build collectedAB = .next t) ∧
    (allSymbols.filter fun x => ftGet State.reset.ft x != 0) = [] ∧
    (allSymbols.filter fun x => ftGet (ftOne 0x41 10) x != 0) = [0x41] ∧
    2 ≤ (allSymbols.filter fun x => ftGet collectedAB.ft x != 0).length :=
  ⟨⟨rfl, rfl⟩, ⟨rfl, rfl⟩, ⟨rfl, rfl⟩, exec_next _ _, exec_next _ _, exec_next _ _, entries_none, entries_one,
    by rw [entries_two]; decide⟩

/-- The least number of entries in each clause. -/
theorem test_meets_BuiltTreeIsStrictlyBinary : (collected (ftOne 0x41 10)).MayBuild ∧ 1 ≤ entryCount (ftOne 0x41 10) ∧
    ∃ t, exec .build (collected (ftOne 0x41 10)) = .next t :=
  ⟨⟨rfl, rfl⟩, by rw [entryCount, List.countP_eq_length_filter, entries_one]; decide, exec_next _ _⟩

theorem test_meets_CodesArePrefixFree : (0x41 : Symbol) ≠ 0x42 ∧ ∃ t, exec .build collectedAB = .next t ∧
    (t.kind, t.arena, [ctGet t.ct 0x41, ctGet t.ct 0x42]) =
      (.general, [.leaf 0x41 5 false, .leaf 0x42 3 false, .internal 8 1 0], [some [true], some [false]]) :=
  ⟨by decide, of_probe build_two⟩

theorem test_meets_CodeLengths : entryCount (ftOne 0x41 10) = 1 ∧ 2 ≤ entryCount collectedAB.ft ∧
    (∃ t, exec .build (collected (ftOne 0x41 10)) = .next t ∧
      (t.kind, t.arena, ctGet t.ct 0x41) = (.single, [.leaf 0x41 10 false], some [])) ∧
    ∃ t, exec .build collectedAB = .next t :=
  ⟨by rw [entryCount, List.countP_eq_length_filter, entries_one]; decide,
    by rw [entryCount, List.countP_eq_length_filter, entries_two]; decide, of_probe build_one, exec_next _ _⟩

/-- 'A' is "1": the last node, and then its right child, 0. -/
theorem test_meets_CodesAreTreePaths : collectedAB.MayBuild ∧ ∃ t, exec .build collectedAB = .next t ∧
    (t.kind, t.arena, [ctGet t.ct 0x41, ctGet t.ct 0x42]) =
      (.general, [.leaf 0x41 5 false, .leaf 0x42 3 false, .internal 8 1 0], [some [true], some [false]]) :=
  ⟨⟨rfl, rfl⟩, of_probe build_two⟩

/-- Two states that agree in FT and in nothing that is unspecified. -/
theorem test_meets_BuildDependsOnTheTableOnly : (collected ftABC).MayBuild ∧
    { collected ftABC with arenaDraws := 1, arg := 5 }.MayBuild ∧
    (collected ftABC).ft = { collected ftABC with arenaDraws := 1, arg := 5 }.ft ∧
    (∃ t, exec .build (collected ftABC) = .next t) ∧
    ∃ v, exec .build { collected ftABC with arenaDraws := 1, arg := 5 } = .next v :=
  ⟨⟨rfl, rfl⟩, ⟨rfl, rfl⟩, rfl, exec_next _ _, exec_next _ _⟩

theorem test_meets_RdNodeReadsTheArena : builtABC.err = false ∧ builtABC.tstate = .built ∧ ¬ PhaseHolds (.rdNode 0) State.reset ∧
    builtABC.nnodes ≤ (5 : Index) ∧ (0 : Index) < builtABC.nnodes ∧ (4 : Index) < builtABC.nnodes ∧
    builtABC.node 0 = .leaf 0x41 2 false ∧ builtABC.node 4 = .internal 4 0 3 ∧
    (510 : Index) < { builtABC with nnodes := 511 }.nnodes :=
  ⟨rfl, rfl, (fun h => by cases h), by decide, by decide, by decide, rfl, rfl, by decide⟩

theorem test_meets_RdCodeReadsTheTable : builtABC.err = false ∧ builtABC.tstate = .built ∧
    ¬ PhaseHolds (.rdCode 0 0x41) State.reset ∧ ctGet builtABC.ct 0x44 = none ∧
    ctGet builtABC.ct 0x42 = some [true, false] ∧ ctGet builtSingle.ct 0x41 = some [] ∧
    ctGet (ctSet ctEmpty 0xFF (List.replicate 255 true)) 0xFF = some (List.replicate 255 true) ∧
    (List.replicate 255 true).length = 255 :=
  ⟨rfl, rfl, (fun h => by cases h), by decide +kernel, by decide +kernel, by decide +kernel, by decide +kernel, List.length_replicate⟩

theorem test_meets_BeginOpensASession : ¬ PhaseHolds .encBegin State.reset ∧ ¬ PhaseHolds .decBegin State.reset ∧
    encoded.err = false ∧ encoded.tstate = .built :=
  ⟨(fun h => by cases h), (fun h => by cases h), rfl, rfl⟩

theorem test_meets_EncSymAppends : (encoding [true]).err = false ∧ (encoding [true]).estate = .active ∧
    ¬ PhaseHolds (.encSym 0x41) encoded ∧ ctGet builtABC.ct 0x43 = some [true, true] ∧ ctGet builtABC.ct 0x44 = none ∧
    (withCaps 3 8 4 (encoding [true])).ebuf.length + [true, true].length ≤
      (withCaps 3 8 4 (encoding [true])).cfg.encCapBits.toNat ∧
    (withCaps 2 8 4 (encoding [true])).cfg.encCapBits.toNat <
      (withCaps 2 8 4 (encoding [true])).ebuf.length + [true, true].length :=
  ⟨rfl, rfl, (fun h => by cases h), by decide +kernel, by decide +kernel, by decide, by decide⟩

theorem test_meets_EncEndPublishes : ¬ PhaseHolds .encEnd encoded ∧ (encoding [true]).err = false ∧
    (encoding [true]).estate = .active ∧ ∃ t, exec .encEnd (encoding [true]) = .next t :=
  ⟨(fun h => by cases h), rfl, rfl, exec_next _ _⟩

theorem test_meets_EncOutPops : encoded.pend = none ∧ encoded.estate = .done ∧ 32 * encoded.erp < encoded.ebuf.length ∧
    { encoded with erp := 1 }.ebuf.length ≤ 32 * { encoded with erp := 1 }.erp ∧ builtABC.estate ≠ .done ∧
    { encoded with ebuf := List.replicate 32 true, erp := 1 }.ebuf.length ≤ 32 * 1 ∧ (pending 0 encoded).pend ≠ none := by
  decide +kernel

theorem clean_reset : State.reset.Clean :=
  ⟨rfl, rfl, rfl, rfl, ftGet_ftEmpty, rfl, rfl⟩

/-- "AB" from reset: 'A' is "0" and 'B' is "1" (program P4). -/
theorem count_AB : probe (fun t => (t.err, ([0x41, 0x42].map fun x => ((ctGet t.ct x).getD []).length).sum))
    (completeAll (countPass [0x41, 0x42]) State.reset) = some (false, 2) := by decide +kernel

theorem encode_AB : probe (fun t => (t.err, t.ebuf))
    (completeAll (countPass [0x41, 0x42] ++ encodePass [0x41, 0x42]) State.reset) = some (false, [false, true]) := by
  decide +kernel

theorem test_meets_EncodeContract :
    State.reset.Clean ∧ (∀ x, [0x41, 0x42].count (x : Symbol) ≤ 2 ^ 32 - 1) ∧
    (∃ t, completeAll (countPass [0x41, 0x42] ++ encodePass [0x41, 0x42]) State.reset = .next t ∧
      (t.err, t.ebuf) = (false, [false, true])) ∧
    ∃ u, completeAll (countPass [0x41, 0x42]) State.reset = .next u ∧
      (u.err, ([0x41, 0x42].map fun x => ((ctGet u.ct x).getD []).length).sum) = (false, 2) :=
  ⟨clean_reset, fun x => le_trans List.count_le_length (by decide), of_probe encode_AB, of_probe count_AB⟩

theorem test_meets_DecBitsAppends : ¬ PhaseHolds (.decBits 0 0) decoded ∧ (decoding [true]).err = false ∧
    (decoding [true]).dstate = .active ∧
    (withCaps 6 17 4 (decoding [true])).din.length + ((15 : BitVec 4).toNat + 1) ≤
      (withCaps 6 17 4 (decoding [true])).cfg.decInCapBits.toNat ∧
    (withCaps 6 16 4 (decoding [true])).cfg.decInCapBits.toNat <
      (withCaps 6 16 4 (decoding [true])).din.length + ((15 : BitVec 4).toNat + 1) :=
  ⟨(fun h => by cases h), rfl, rfl, by decide, by decide⟩

theorem test_meets_DecEndPublishes : ¬ PhaseHolds .decEnd decoded ∧ (decoding []).err = false ∧ (decoding []).dstate = .active ∧
    (decodeStream builtABC.node .general 4 [false, true, false]).output = some [0x41, 0x42] ∧
    [0x41, 0x42].length ≤ (withCaps 6 8 2 (decoding [])).cfg.decOutCapSyms.toNat ∧
    (decodeStream builtABC.node .general 4 [false, true]).output = none ∧
    (withCaps 6 8 1 (decoding [])).cfg.decOutCapSyms.toNat < [0x41, 0x42].length :=
  ⟨(fun h => by cases h), rfl, rfl, by decide +kernel, by decide, by decide +kernel, by decide⟩

/-- One tree of each kind, and for SINGLE its symbol. -/
theorem test_meets_DecodeInvertsTheCode :
    (∃ t, exec .build State.reset = .next t ∧ (t.kind, t.arena) = (.empty, [.leaf 0 1 true])) ∧
    (∃ t, exec .build (collected (ftOne 0x41 10)) = .next t ∧
      (t.kind, t.arena, ctGet t.ct 0x41) = (.single, [.leaf 0x41 10 false], some [])) ∧
    ftGet (ftOne 0x41 10) 0x41 ≠ 0 ∧
    ∃ t, exec .build collectedAB = .next t ∧
      (t.kind, t.arena, [ctGet t.ct 0x41, ctGet t.ct 0x42]) =
        (.general, [.leaf 0x41 5 false, .leaf 0x42 3 false, .internal 8 1 0], [some [true], some [false]]) :=
  ⟨of_probe build_none, of_probe build_one, by decide +kernel, of_probe build_two⟩

theorem test_meets_RoundTrip : State.reset.Clean ∧
    (∃ t, completeAll (countPass [0x41, 0x42] ++ encodePass [0x41, 0x42]) State.reset = .next t ∧
      (t.err, t.ebuf) = (false, [false, true])) ∧
    ([((1 : BitVec 4), (0x4000 : BitVec 16))].flatMap fun c => streamBits c.1 c.2) = [false, true] ∧
    [false, true].length ≤ State.reset.cfg.decInCapBits.toNat ∧
    [(0x41 : Symbol), 0x42].length ≤ State.reset.cfg.decOutCapSyms.toNat :=
  ⟨clean_reset, of_probe encode_AB, by decide, by decide, by decide⟩

theorem test_meets_DecOutPops : decoded.pend = none ∧ decoded.dstate = .done ∧ { decoded with drp := 3 }.dout[3]? = some 0x43 ∧
    { decoded with drp := 4 }.dout.length ≤ 4 ∧ builtABC.dstate ≠ .done ∧ (pending 0 decoded).pend ≠ none := by
  decide +kernel

theorem test_meets_BusWriteByOffset : State.reset.pend = none ∧ (pending 0 State.reset).pend ≠ none ∧
    (0x7C : Nat) ≠ 0x08 ∧ (0x7C : Nat) ≠ 0x14 := by decide +kernel

theorem test_meets_BusReadByOffset : State.reset.pend = none ∧ (pending 0 State.reset).pend ≠ none ∧
    0x24 ∉ [0x00, 0x04, 0x0C, 0x30, 0x34, 0x38] ∧ 0x44 + 4 * 14 = 0x7C := by decide +kernel

theorem test_meets_ReadsChangeOnlyReadPointers : Reg.id ≠ .encOut ∧ Reg.id ≠ .decOut ∧ (pending 0 encoded).pend ≠ none ∧
    encoded.pend = none ∧ decoded.pend = none := by decide +kernel

theorem test_meets_HostStepAccessesOneRegister : 0x7C < 0x80 ∧ 0x7C % 4 = 0 ∧
    (moving (.host (.read (0 + 0x7C) 4)) State.reset).script = .host (.read (State.reset.cfg.base + 0x7C) 4) :: [] ∧
    (moving (.host (.write (0x80 + 0) 4 5)) (withCaps 1 1 1 State.reset)).script =
      .host (.write ((withCaps 1 1 1 State.reset).cfg.base + 0) 4 5) :: [] := ⟨by decide, by decide, rfl, rfl⟩

theorem test_meets_PartialAccessIsRefused : State.reset.cfg.base ≤ 0x7F ∧ 0x7F < State.reset.cfg.base + 0x80 ∧
    (0x7F - State.reset.cfg.base) % 4 ≠ 0 ∧
    (moving (.host (.read 0x7F 4)) State.reset).script = .host (.read 0x7F 4) :: [] ∧
    (moving (.host (.write 0x08 2 5)) State.reset).script = .host (.write 0x08 2 5) :: [] :=
  ⟨by decide, by decide, by decide, rfl, rfl⟩

/-- The three ways PEND changes. -/
theorem test_meets_PendingSlotWriters :
    (∃ t, step (moving (.host (.write 0x08 4 5)) State.reset) = .next t ∧ t.pend = some 5) ∧
    (∃ t, step (pending 0 State.reset) = .next t ∧ t.pend = none) ∧
    ∃ t, step (moving .rst (pending 0 State.reset)) = .next t ∧ t.pend = none :=
  ⟨of_probe (by decide +kernel), of_probe (by decide +kernel), of_probe (by decide +kernel)⟩

theorem test_meets_ArgWriters :
    (∃ t, step (moving (.host (.write 0x14 4 5)) State.reset) = .next t ∧ t.arg = 5) ∧
    (∃ t, step (moving .rst { State.reset with arg := 5 }) = .next t ∧ t.arg = 0) ∧
    State.reset.pend = none ∧ (pending 0 State.reset).pend ≠ none ∧ ∃ t, exec .clear State.reset = .next t :=
  ⟨of_probe (by decide +kernel), of_probe (by decide +kernel), rfl, by decide +kernel, exec_next _ _⟩

theorem test_meets_ResultWriters :
    (pending 0x12000041 (collected ftABC)).Completes (.rdFreq 0x41) ∧
    ∃ t, step (pending 0x12000041 (collected ftABC)) = .next t ∧ results t = (2, 0) :=
  ⟨⟨.inl rfl, _, rfl, by decide⟩, of_probe (by decide +kernel)⟩

theorem test_meets_FrequencyTableWriters :
    (pending 0x10000041 State.reset).Completes (.count 0x41) ∧
    ∃ t, step (pending 0x10000041 State.reset) = .next t ∧ ftGet t.ft 0x41 = 1 :=
  ⟨⟨.inl rfl, _, rfl, by decide⟩, of_probe (by decide +kernel)⟩

theorem test_meets_TreeIsReadOnlyWhileBuilt : builtABC.tstate = .built ∧
    ∃ t, step (pending 0x10000041 builtABC) = .next t ∧ (t.err, ftGet t.ft 0x41) = (true, 2) :=
  ⟨rfl, of_probe (by decide +kernel)⟩

theorem test_meets_OverrunIsADroppedWrite : State.reset.ovr = false ∧
    (∃ t, step (moving (.host (.write 0x08 4 5)) (pending 0 State.reset)) = .next t ∧ t.ovr = true) ∧
    ∃ t, step (moving (.host (.write 0x14 4 5)) (pending 0 State.reset)) = .next t ∧ t.ovr = true :=
  ⟨rfl, of_probe (by decide +kernel), of_probe (by decide +kernel)⟩

theorem test_meets_ResetAndCleanEntry : (moving .rst (pending 0 encoded)).script = .rst :: [] ∧
    (pending 0x01000000 (errored encoded)).Completes .clear ∧
    (∃ t, step (pending 0x01000000 (errored encoded)) = .next t ∧ t.status = 0) ∧ State.reset.Clean :=
  ⟨rfl, ⟨.inl rfl, _, rfl, by decide⟩, of_probe (by decide +kernel), clean_reset⟩

/-- R50 holds of V-ENC-1's end state. -/
theorem test_meets_StepKeepsR50 : encoded.R50 ∧
    ∃ t, step (pending 0x30000000 encoded) = .next t ∧ t.status = 0x00000018 := by
  refine ⟨?_, of_probe (by decide +kernel)⟩
  constructor <;> decide +kernel

theorem test_meets_StepKeepsRanges : encoded.InRange ∧
    ∃ t, step (moving (.host (.read 0x24 4)) encoded) = .next t ∧ t.erp = 1 := by
  refine ⟨⟨by decide +kernel, by decide +kernel, ?_, by decide +kernel, by decide +kernel⟩, of_probe (by decide +kernel)⟩
  intro sym c h
  have a : ∀ x : Symbol, ((ctGet encoded.ct x).getD []).length ≤ 255 := by decide +kernel
  simpa [h] using a sym

/-- What BUILD leaves is resident. -/
theorem resident_build (s : State) : (buildOwn s).TreeResident := fun _ => ⟨rfl, rfl, rfl, rfl, rfl, rfl⟩

theorem test_meets_StepKeepsTheResidentTree : (buildOwn (collected ftABC)).tstate = .built ∧
    (buildOwn (collected ftABC)).TreeResident :=
  ⟨rfl, resident_build _⟩

theorem test_meets_EndOfRunIsFinal : (moving .engine encoded).RunOver ∧ ¬ (moving .engine encoded).ResetsNext ∧
    { encoded with script := [.engine, .rst, .host (.read 0 4)] }.RunOver ∧
    { encoded with script := [.engine, .rst, .host (.read 0 4)] }.script =
      [.engine, .rst] ++ .host (.read 0 4) :: [] :=
  ⟨by decide, (fun ⟨_, h⟩ => by cases h), by decide, rfl⟩

end Sys2Proof.Tests
end

section
/-! PROOFS. The family spec/00_scope.md: the ranges of R7, R37, R41, R42, R44 and R45 under every step (O58), and what a
host step does (O44). -/

namespace Sys2Proof.Machine

/-! ### The configuration (R7) -/

/-- No command's own rule changes the configuration. -/
theorem OwnShape.cfg_eq {s t : State} {i : Instr} (h : OwnShape s i t) : t.cfg = s.cfg := by
  cases h <;> rfl

/-- No machine step changes the configuration (R7, log entry 5). -/
theorem StepShape.cfg_eq {s t : State} (h : StepShape s t) : t.cfg = s.cfg := by
  cases h with
  | always i | ran i => exact (ownShape i s.advance).cfg_eq
  | _ => rfl

/-! ### The ranges -/

/-- An update that leaves the configuration and the tree's tables alone has only the read pointers to answer for. -/
theorem State.InRange.of_sameTables {s t : State} (h : s.InRange) (hcfg : t.cfg = s.cfg) (harena : t.arena = s.arena)
    (hnnodes : t.nnodes = s.nnodes) (hct : t.ct = s.ct) (herp : t.erp ≤ wordCount t.ebuf)
    (hdrp : t.drp ≤ t.dout.length) : t.InRange where
  cfg_wf := hcfg ▸ h.cfg_wf
  arena_listed := by rw [harena, hnnodes, h.arena_listed]
  code_length := hct ▸ h.code_length
  erp_le := herp
  drp_le := hdrp

/-- Appending to a bit-string does not take words away. -/
theorem wordCount_le_append (b c : Bits) : wordCount b ≤ wordCount (b ++ c) := by
  simp only [wordCount, List.length_append]
  omega

/-- A code of BUILD has at most 255 bits (R42). -/
theorem length_builtCodes_le {ft : FreqTable} {draw : Nat} {x : Symbol} {c : Bits}
    (hc : ctGet (builtCodes ft draw) x = some c) : c.length ≤ 255 := by
  have hlt := length_builtCodes_lt hc
  have hle := length_leafSymbols_le ft
  omega

theorem clearBlock_inRange {s : State} (h : s.InRange) : (clearBlock s).InRange where
  cfg_wf := h.cfg_wf
  arena_listed := rfl
  code_length := by simp
  erp_le := Nat.zero_le _
  drp_le := Nat.zero_le _

theorem resetBlock_inRange {s : State} (h : s.InRange) : (resetBlock s).InRange where
  cfg_wf := h.cfg_wf
  arena_listed := rfl
  code_length := (clearBlock_inRange h).code_length
  erp_le := Nat.zero_le _
  drp_le := Nat.zero_le _

/-- BUILD lists exactly NNODES entries, and its codes are short enough (R41, R42). -/
theorem buildOwn_inRange {s : State} (h : s.InRange) : (buildOwn s).InRange where
  cfg_wf := h.cfg_wf
  arena_listed := length_arena s.ft
  code_length _ _ hc := length_builtCodes_le (draw := s.arenaDraws + 1) hc
  erp_le := h.erp_le
  drp_le := h.drp_le

theorem advance_inRange {s : State} (h : s.InRange) : s.advance.InRange :=
  h.of_sameTables rfl rfl rfl rfl h.erp_le h.drp_le

theorem retire_inRange {s : State} (h : s.InRange) : (retire s).InRange :=
  h.of_sameTables rfl rfl rfl rfl h.erp_le h.drp_le

/-- Every command's own rule keeps the ranges. A rule that touches a session sets its read pointer to 0, or only appends
to what the pointer counts. -/
theorem OwnShape.inRange {s t : State} {i : Instr} (hs : OwnShape s i t) (h : s.InRange) : t.InRange := by
  cases hs with
  | nop => exact h
  | clear => exact clearBlock_inRange h
  | build => exact buildOwn_inRange h
  | ack | table | tableError | results | decBits => exact h.of_sameTables rfl rfl rfl rfl h.erp_le h.drp_le
  | encBegin | encError | encEnd => exact h.of_sameTables rfl rfl rfl rfl (Nat.zero_le _) h.drp_le
  | encSym _ c => exact h.of_sameTables rfl rfl rfl rfl (h.erp_le.trans (wordCount_le_append s.ebuf c)) h.drp_le
  | decBegin | decEnd | decError => exact h.of_sameTables rfl rfl rfl rfl h.erp_le (Nat.zero_le _)

/-- Every machine step keeps the ranges. A pop moves its read pointer only below the end of the data. -/
theorem StepShape.inRange {s t : State} (hs : StepShape s t) (h : s.InRange) : t.InRange := by
  have ha := advance_inRange h
  cases hs with
  | always i | ran i => exact retire_inRange ((ownShape i s.advance).inRange ha)
  | pass | ignored => exact ha
  | discarded => exact retire_inRange ha
  | encPop _ _ hl => exact h.of_sameTables rfl rfl rfl rfl hl h.drp_le
  | decPop _ _ hl => exact h.of_sameTables rfl rfl rfl rfl h.erp_le hl
  | illegal | read | cmd | arg | dropped => exact h.of_sameTables rfl rfl rfl rfl h.erp_le h.drp_le
  | rst => exact resetBlock_inRange ha

/-- Settles O58: by the shapes of a machine step and, for a completed command, of its own rule. -/
theorem stepKeepsRanges : Obligations.StepKeepsRanges := by
  unfold Obligations.StepKeepsRanges
  exact ⟨fun _ _ hstep => (stepShape hstep).cfg_eq, fun _ _ h hstep => (stepShape hstep).inRange h⟩

/-! ### A host step (R11) -/

/-- On the host's turn, a machine step is the host's access. -/
theorem step_of_hostNext {s : State} {a : Access} {rest : List Move} (h : s.script = .host a :: rest) :
    step s = hostStep a { s with script := rest } := by
  simp only [step, machineStep, h]

/-- A read of a word at a multiple of 4 inside the window reads its register (R63). -/
theorem hostStep_readWord (s : State) {off : Nat} (h : off < 0x80) (h4 : off % 4 = 0) :
    hostStep (.read (s.cfg.base + off) 4) s = .next (hostRead (Reg.ofOffset off) s) := by
  simp only [hostStep, route_word s.cfg h h4]

/-- A write of a word at a multiple of 4 inside the window writes its register (R62). -/
theorem hostStep_writeWord (s : State) (v : Word) {off : Nat} (h : off < 0x80) (h4 : off % 4 = 0) :
    hostStep (.write (s.cfg.base + off) 4 v) s = .next (busWrite (Reg.ofOffset off) v s) := by
  simp only [hostStep, route_word s.cfg h h4]

/-- The access itself leaves the record of reads to `hostRead`. -/
@[simp] theorem busRead_reads (r : Reg) (s : State) : (busRead r s).2.reads = s.reads := by
  rcases busRead_cases r s with e | ⟨-, -, -, -, e⟩ | ⟨-, -, -, -, e⟩ <;> rw [e]

/-- A host read leaves what the register's read leaves, with the value at the end of the record (R273). -/
theorem hostRead_eq (r : Reg) (s : State) :
    hostRead r s = { (busRead r s).2 with reads := s.reads ++ [(busRead r s).1] } := by
  simp only [hostRead, busRead_reads]

/-- Settles O44: the access reaches its register, and a read's value is put on record. -/
theorem hostStepAccessesOneRegister : Obligations.HostStepAccessesOneRegister := by
  unfold Obligations.HostStepAccessesOneRegister
  intro s off rest h h4
  refine ⟨fun hs => ⟨_, _, Prod.mk.eta.symm, ?_⟩, fun v hs => ?_⟩
  · rw [step_of_hostNext hs, ← hostRead_eq _ { s with script := rest }]
    exact hostStep_readWord { s with script := rest } h h4
  · rw [step_of_hostNext hs]
    exact hostStep_writeWord { s with script := rest } v h h4

end Sys2Proof.Machine
end

section
/-! PROOFS. The family spec/10_state.md: the invariants of R50 and the resident tree under every step (O57, O59) and at
reset (O54, O56), who writes what (O48 to O51, O53), and the words of STATUS and TREE (O46, O47). -/

namespace Sys2Proof.Machine

/-! ### R50 in four parts

Each part is stated over just the elements it speaks of, so an update of any other element leaves it as it is by
definition. -/

/-- Items 1 to 4 of R50: the tree phase, the tree descriptor and the code table, for the table `ft`. -/
structure TreePart (phase : TState) (ft : FreqTable) (kind : Kind) (root nnodes nleaves : Index) (ct : CodeTable) :
    Prop where
  collect_iff : phase = .collect ↔ kind = .none
  collect_empty : phase = .collect → nnodes = 0 ∧ nleaves = 0 ∧ root = 0 ∧ ∀ sym, ctGet ct sym = none
  built_leaves : phase = .built → nleaves.toNat = entryCount ft ∧ kind = kindFor nleaves.toNat
  leaf_shape : kind = .empty ∨ kind = .single → nnodes = 1 ∧ root = 0
  general_shape : kind = .general → nnodes.toNat = 2 * nleaves.toNat - 1 ∧ root.toNat = nnodes.toNat - 1
  code_present : ∀ sym, (ctGet ct sym).isSome ↔ phase = .built ∧ kind ≠ .empty ∧ ftGet ft sym ≠ 0

/-- Items 5, 6 and 8 of R50 for the encoder, in the tree phase `phase`. -/
structure EncoderPart (phase : TState) (session : Session) (ebuf : Bits) (erp : Nat) (cap : Word) : Prop where
  built : session ≠ .idle → phase = .built
  erp_zero : session ≠ .done → erp = 0
  ebuf_empty : session = .idle → ebuf = []
  ebuf_fits : ebuf.length ≤ cap.toNat

/-- Items 5, 7 and 8 of R50 for the decoder, in the tree phase `phase`. -/
structure DecoderPart (phase : TState) (session : Session) (din : Bits) (dout : List Symbol) (drp : Nat)
    (inCap outCap : Word) : Prop where
  built : session ≠ .idle → phase = .built
  din_empty : session ≠ .active → din = []
  dout_empty : session ≠ .done → dout = [] ∧ drp = 0
  din_fits : din.length ≤ inCap.toNat
  dout_fits : dout.length ≤ outCap.toNat

/-- Item 9 of R50: the error record. -/
structure RecordPart (err : Bool) (code : ErrCode) (word : Word) : Prop where
  no_record : err = false → code = .none ∧ word = 0
  record : err = true → code ≠ .none

/-- Items 1 to 4 hold in the state. -/
def State.TreeOk (s : State) : Prop := TreePart s.tstate s.ft s.kind s.root s.nnodes s.nleaves s.ct

/-- The encoder's items hold in the state. -/
def State.EncoderOk (s : State) : Prop := EncoderPart s.tstate s.estate s.ebuf s.erp s.cfg.encCapBits

/-- The decoder's items hold in the state. -/
def State.DecoderOk (s : State) : Prop :=
  DecoderPart s.tstate s.dstate s.din s.dout s.drp s.cfg.decInCapBits s.cfg.decOutCapSyms

/-- Item 9 holds in the state. -/
def State.RecordOk (s : State) : Prop := RecordPart s.err s.errcode s.errcmd

/-- R50 in parts. -/
def State.PartsOk (s : State) : Prop := s.TreeOk ∧ s.EncoderOk ∧ s.DecoderOk ∧ s.RecordOk

/-- The parts are exactly R50. -/
theorem r50_iff_partsOk {s : State} : s.R50 ↔ s.PartsOk := by
  constructor
  · intro h
    exact ⟨⟨h.collect_iff, h.collect_empty, h.built_leaves, h.leaf_shape, h.general_shape, h.code_present⟩,
      ⟨h.encoder_built, h.erp_zero, h.ebuf_empty, h.ebuf_fits⟩,
      ⟨h.decoder_built, h.din_empty, h.dout_empty, h.din_fits, h.dout_fits⟩, ⟨h.no_record, h.record⟩⟩
  · rintro ⟨tree, enc, dec, rcd⟩
    exact {
      collect_iff := tree.collect_iff
      collect_empty := tree.collect_empty
      built_leaves := tree.built_leaves
      leaf_shape := tree.leaf_shape
      general_shape := tree.general_shape
      code_present := tree.code_present
      encoder_built := enc.built
      decoder_built := dec.built
      erp_zero := enc.erp_zero
      ebuf_empty := enc.ebuf_empty
      din_empty := dec.din_empty
      dout_empty := dec.dout_empty
      ebuf_fits := enc.ebuf_fits
      din_fits := dec.din_fits
      dout_fits := dec.dout_fits
      no_record := rcd.no_record
      record := rcd.record }

/-! ### The parts after a reset or CLEAR -/

theorem treePart_absent (ft : FreqTable) : TreePart .collect ft .none 0 0 0 ctEmpty := by
  constructor <;> simp

theorem encoderPart_idle (phase : TState) (cap : Word) : EncoderPart phase .idle [] 0 cap := by
  constructor <;> simp

theorem decoderPart_idle (phase : TState) (inCap outCap : Word) : DecoderPart phase .idle [] [] 0 inCap outCap := by
  constructor <;> simp

theorem recordPart_clear : RecordPart false .none 0 := by
  constructor <;> simp

/-- An error leaves a record with its code, whatever the word (R222). -/
theorem recordPart_raised {code : ErrCode} (hc : code ≠ .none) (word : Word) : RecordPart true code word := by
  constructor <;> simp [hc]

theorem reset_partsOk : State.reset.PartsOk :=
  ⟨treePart_absent _, encoderPart_idle _ _, decoderPart_idle _ _ _, recordPart_clear⟩

theorem resetBlock_partsOk (s : State) : (resetBlock s).PartsOk :=
  ⟨treePart_absent _, encoderPart_idle _ _, decoderPart_idle _ _ _, recordPart_clear⟩

theorem clearBlock_partsOk (s : State) : (clearBlock s).PartsOk :=
  ⟨treePart_absent _, encoderPart_idle _ _, decoderPart_idle _ _ _, recordPart_clear⟩

/-! ### The descriptor BUILD writes -/

/-- TreeBuild's NLEAVES is the number of symbols with an entry (R141). -/
theorem treeBuild_nleaves (ft : FreqTable) : (treeBuild ft).nleaves.toNat = entryCount ft := by
  rw [entryCount_eq]
  rcases leafSymbols_cases ft with h | ⟨x, h⟩ | h
  · rw [treeBuild_empty h, h]; rfl
  · rw [treeBuild_single h, h]; rfl
  · obtain ⟨-, -, -, -, -, -, hn, -⟩ := treeBuild_general h
    exact hn

/-- TreeBuild's KIND is the kind of a tree over so many symbols (R141). -/
theorem treeBuild_kind (ft : FreqTable) : (treeBuild ft).kind = kindFor (entryCount ft) := by
  rw [entryCount_eq]
  rcases leafSymbols_cases ft with h | ⟨x, h⟩ | h
  · rw [treeBuild_empty h, h]; rfl
  · rw [treeBuild_single h, h]; rfl
  · obtain ⟨-, -, -, -, -, hk, -⟩ := treeBuild_general h
    rw [hk, kindFor, if_neg (by omega), if_neg (by omega)]

/-- A tree of fewer than two leaves is one record, its own root (R141). -/
theorem treeBuild_leafShape {ft : FreqTable} (hk : (treeBuild ft).kind = .empty ∨ (treeBuild ft).kind = .single) :
    (treeBuild ft).nnodes = 1 ∧ (treeBuild ft).root = 0 := by
  rcases leafSymbols_cases ft with h | ⟨x, h⟩ | h
  · rw [treeBuild_empty h]; exact ⟨rfl, rfl⟩
  · rw [treeBuild_single h]; exact ⟨rfl, rfl⟩
  · obtain ⟨-, -, -, -, -, hg, -⟩ := treeBuild_general h
    simp [hg] at hk

/-- A GENERAL tree has one internal node fewer than leaves, and the last node is its root (R141). -/
theorem treeBuild_generalShape {ft : FreqTable} (hk : (treeBuild ft).kind = .general) :
    (treeBuild ft).nnodes.toNat = 2 * (treeBuild ft).nleaves.toNat - 1 ∧
      (treeBuild ft).root.toNat = (treeBuild ft).nnodes.toNat - 1 := by
  rcases leafSymbols_cases ft with h | ⟨x, h⟩ | h
  · simp [treeBuild_empty h] at hk
  · simp [treeBuild_single h] at hk
  · obtain ⟨-, -, -, -, hlen, -, hleaves, hnodes, hroot, -⟩ := treeBuild_general h
    omega

/-- A tree is EMPTY only over a table without an entry (R141). -/
theorem treeBuild_kind_ne_empty {ft : FreqTable} {x : Symbol} (hx : ftGet ft x ≠ 0) :
    (treeBuild ft).kind ≠ .empty := by
  have hne : leafSymbols ft ≠ [] := List.ne_nil_of_mem (mem_leafSymbols.2 hx)
  rcases treeBuild_kind_ne hne with h | h <;> simp [h]

theorem kindFor_ne_none (n : Nat) : kindFor n ≠ .none := by
  unfold kindFor
  split
  · simp
  · split <;> simp

/-- What BUILD leaves meets items 1 to 4 (R140, R141, R143). -/
theorem treePart_built (ft : FreqTable) (draw : Nat) :
    TreePart .built ft (treeBuild ft).kind (treeBuild ft).root (treeBuild ft).nnodes (treeBuild ft).nleaves
      (builtCodes ft draw) where
  collect_iff := by simp [treeBuild_kind, kindFor_ne_none]
  collect_empty := by simp
  built_leaves _ := ⟨treeBuild_nleaves ft, by rw [treeBuild_nleaves, treeBuild_kind]⟩
  leaf_shape := treeBuild_leafShape
  general_shape := treeBuild_generalShape
  code_present sym := by
    rw [isSome_builtCodes]
    exact ⟨fun hx => ⟨rfl, treeBuild_kind_ne_empty hx, hx⟩, fun ⟨_, _, hx⟩ => hx⟩

/-- In COLLECT, items 1 to 4 do not depend on FT. -/
theorem TreePart.of_collect {phase : TState} {ft : FreqTable} {kind : Kind} {root nnodes nleaves : Index}
    {ct : CodeTable} (h : TreePart phase ft kind root nnodes nleaves ct) (hc : phase = .collect) (ft' : FreqTable) :
    TreePart phase ft' kind root nnodes nleaves ct :=
  { h with
    built_leaves := by simp [hc]
    code_present := by simpa [hc] using h.code_present }

/-! ### Phases -/

/-- The dispatch rule's phase check is R101's table. -/
theorem phaseOk_iff_phaseHolds {i : Instr} {s : State} : phaseOk i.opcode s = true ↔ PhaseHolds i s := by
  cases i <;> simp [phaseOk, PhaseHolds, Instr.opcode]

/-- COUNT and SETFREQ run only in COLLECT (R101). -/
theorem collect_of_phaseHolds {i : Instr} {s : State} {sym : Symbol} (hi : i = .count sym ∨ i = .setFreq sym)
    (hp : PhaseHolds i s) : s.tstate = .collect := by
  rcases hi with rfl | rfl <;> exact hp

/-- The phases of CLEAR and ACK are all phases (R101). -/
theorem phaseHolds_of_runsOnError {i : Instr} (h : runsOnError i) (s : State) : PhaseHolds i s := by
  rcases h with rfl | rfl <;> exact trivial

/-! ### The own rules -/

/-- In phase, a command's own rule keeps items 1 to 4: BUILD establishes them, and COUNT and SETFREQ, which run only in
COLLECT, change FT alone, which the items leave free there. -/
theorem OwnShape.treeOk {s t : State} {i : Instr} (hs : OwnShape s i t) (hp : PhaseHolds i s) (h : s.TreeOk) :
    t.TreeOk := by
  cases hs with
  | clear => exact (clearBlock_partsOk s).1
  | build => exact treePart_built s.ft (s.arenaDraws + 1)
  | table i sym v hi _ => exact TreePart.of_collect h (collect_of_phaseHolds hi hp) _
  | _ => exact h

/-- In phase, a command's own rule keeps the encoder's items: a session is begun in BUILT, and one that is written or
ended was begun before. -/
theorem OwnShape.encoderOk {s t : State} {i : Instr} (hs : OwnShape s i t) (hp : PhaseHolds i s) (h : s.EncoderOk) :
    t.EncoderOk := by
  cases hs with
  | clear | encError => exact encoderPart_idle _ _
  | build => exact { h with built := fun _ => rfl }
  | encBegin =>
    exact { built := fun _ => hp, erp_zero := fun _ => rfl, ebuf_empty := fun _ => rfl, ebuf_fits := Nat.zero_le _ }
  | encSym sym c _ hf =>
    have ha : s.estate = .active := hp
    exact { h with ebuf_empty := by simp [ha], ebuf_fits := by simpa using hf }
  | encEnd =>
    have ha : s.estate = .active := hp
    exact { h with built := fun _ => h.built (by simp [ha]), erp_zero := fun _ => rfl, ebuf_empty := by simp }
  | _ => exact h

/-- In phase, a command's own rule keeps the decoder's items, as it does the encoder's. -/
theorem OwnShape.decoderOk {s t : State} {i : Instr} (hs : OwnShape s i t) (hp : PhaseHolds i s) (h : s.DecoderOk) :
    t.DecoderOk := by
  cases hs with
  | clear | decError => exact decoderPart_idle _ _ _
  | build => exact { h with built := fun _ => rfl }
  | decBegin =>
    exact {
      built := fun _ => hp
      din_empty := fun _ => rfl
      dout_empty := fun _ => ⟨rfl, rfl⟩
      din_fits := Nat.zero_le _
      dout_fits := Nat.zero_le _ }
  | decBits n d hf =>
    have ha : s.dstate = .active := hp
    exact { h with din_empty := by simp [ha], din_fits := by simpa using hf }
  | decEnd out hf =>
    have ha : s.dstate = .active := hp
    exact {
      built := fun _ => h.built (by simp [ha])
      din_empty := fun _ => rfl
      dout_empty := by simp
      din_fits := Nat.zero_le _
      dout_fits := hf }
  | _ => exact h

/-- A command's own rule keeps item 9: an error is raised with its code, and CLEAR and ACK empty the record. -/
theorem OwnShape.recordOk {s t : State} {i : Instr} (hs : OwnShape s i t) (h : s.RecordOk) : t.RecordOk := by
  cases hs with
  | clear | ack => exact recordPart_clear
  | tableError _ _ _ _ hc | encError _ _ hc | decError _ _ _ hc => exact recordPart_raised hc _
  | _ => exact h

theorem OwnShape.partsOk {s t : State} {i : Instr} (hs : OwnShape s i t) (hp : PhaseHolds i s) (h : s.PartsOk) :
    t.PartsOk := by
  obtain ⟨tree, enc, dec, rcd⟩ := h
  exact ⟨hs.treeOk hp tree, hs.encoderOk hp enc, hs.decoderOk hp dec, hs.recordOk rcd⟩

/-! ### Every machine step -/

/-- Every machine step keeps the parts. A pop moves the read pointer of a session that is DONE, where items 6 and 7
leave it free. -/
theorem StepShape.partsOk {s t : State} (hs : StepShape s t) (h : s.PartsOk) : t.PartsOk := by
  obtain ⟨tree, enc, dec, rcd⟩ := h
  cases hs with
  | always i _ hr => exact (ownShape i s.advance).partsOk (phaseHolds_of_runsOnError hr _) ⟨tree, enc, dec, rcd⟩
  | ran i _ _ _ hp =>
    exact (ownShape i s.advance).partsOk ((phaseOk_iff_phaseHolds (s := s.advance)).1 hp) ⟨tree, enc, dec, rcd⟩
  | illegal => exact ⟨tree, enc, dec, recordPart_raised (code := .illegalCommand) (by decide) _⟩
  | encPop _ hd _ => exact ⟨tree, { enc with erp_zero := fun hn => absurd hd hn }, dec, rcd⟩
  | decPop _ hd _ => exact ⟨tree, enc, { dec with dout_empty := fun hn => absurd hd hn }, rcd⟩
  | rst => exact resetBlock_partsOk _
  | _ => exact ⟨tree, enc, dec, rcd⟩

/-- Settles O57: each part of R50 is kept by the shapes of a machine step and, for a completed command, of its own
rule. -/
theorem stepKeepsR50 : Obligations.StepKeepsR50 := by
  unfold Obligations.StepKeepsR50
  intro s t h hstep
  rw [r50_iff_partsOk] at h ⊢
  exact (stepShape hstep).partsOk h

/-! ### The resident tree (R31, R70, R140) -/

/-- In COLLECT no tree is resident, so there is none to keep. -/
theorem treeResident_of_collect {s : State} (h : s.tstate = .collect) : s.TreeResident := by
  intro hb
  rw [h] at hb
  cases hb

/-- Only CLEAR, BUILD, COUNT and SETFREQ touch what TreeResident speaks of: BUILD writes the tree, and the others leave
the machine in COLLECT. -/
theorem OwnShape.treeResident {s t : State} {i : Instr} (hs : OwnShape s i t) (hp : PhaseHolds i s)
    (h : s.TreeResident) : t.TreeResident := by
  cases hs with
  | clear => exact treeResident_of_collect rfl
  | table i sym v hi _ => exact treeResident_of_collect (collect_of_phaseHolds hi hp)
  | build => exact fun _ => ⟨rfl, rfl, rfl, rfl, rfl, rfl⟩
  | _ => exact h

theorem StepShape.treeResident {s t : State} (hs : StepShape s t) (h : s.TreeResident) : t.TreeResident := by
  cases hs with
  | always i _ hr => exact (ownShape i s.advance).treeResident (phaseHolds_of_runsOnError hr _) h
  | ran i _ _ _ hp =>
    exact (ownShape i s.advance).treeResident ((phaseOk_iff_phaseHolds (s := s.advance)).1 hp) h
  | rst => exact treeResident_of_collect rfl
  | _ => exact h

/-- Settles O59: by the shapes of a machine step and, for a completed command, of its own rule. -/
theorem stepKeepsTheResidentTree : Obligations.StepKeepsTheResidentTree := by
  unfold Obligations.StepKeepsTheResidentTree
  exact fun _ _ h hstep => (stepShape hstep).treeResident h

/-! ### Who writes what (R34, R35, R36, R40, R47) -/

/-- Settles O48: the engine's step and a reset empty PEND, and of the host's accesses only an accepted CMD write fills
it. -/
theorem pendingSlotWriters : Obligations.PendingSlotWriters := by
  unfold Obligations.PendingSlotWriters
  intro s t hstep
  cases stepShape hstep with
  | always _ h | ran _ h => exact .inr (.inr ⟨rfl, .inl h.1⟩)
  | discarded h | illegal h => exact .inr (.inr ⟨rfl, .inl h⟩)
  | rst h => exact .inr (.inr ⟨rfl, .inr h⟩)
  | cmd v h hp => exact .inr (.inl ⟨v, h, hp, rfl⟩)
  | pass | read | encPop | decPop | arg | dropped | ignored => exact .inl rfl

/-- No command's own rule writes ARG (R35). -/
theorem OwnShape.arg_eq {s t : State} {i : Instr} (h : OwnShape s i t) : t.arg = s.arg := by
  cases h <;> rfl

/-- No command writes ARG, whether it runs, is discarded or raises an error (R35). -/
theorem exec_arg {i : Instr} {s t : State} (h : exec i s = .next t) : t.arg = s.arg := by
  rcases exec_cases h with ⟨-, rfl⟩ | ⟨-, -, rfl⟩ | ⟨-, -, -, rfl⟩ | ⟨-, -, -, rfl⟩
  · exact (ownShape i s).arg_eq
  · rfl
  · rfl
  · exact (ownShape i s).arg_eq

/-- A machine step writes ARG by an accepted write to it or by a reset (R35). -/
theorem StepShape.arg_cases {s t : State} (hs : StepShape s t) :
    t.arg = s.arg ∨ (s.pend = none ∧ s.HostWrites 0x14 t.arg) ∨ (s.ResetsNext ∧ t.arg = 0) := by
  cases hs with
  | always i | ran i => exact .inl (ownShape i s.advance).arg_eq
  | arg v h hp => exact .inr (.inl ⟨hp, h⟩)
  | rst h => exact .inr (.inr ⟨h, rfl⟩)
  | _ => exact .inl rfl

theorem busWrite_arg_of_idle {s : State} (v : Word) (h : s.pend = none) : busWrite .arg v s = { s with arg := v } := by
  simp [busWrite, State.busy, h]

theorem busWrite_arg_of_pending {s : State} (v : Word) (h : s.pend ≠ none) : busWrite .arg v s = s.overrun := by
  simp [busWrite, State.busy, Option.isSome_iff_ne_none, h]

theorem busRead_arg_of_idle {s : State} (h : s.pend = none) : busRead .arg s = (s.arg, s) := by
  simp [busRead, busReadAlways, State.busy, h, busReadIdle]

/-- Settles O49: each clause is one of the lemmas above. -/
theorem argWriters : Obligations.ArgWriters := by
  unfold Obligations.ArgWriters
  exact ⟨fun _ _ hstep => (stepShape hstep).arg_cases, fun _ v h => busWrite_arg_of_idle v h,
    fun _ v h => busWrite_arg_of_pending v h, fun _ _ _ h => exec_arg h, fun _ h => busRead_arg_of_idle h, rfl⟩

/-- A command's own rule leaves both results alone unless it is one of the three read commands or CLEAR (R36). -/
theorem OwnShape.results_cases {s t : State} {i : Instr} (hs : OwnShape s i t) :
    (t.result0 = s.result0 ∧ t.result1 = s.result1) ∨ i.opcode ∈ [Opcode.rdFreq, .rdNode, .rdCode] ∨
      (i = .clear ∧ t.result0 = 0 ∧ t.result1 = 0) := by
  cases hs with
  | clear => exact .inr (.inr ⟨rfl, rfl, rfl⟩)
  | results i r0 r1 hi => exact .inr (.inl (by simpa using hi))
  | _ => exact .inl ⟨rfl, rfl⟩

/-- Settles O50: by the shapes of a machine step and, for a completed command, of its own rule. -/
theorem resultWriters : Obligations.ResultWriters := by
  unfold Obligations.ResultWriters
  refine ⟨fun s t hstep => ?_, rfl, rfl⟩
  cases stepShape hstep with
  | always i h | ran i h =>
    rcases (ownShape i s.advance).results_cases with e | hi | ⟨rfl, hz⟩
    · exact .inl e
    · exact .inr (.inl ⟨i, h, hi⟩)
    · exact .inr (.inr ⟨.inl h, hz⟩)
  | rst h => exact .inr (.inr ⟨.inr h, rfl, rfl⟩)
  | _ => exact .inl ⟨rfl, rfl⟩

/-- A command's own rule leaves FT alone unless it is COUNT or SETFREQ, which change one entry, or CLEAR, which empties
it (R40). -/
theorem OwnShape.ft_cases {s t : State} {i : Instr} (hs : OwnShape s i t) :
    t.ft = s.ft ∨
    (∃ sym, (i = .count sym ∨ i = .setFreq sym) ∧ ∀ x, x ≠ sym → ftGet t.ft x = ftGet s.ft x) ∨
    (i = .clear ∧ ∀ x, ftGet t.ft x = 0) := by
  cases hs with
  | clear => exact .inr (.inr ⟨rfl, ftGet_ftEmpty⟩)
  | table i sym v hi _ => exact .inr (.inl ⟨sym, hi, fun x hx => ftGet_ftSet_ne _ _ hx.symm⟩)
  | _ => exact .inl rfl

/-- COUNT and SETFREQ are gated by ERR (R226). -/
theorem not_runsOnError_of_table {i : Instr} {sym : Symbol} (hi : i = .count sym ∨ i = .setFreq sym) :
    ¬ runsOnError i := by
  rcases hi with rfl | rfl <;> simp [runsOnError]

/-- Settles O51: by the shapes of a machine step and, for a completed command, of its own rule. -/
theorem frequencyTableWriters : Obligations.FrequencyTableWriters := by
  unfold Obligations.FrequencyTableWriters
  intro s t hstep
  cases stepShape hstep with
  | always i h hr =>
    rcases (ownShape i s.advance).ft_cases with e | ⟨sym, hi, -⟩ | ⟨rfl, hz⟩
    · exact .inl e
    · exact absurd hr (not_runsOnError_of_table hi)
    · exact .inr (.inr ⟨.inl h, hz⟩)
  | ran i h hr he hp =>
    rcases (ownShape i s.advance).ft_cases with e | ⟨sym, hi, hne⟩ | ⟨rfl, -⟩
    · exact .inl e
    · have hcol := collect_of_phaseHolds hi (phaseOk_iff_phaseHolds.1 hp)
      have hc : s.Completes (.count sym) ∨ s.Completes (.setFreq sym) := by
        rcases hi with rfl | rfl
        · exact .inl h
        · exact .inr h
      exact .inr (.inl ⟨sym, hc, hcol, he, hne⟩)
    · exact absurd (.inl rfl) hr
  | rst h => exact .inr (.inr ⟨.inr h, ftGet_ftEmpty⟩)
  | _ => exact .inl rfl

/-- No command's own rule sets OVR (R47). -/
theorem OwnShape.ovr_of_ovr {s t : State} {i : Instr} (hs : OwnShape s i t) (h : t.ovr = true) : s.ovr = true := by
  cases hs with
  | clear | ack => cases h
  | _ => exact h

/-- Settles O53: of the shapes of a machine step, only the dropped write sets OVR. -/
theorem overrunIsADroppedWrite : Obligations.OverrunIsADroppedWrite := by
  unfold Obligations.OverrunIsADroppedWrite
  intro s t hstep hs ht
  have hns : ¬ s.ovr = true := by simp [hs]
  cases stepShape hstep with
  | dropped h hp => exact ⟨hp, h, rfl⟩
  | always i | ran i => exact absurd ((ownShape i s.advance).ovr_of_ovr ht) hns
  | rst => cases ht
  | _ => exact absurd ht hns

/-! ### The words of STATUS and TREE (R29, R43) -/

/-- A value placed at bit `k` of a word reads back as the field there. -/
theorem extractLsb'_placed_same {n k : Nat} (v : BitVec n) (h : k + n ≤ 32) :
    (v.setWidth 32 <<< k).extractLsb' k n = v := by
  ext i hi
  have hlt : k + i < 32 := by omega
  simp [hlt, hi]

/-- A value placed at bit `k` of a word leaves the fields below and above it 0. -/
theorem extractLsb'_placed_disjoint {n k : Nat} (v : BitVec n) {lo len : Nat} (h : lo + len ≤ k ∨ k + n ≤ lo) :
    (v.setWidth 32 <<< k).extractLsb' lo len = 0#len := by
  ext i hi
  rcases h with below | above
  · have hlt : lo + i < k := by omega
    simp [hlt]
  · have hge : n ≤ lo + i - k := by omega
    simp [BitVec.getLsbD_of_ge v _ hge]

theorem flagWord_eq_setWidth (b : Bool) : flagWord b = (BitVec.ofBool b).setWidth 32 := by
  cases b <;> rfl

/-- STATUS, each field placed at its lowest bit (R29). -/
theorem status_eq_placed (s : State) :
    s.status = (BitVec.ofBool s.busy).setWidth 32 <<< 0 ||| (BitVec.ofBool s.err).setWidth 32 <<< 1 |||
      (BitVec.ofBool s.ovr).setWidth 32 <<< 2 ||| s.tstate.code.setWidth 32 <<< 3 |||
      s.estate.code.setWidth 32 <<< 4 ||| s.dstate.code.setWidth 32 <<< 6 := by
  simp [State.status, flagWord_eq_setWidth]

/-- TREE, each field placed at its lowest bit (R43). -/
theorem treeWord_eq_placed (s : State) :
    s.treeWord = s.root.setWidth 32 <<< 0 ||| s.nnodes.setWidth 32 <<< 10 ||| s.nleaves.setWidth 32 <<< 20 |||
      s.kind.code.setWidth 32 <<< 29 := by
  simp [State.treeWord]

theorem status_busy (s : State) : s.status.getLsbD 0 = s.pend.isSome := by
  simp [status_eq_placed, State.busy]

theorem status_err (s : State) : s.status.getLsbD 1 = s.err := by
  simp [status_eq_placed]

theorem status_ovr (s : State) : s.status.getLsbD 2 = s.ovr := by
  simp [status_eq_placed]

theorem status_tbuilt (s : State) : s.status.getLsbD 3 = decide (s.tstate = .built) := by
  cases h : s.tstate <;> simp [status_eq_placed, h, TState.code]

theorem status_estate (s : State) : s.status.extractLsb' 4 2 = s.estate.code := by
  simp (disch := omega) only [status_eq_placed, BitVec.extractLsb'_or, extractLsb'_placed_same,
    extractLsb'_placed_disjoint, BitVec.zero_or, BitVec.or_zero]

theorem status_dstate (s : State) : s.status.extractLsb' 6 2 = s.dstate.code := by
  simp (disch := omega) only [status_eq_placed, BitVec.extractLsb'_or, extractLsb'_placed_same,
    extractLsb'_placed_disjoint, BitVec.zero_or]

theorem status_reserved (s : State) : s.status.extractLsb' 8 24 = 0#24 := by
  simp (disch := omega) only [status_eq_placed, BitVec.extractLsb'_or, extractLsb'_placed_disjoint, BitVec.or_zero]

/-- The two-bit code of a session's phase (R29, R32, R33). -/
theorem Session.toNat_code (p : Session) :
    p.code.toNat = (match p with | .idle => 0 | .active => 1 | .done => 2) := by
  cases p <;> rfl

/-- The two-bit code of a tree's kind (R43). -/
theorem Kind.toNat_code (k : Kind) :
    k.code.toNat = (match k with | .none => 0 | .empty => 1 | .single => 2 | .general => 3) := by
  cases k <;> rfl

/-- Settles O46: field by field, from the placed form of STATUS. -/
theorem statusFields : Obligations.StatusFields := by
  unfold Obligations.StatusFields
  refine ⟨fun s => ⟨status_busy s, status_err s, status_ovr s, status_tbuilt s, ?_, ?_, status_reserved s, rfl⟩,
    fun _ _ => rfl, rfl⟩
  · rw [status_estate]
    exact s.estate.toNat_code
  · rw [status_dstate]
    exact s.dstate.toNat_code

theorem treeWord_root (s : State) : s.treeWord.extractLsb' 0 9 = s.root := by
  simp (disch := omega) only [treeWord_eq_placed, BitVec.extractLsb'_or, extractLsb'_placed_same,
    extractLsb'_placed_disjoint, BitVec.or_zero]

theorem treeWord_nnodes (s : State) : s.treeWord.extractLsb' 10 9 = s.nnodes := by
  simp (disch := omega) only [treeWord_eq_placed, BitVec.extractLsb'_or, extractLsb'_placed_same,
    extractLsb'_placed_disjoint, BitVec.zero_or, BitVec.or_zero]

theorem treeWord_nleaves (s : State) : s.treeWord.extractLsb' 20 9 = s.nleaves := by
  simp (disch := omega) only [treeWord_eq_placed, BitVec.extractLsb'_or, extractLsb'_placed_same,
    extractLsb'_placed_disjoint, BitVec.zero_or, BitVec.or_zero]

theorem treeWord_kind (s : State) : s.treeWord.extractLsb' 29 2 = s.kind.code := by
  simp (disch := omega) only [treeWord_eq_placed, BitVec.extractLsb'_or, extractLsb'_placed_same,
    extractLsb'_placed_disjoint, BitVec.zero_or]

/-- The bits between the fields of TREE, and its top bit, read 0 (R43). -/
theorem treeWord_reserved (s : State) :
    s.treeWord.getLsbD 9 = false ∧ s.treeWord.getLsbD 19 = false ∧ s.treeWord.getLsbD 31 = false := by
  simp [treeWord_eq_placed]

/-- Settles O47: field by field, from the placed form of TREE. -/
theorem treeWordFields : Obligations.TreeWordFields := by
  unfold Obligations.TreeWordFields
  intro s
  obtain ⟨bit9, bit19, bit31⟩ := treeWord_reserved s
  refine ⟨treeWord_root s, bit9, treeWord_nnodes s, bit19, treeWord_nleaves s, ?_, bit31⟩
  rw [treeWord_kind]
  exact s.kind.toNat_code

/-! ### The reset state (R51) -/

/-- Settles O54: the values are State.reset's own, and both tables are empty at every symbol. -/
theorem resetValues : Obligations.ResetValues := by
  unfold Obligations.ResetValues
  exact ⟨rfl, rfl, rfl, rfl, rfl, rfl, rfl, rfl, rfl, ftGet_ftEmpty, rfl, rfl, rfl, rfl, rfl, ctGet_ctEmpty, rfl, rfl,
    rfl, rfl, rfl, rfl, rfl, rfl⟩

theorem reset_inRange : State.reset.InRange where
  cfg_wf := by decide
  arena_listed := rfl
  code_length sym c h := absurd ((ctGet_ctEmpty sym).symm.trans h) (by simp)
  erp_le := Nat.zero_le _
  drp_le := Nat.zero_le _

/-- Settles O56: R50 by its parts, the ranges of the reference configuration, and no tree in COLLECT. -/
theorem invariantsHoldAtReset : Obligations.InvariantsHoldAtReset := by
  unfold Obligations.InvariantsHoldAtReset
  exact ⟨r50_iff_partsOk.2 reset_partsOk, reset_inRange, treeResident_of_collect rfl⟩

end Sys2Proof.Machine
end

section
/-! PROOFS. The family spec/20_memory.md: reads and writes of the register window by offset (O41, O42), the pops (O43),
accesses that are not a whole register (O45), and the tree while TSTATE = BUILT (O52). -/

namespace Sys2Proof.Machine

/-! ### The tables that R70 freezes -/

/-- The elements of the state that are read-only while TSTATE = BUILT (R31, R70), TSTATE among them. The draw decides what
the arena's unspecified entries read as (R145). -/
structure TreeTables where
  tstate : TState
  ft : FreqTable
  kind : Kind
  root : Index
  nnodes : Index
  nleaves : Index
  arena : List Node
  arenaDraws : Nat
  ct : CodeTable

/-- The tables as the state holds them. -/
def State.treeTables (s : State) : TreeTables where
  tstate := s.tstate
  ft := s.ft
  kind := s.kind
  root := s.root
  nnodes := s.nnodes
  nleaves := s.nleaves
  arena := s.arena
  arenaDraws := s.arenaDraws
  ct := s.ct

/-- An entry of the arena, specified or not, is read from the tables. -/
theorem node_eq_of_treeTables_eq {s t : State} (h : t.treeTables = s.treeTables) (i : Index) : t.node i = s.node i :=
  congrArg (fun tables : TreeTables => nodeAt tables.arena tables.arenaDraws i) h

/-- In BUILT no command's own rule but CLEAR's touches the tables: of the commands that write one, BUILD, COUNT and
SETFREQ run in COLLECT alone (R101). -/
theorem OwnShape.treeTables_eq {s t : State} {i : Instr} (hs : OwnShape s i t) (hp : PhaseHolds i s)
    (hb : s.tstate = .built) (hi : i ≠ .clear) : t.treeTables = s.treeTables := by
  have hnc : s.tstate ≠ .collect := by simp [hb]
  cases hs with
  | clear => exact absurd rfl hi
  | build => exact absurd hp hnc
  | table i sym v ht _ => exact absurd (collect_of_phaseHolds ht hp) hnc
  | _ => rfl

/-- In BUILT a machine step leaves the tables as they are unless it completes CLEAR or is a reset. -/
theorem StepShape.treeTables_cases {s t : State} (hs : StepShape s t) (hb : s.tstate = .built) :
    t.treeTables = s.treeTables ∨ s.Completes .clear ∨ s.ResetsNext := by
  cases hs with
  | always i hc hr =>
    by_cases hi : i = .clear
    · exact .inr (.inl (hi ▸ hc))
    · exact .inl ((ownShape i s.advance).treeTables_eq (phaseHolds_of_runsOnError hr _) hb hi)
  | ran i _ hr _ hp =>
    have hi : i ≠ .clear := fun hi => hr (.inl hi)
    exact .inl ((ownShape i s.advance).treeTables_eq ((phaseOk_iff_phaseHolds (s := s.advance)).1 hp) hb hi)
  | rst h => exact .inr (.inr h)
  | _ => exact .inl rfl

/-- Settles O52: by the shapes of a machine step and, for a completed command, of its own rule. -/
theorem treeIsReadOnlyWhileBuilt : Obligations.TreeIsReadOnlyWhileBuilt := by
  unfold Obligations.TreeIsReadOnlyWhileBuilt
  intro s t hb hstep
  refine ((stepShape hstep).treeTables_cases hb).imp_left fun h => ?_
  have hnode := node_eq_of_treeTables_eq h
  simp only [State.treeTables, TreeTables.mk.injEq] at h
  obtain ⟨htstate, hft, hkind, hroot, hnnodes, hnleaves, harena, -, hct⟩ := h
  exact ⟨htstate.trans hb, harena, hnode, hct, hft, hkind, hroot, hnnodes, hnleaves⟩

/-! ### Reads (R63, R64) -/

/-- A register with a value that no command changes gives it, and the read changes nothing (R63, first case). -/
theorem busRead_of_always {r : Reg} {s : State} {v : Word} (h : busReadAlways r s = some v) : busRead r s = (v, s) := by
  simp only [busRead, h]

/-- Any other register reads 0 while a command is pending (R63, second case). -/
theorem busRead_of_pending {r : Reg} {s : State} (hr : busReadAlways r s = none) (h : s.pend ≠ none) :
    busRead r s = (0, s) := by
  simp [busRead, hr, State.busy, Option.isSome_iff_ne_none, h]

/-- With nothing pending, every register reads as `busReadIdle` says (R63, last case). -/
theorem busRead_of_idle {r : Reg} {s : State} (h : s.pend = none) : busRead r s = busReadIdle r s := by
  cases hr : busReadAlways r s with
  | none => simp [busRead, hr, State.busy, h]
  | some v =>
    rw [busRead_of_always hr]
    cases r <;> cases hr <;> rfl

/-- A word of a bit-string holds data exactly when its first bit does (R174, R175). -/
theorem lt_wordCount {b : Bits} {k : Nat} : k < wordCount b ↔ 32 * k < b.length := by
  simp only [wordCount]
  omega

/-- What an ENC_OUT pop leaves (R175). -/
theorem encPop_snd (s : State) :
    (encPop s).2 = if s.estate = .done ∧ 32 * s.erp < s.ebuf.length then { s with erp := s.erp + 1 } else s := by
  simp only [← lt_wordCount]
  rcases encPop_cases s with ⟨hd, hl, e⟩ | ⟨hn, e⟩
  · rw [e, if_pos ⟨hd, hl⟩]
  · rw [e, if_neg hn]

/-- What a DEC_OUT pop leaves (R195). -/
theorem decPop_snd (s : State) :
    (decPop s).2 = if s.dstate = .done ∧ s.drp < s.dout.length then { s with drp := s.drp + 1 } else s := by
  rcases decPop_cases s with ⟨sym, hd, hsym, e⟩ | ⟨hn, e⟩
  · obtain ⟨hl, -⟩ := List.getElem?_eq_some_iff.1 hsym
    rw [e, if_pos ⟨hd, hl⟩]
  · rw [e, if_neg hn]

/-- A read of a register that is no pop changes nothing. -/
theorem busRead_snd_of_ne {r : Reg} (he : r ≠ .encOut) (hd : r ≠ .decOut) (s : State) : (busRead r s).2 = s := by
  rcases busRead_cases r s with e | ⟨h, -⟩ | ⟨h, -⟩
  · exact e
  · exact absurd h he
  · exact absurd h hd

/-- A read while a command is pending changes nothing. -/
theorem busRead_snd_of_pending {s : State} (hp : s.pend ≠ none) (r : Reg) : (busRead r s).2 = s := by
  rcases busRead_cases r s with e | ⟨-, h, -⟩ | ⟨-, h, -⟩
  · exact e
  · exact absurd h hp
  · exact absurd h hp

/-- Settles O43: each clause is one of the lemmas above. -/
theorem readsChangeOnlyReadPointers : Obligations.ReadsChangeOnlyReadPointers := by
  unfold Obligations.ReadsChangeOnlyReadPointers
  refine ⟨fun s _ he hd => busRead_snd_of_ne he hd s, fun _ r hp => busRead_snd_of_pending hp r, fun s h => ⟨?_, ?_⟩⟩
  · rw [busRead_of_idle h]
    exact encPop_snd s
  · rw [busRead_of_idle h]
    exact decPop_snd s

/-! ### The register map by offset (R23) -/

/-- Past ERRCMD every offset is reserved (R48). -/
theorem ofOffset_eq_reserved {off : Nat} (h : 0x44 ≤ off) : Reg.ofOffset off = .reserved := by
  fun_cases Reg.ofOffset off with
  | case18 => rfl
  | _ => omega

/-- The registers that always read are at six offsets. -/
theorem busReadAlways_ofOffset_eq_none {off : Nat} (h : off ∉ [0x00, 0x04, 0x0C, 0x30, 0x34, 0x38]) (s : State) :
    busReadAlways (Reg.ofOffset off) s = none := by
  fun_cases Reg.ofOffset off with
  | case1 | case2 | case4 | case13 | case14 | case15 => simp at h
  | _ => rfl

/-- Settles O42: the always-readable registers by definition, the others by whether a command is pending. -/
theorem busReadByOffset : Obligations.BusReadByOffset := by
  unfold Obligations.BusReadByOffset
  intro s
  refine ⟨rfl, rfl, rfl, rfl, rfl, rfl, fun hp off hoff => ?_, fun h => ?_⟩
  · exact busRead_of_pending (busReadAlways_ofOffset_eq_none hoff s) hp
  · refine ⟨busRead_of_idle h, busRead_of_idle h, busRead_of_idle h, busRead_of_idle h, busRead_of_idle h,
      busRead_of_idle h, busRead_of_idle h, busRead_of_idle h, busRead_of_idle h, busRead_of_idle h,
      busRead_of_idle h, fun k _ => ?_⟩
    rw [ofOffset_eq_reserved (Nat.le_add_right _ _)]
    exact busRead_of_idle h

/-! ### Writes (R62) -/

theorem busWrite_cmd_of_idle {s : State} (v : Word) (h : s.pend = none) :
    busWrite .cmd v s = { s with pend := some v } := by
  simp [busWrite, State.busy, h]

theorem busWrite_cmd_of_pending {s : State} (v : Word) (h : s.pend ≠ none) : busWrite .cmd v s = s.overrun := by
  simp [busWrite, State.busy, Option.isSome_iff_ne_none, h]

/-- Only CMD and ARG take a write. -/
theorem busWrite_of_ne {r : Reg} (hc : r ≠ .cmd) (ha : r ≠ .arg) (v : Word) (s : State) : busWrite r v s = s := by
  cases r with
  | cmd => exact absurd rfl hc
  | arg => exact absurd rfl ha
  | _ => rfl

/-- Settles O41: CMD and ARG with and without a pending command, and every other register. -/
theorem busWriteByOffset : Obligations.BusWriteByOffset := by
  unfold Obligations.BusWriteByOffset
  exact fun s v => ⟨busWrite_cmd_of_idle v, busWrite_cmd_of_pending v, busWrite_arg_of_idle v, busWrite_arg_of_pending v,
    fun _ hc ha => busWrite_of_ne (mt ofOffset_eq_cmd.1 hc) (mt ofOffset_eq_arg.1 ha) v s⟩

/-! ### Accesses that are not a whole register (R61) -/

/-- A read or a write that is not a whole register is refused. -/
theorem hostStep_of_notWhole {s : State} {addr bytes : Nat} (h : route s.cfg addr bytes = .notWhole) :
    hostStep (.read addr bytes) s = .refused .notAWholeRegister ∧
      ∀ v, hostStep (.write addr bytes v) s = .refused .notAWholeRegister := by
  simp only [hostStep, h, implies_true, and_self]

/-- Settles O45: such an access is routed to no register. -/
theorem partialAccessIsRefused : Obligations.PartialAccessIsRefused := by
  unfold Obligations.PartialAccessIsRefused
  intro s addr bytes rest hlo hhi hpart
  have hroute : route s.cfg addr bytes = .notWhole :=
    route_eq_notWhole.2 ⟨hlo, hhi, hpart.imp_left Nat.ne_of_lt⟩
  obtain ⟨hread, hwrite⟩ := hostStep_of_notWhole (s := { s with script := rest }) hroute
  exact ⟨fun h => (step_of_hostNext h).trans hread, fun v h => (step_of_hostNext h).trans (hwrite v)⟩

end Sys2Proof.Machine
end

section
/-! PROOFS. The family spec/30_encoding.md: decoding and encoding (O1, O2, O3), the opcode map (O4), illegal words (O5),
operands (O6), and the assembler (O7). -/

namespace Sys2Proof

/-! ### Reserved bits (R82 to R86) -/

/-- The word is one of an opcode's: it has the opcode, and no reserved bit of the opcode's format is 1 (R90). -/
def Opcode.Admits (op : Opcode) (w : Word) : Prop := opc w = op.code ∧ reservedBits op.format w = 0

/-- The reserved bits of a format are the bits next below OPC. -/
theorem reservedBits_eq_zero_iff {f : Format} {w : Word} :
    reservedBits f w = 0 ↔ field w (24 - reservedCount f) (reservedCount f) = 0 := by
  cases f <;> exact BitVec.toNat_eq (y := 0).symm

/-- An encoded command has its opcode, and its reserved bits are 0. -/
theorem admits_encode (i : Instr) : i.opcode.Admits (encode i) := by
  refine ⟨opc_encode i, reservedBits_eq_zero_iff.2 ?_⟩
  cases i with
  | nop | clear | ack | build | encBegin | encEnd | decBegin | decEnd => exact field_encodeN _
  | count sym | setFreq sym | rdFreq sym | encSym sym => exact (field_encodeS _ sym).1
  | rdNode idx => exact (field_encodeX _ idx).1
  | rdCode chunk sym => exact (field_encodeC _ chunk sym).1
  | decBits nm1 data => exact (field_encodeB _ nm1 data).1

/-! ### Operands (R87) -/

/-- The command of an opcode with the operands of R87 taken from the word. -/
def takeOperands (w : Word) : Opcode → Instr
  | .nop => .nop
  | .clear => .clear
  | .ack => .ack
  | .count => .count (field w 0 8)
  | .setFreq => .setFreq (field w 0 8)
  | .rdFreq => .rdFreq (field w 0 8)
  | .build => .build
  | .rdNode => .rdNode (field w 0 9)
  | .rdCode => .rdCode (field w 8 3) (field w 0 8)
  | .encBegin => .encBegin
  | .encSym => .encSym (field w 0 8)
  | .encEnd => .encEnd
  | .decBegin => .decBegin
  | .decBits => .decBits (field w 16 4) (field w 0 16)
  | .decEnd => .decEnd

@[simp] theorem opcode_takeOperands (w : Word) (op : Opcode) : (takeOperands w op).opcode = op := by
  cases op <;> rfl

/-- The operands of an encoded command are its own. -/
theorem takeOperands_encode (i : Instr) : takeOperands (encode i) i.opcode = i := by
  cases i with
  | nop | clear | ack | build | encBegin | encEnd | decBegin | decEnd => rfl
  | count sym | setFreq sym | rdFreq sym | encSym sym => exact congrArg _ (field_encodeS _ sym).2
  | rdNode idx => exact congrArg _ (field_encodeX _ idx).2
  | rdCode chunk sym =>
    obtain ⟨-, hchunk, hsym⟩ := field_encodeC .rdCode chunk sym
    exact congrArg₂ _ hchunk hsym
  | decBits nm1 data =>
    obtain ⟨-, hnm1, hdata⟩ := field_encodeB .decBits nm1 data
    exact congrArg₂ _ hnm1 hdata

/-- Two fields side by side are one field. -/
theorem field_append_field (w : Word) {lo len lo' len' : Nat} (h : lo' = lo + len) :
    field w lo' len' ++ field w lo len = field w lo (len' + len) :=
  BitVec.extractLsb'_append_extractLsb'_eq_extractLsb' h

/-- The field of all 32 bits is the word. -/
theorem field_all (w : Word) : field w 0 32 = w := BitVec.extractLsb'_eq_self

/-- A word that an opcode admits is the encoding of what its fields say: the fields of the format make up the word. -/
theorem encode_takeOperands {op : Opcode} {w : Word} (h : op.Admits w) : encode (takeOperands w op) = w := by
  obtain ⟨hopc, hres⟩ := h
  rw [reservedBits_eq_zero_iff] at hres
  refine Eq.trans ?_ (field_all w)
  cases op with
  | nop | clear | ack | build | encBegin | encEnd | decBegin | decEnd =>
    have hlow : field w 0 24 = 0#24 := hres
    simp only [takeOperands, encode, encodeN]
    rw [← hopc, ← hlow, opc, field_append_field w (by decide)]
  | count | setFreq | rdFreq | encSym =>
    have hlow : field w 8 16 = 0#16 := hres
    simp only [takeOperands, encode, encodeS]
    rw [← hopc, ← hlow, opc, field_append_field w (by decide), field_append_field w (by decide)]
  | rdNode =>
    have hlow : field w 9 15 = 0#15 := hres
    simp only [takeOperands, encode, encodeX]
    rw [← hopc, ← hlow, opc, field_append_field w (by decide), field_append_field w (by decide)]
  | rdCode =>
    have hlow : field w 11 13 = 0#13 := hres
    simp only [takeOperands, encode, encodeC]
    rw [← hopc, ← hlow, opc, field_append_field w (by decide), field_append_field w (by decide),
      field_append_field w (by decide)]
  | decBits =>
    have hlow : field w 20 4 = 0#4 := hres
    simp only [takeOperands, encode, encodeB]
    rw [← hopc, ← hlow, opc, field_append_field w (by decide), field_append_field w (by decide),
      field_append_field w (by decide)]

/-- Decoding the operands takes them where no reserved bit is 1, and fails elsewhere (R89). -/
theorem decodeOperands_eq (w : Word) (op : Opcode) :
    decodeOperands w op = if reservedBits op.format w = 0 then some (takeOperands w op) else none := by
  simp only [reservedBits_eq_zero_iff]
  cases op <;> rfl

/-! ### The decoder (R89) -/

/-- What decoding answers: the operands of the opcode that admits the word. -/
theorem decode_eq_some_iff {w : Word} {i : Instr} :
    decode w = some i ↔ i.opcode.Admits w ∧ takeOperands w i.opcode = i := by
  constructor
  · intro h
    obtain ⟨hopc, hops⟩ := operands_of_decode h
    rw [decodeOperands_eq, Option.ite_none_right_eq_some, Option.some.injEq] at hops
    exact ⟨⟨hopc, hops.1⟩, hops.2⟩
  · rintro ⟨⟨hopc, hres⟩, hops⟩
    rw [decode_of_opc hopc, decodeOperands_eq, if_pos hres, hops]

/-- The operands of a word that decodes are those of R87. -/
theorem takeOperands_of_decode {w : Word} {i : Instr} (h : decode w = some i) : takeOperands w i.opcode = i :=
  (decode_eq_some_iff.1 h).2

/-- Decoding and encoding are inverse to each other. -/
theorem decode_eq_some_iff_encode_eq {w : Word} {i : Instr} : decode w = some i ↔ encode i = w := by
  rw [decode_eq_some_iff]
  constructor
  · rintro ⟨hadm, hops⟩
    rw [← hops]
    exact encode_takeOperands hadm
  · rintro rfl
    exact ⟨admits_encode i, takeOperands_encode i⟩

@[simp] theorem decode_encode (i : Instr) : decode (encode i) = some i := decode_eq_some_iff_encode_eq.2 rfl

/-- An opcode admits a word exactly when the word decodes to a command of that opcode. -/
theorem admits_iff_decodes {op : Opcode} {w : Word} :
    op.Admits w ↔ ∃ i, decode w = some i ∧ i.opcode = op := by
  constructor
  · exact fun h => ⟨takeOperands w op, decode_eq_some_iff.2 (by simpa using h), opcode_takeOperands w op⟩
  · rintro ⟨i, hi, rfl⟩
    exact (decode_eq_some_iff.1 hi).1

/-- A word is illegal when no opcode admits it (R90). -/
theorem decode_eq_none_iff {w : Word} : decode w = none ↔ ∀ op : Opcode, ¬ op.Admits w := by
  simp only [admits_iff_decodes, Option.eq_none_iff_forall_ne_some]
  exact ⟨fun h op ⟨i, hi, _⟩ => h i hi, fun h i hi => h i.opcode ⟨i, hi, rfl⟩⟩

/-- Settles O2: a command's word is one its opcode admits, and its operands read back. -/
theorem decodeEncode : Obligations.DecodeEncode := by
  unfold Obligations.DecodeEncode
  exact fun i _ => decode_encode i

/-- Settles O3: the fields of a word that decodes make up the word. -/
theorem encodeDecode : Obligations.EncodeDecode := by
  unfold Obligations.EncodeDecode
  exact fun _ _ => decode_eq_some_iff_encode_eq.1

/-- Settles O1: the words are fixed, and the decoder answers each. -/
theorem specWordsDecode : Obligations.SpecWordsDecode := by
  unfold Obligations.SpecWordsDecode
  decide

/-! ### The opcode map (R88) -/

/-- A row's match and mask are those of its opcode and its format. -/
theorem opcodeMap_row : ∀ r ∈ opcodeMap, r.mtch = r.op.code.zeroExtend 32 <<< 24 ∧
    r.mask = 0xFFFFFFFF <<< (24 - reservedCount r.op.format) := by decide

/-- The map has one row for each opcode. -/
theorem opcodeMap_filter_op (op : Opcode) :
    (opcodeMap.filter fun r => decide (r.op = op)).map OpcodeRow.op = [op] := by
  cases op <;> rfl

/-- A mask of ones from bit `lo` up. -/
theorem getLsbD_ones_shiftLeft (lo : Nat) {j : Nat} (hj : j < 32) :
    ((0xFFFFFFFF <<< lo : Nat) : Word).getLsbD j = decide (lo ≤ j) := by
  rw [show 0xFFFFFFFF = 2 ^ 32 - 1 from rfl]
  have hlt : j - lo < 32 := by omega
  simp only [BitVec.natCast_eq_ofNat, BitVec.getLsbD_ofNat, Nat.testBit_shiftLeft, Nat.testBit_two_pow_sub_one]
  simp [hj, hlt]

/-- The comparison of R88 bit by bit. -/
theorem and_mask_eq_iff_bits {w : Word} {c : BitVec 8} {lo : Nat} :
    w &&& 0xFFFFFFFF <<< lo = c.zeroExtend 32 <<< 24 ↔
      ∀ j, j < 32 → (w.getLsbD j && decide (lo ≤ j)) = (!decide (j < 24) && c.getLsbD (j - 24)) := by
  rw [BitVec.eq_of_getLsbD_eq_iff]
  refine forall_congr' fun j => forall_congr' fun hj => ?_
  rw [BitVec.getLsbD_and, getLsbD_ones_shiftLeft _ hj]
  simp [hj]

/-- Comparing a word under a mask of OPC and the `len` bits below it compares OPC, and those bits with 0. -/
theorem and_mask_eq_iff {w : Word} {c : BitVec 8} {lo len : Nat} (hlo : lo + len = 24) :
    w &&& 0xFFFFFFFF <<< lo = c.zeroExtend 32 <<< 24 ↔ opc w = c ∧ field w lo len = 0 := by
  rw [and_mask_eq_iff_bits]
  constructor
  · intro h
    constructor
    · ext i hi
      have hle : lo ≤ 24 + i := by omega
      simpa [opc, field, hle, BitVec.getLsbD_eq_getElem hi] using h (24 + i) (by omega)
    · ext i hi
      have hlt : lo + i < 24 := by omega
      simpa [field, hlt] using h (lo + i) (by omega)
  · rintro ⟨rfl, hres⟩ j hj
    by_cases hopc : j < 24
    · by_cases hle : lo ≤ j
      · have hlt : j - lo < len := by omega
        simpa [field, hopc, hle, hlt] using congrArg (BitVec.getLsbD · (j - lo)) hres
      · simp [hopc, hle]
    · have hle : lo ≤ j := by omega
      have hlt : j - 24 < 8 := by omega
      simp [opc, field, hopc, hle, hlt, Nat.add_sub_cancel' (Nat.not_lt.1 hopc)]

theorem reservedCount_le (f : Format) : reservedCount f ≤ 24 := by cases f <;> decide

/-- A word selects a row exactly when the row's opcode admits it (R88, R90). -/
theorem selects_iff_admits {r : OpcodeRow} (hr : r ∈ opcodeMap) {w : Word} : r.selects w = true ↔ r.op.Admits w := by
  obtain ⟨hmtch, hmask⟩ := opcodeMap_row r hr
  rw [OpcodeRow.selects, beq_iff_eq, hmtch, hmask, and_mask_eq_iff (Nat.sub_add_cancel (reservedCount_le _)),
    Opcode.Admits, reservedBits_eq_zero_iff]

/-- A word that decodes selects the one row of its command's opcode. -/
theorem filter_selects_of_decode {w : Word} {i : Instr} (h : decode w = some i) :
    (opcodeMap.filter fun r => r.selects w).map OpcodeRow.op = [i.opcode] := by
  have hsel : ∀ r ∈ opcodeMap, r.selects w = decide (r.op = i.opcode) := by
    intro r hr
    rw [Bool.eq_iff_iff, selects_iff_admits hr, admits_iff_decodes, h, decide_eq_true_iff]
    simp [eq_comm]
  rw [List.filter_congr hsel, opcodeMap_filter_op]

/-- Settles O4: a word selects the rows whose opcode admits it, and these are its command's alone. -/
theorem legalWordSelectsOneRow : Obligations.LegalWordSelectsOneRow := by
  unfold Obligations.LegalWordSelectsOneRow
  refine ⟨opcodeMap_row, fun w => ⟨fun i hi => filter_selects_of_decode hi, fun hnone => ?_⟩⟩
  rw [List.filter_eq_nil_iff]
  exact fun r hr hsel => decode_eq_none_iff.1 hnone r.op ((selects_iff_admits hr).1 hsel)

/-! ### Illegal words (R90) -/

/-- Distinct opcodes have distinct codes (R88). -/
theorem Opcode.code_injective : Function.Injective Opcode.code := fun a b h => by
  simpa using congrArg Opcode.ofCode h

/-- The two kinds of illegal word. -/
theorem decode_eq_none_iff_undefined_or_reserved {w : Word} : decode w = none ↔
    (∀ op : Opcode, op.code ≠ opc w) ∨ (∃ op : Opcode, op.code = opc w ∧ reservedBits op.format w ≠ 0) := by
  rw [decode_eq_none_iff]
  constructor
  · intro hadm
    by_cases hdef : ∃ op : Opcode, op.code = opc w
    · obtain ⟨op, hop⟩ := hdef
      exact .inr ⟨op, hop, fun hres => hadm op ⟨hop.symm, hres⟩⟩
    · exact .inl (not_exists.1 hdef)
  · rintro (hundef | ⟨op, hop, hres⟩) op' ⟨hop', hres'⟩
    · exact hundef op' hop'.symm
    · obtain rfl := Opcode.code_injective (hop.trans hop')
      exact hres hres'

/-- Of the 256 codes, 241 are no opcode's. -/
theorem countP_undefined :
    ((List.range 256).countP fun n => Opcode.all.all fun op => op.code != BitVec.ofNat 8 n) = 241 := by
  decide +kernel

end Sys2Proof

namespace Sys2Proof.Machine

/-- With an illegal word pending, the engine step is that of an illegal word. -/
theorem engineStep_of_illegal {s : State} {w : Word} (hp : s.pend = some w) (hw : decode w = none) :
    engineStep s = runIllegal s := by
  simp only [engineStep, hp, hw]

theorem runIllegal_of_err {s : State} (h : s.err = true) : runIllegal s = .next { s with pend := none } := by
  simp [runIllegal, retire, h]

theorem runIllegal_of_noErr {s : State} {w : Word} (hp : s.pend = some w) (h : s.err = false) : runIllegal s =
    .next { s with pend := none, err := true, errcode := .illegalCommand, errcmd := w } := by
  simp [runIllegal, retire, raise, h, hp]

/-- Settles O5: the two kinds of illegal word, a count over the 256 codes, the two outcomes by ERR, and NOP's one word. -/
theorem illegalWords : Obligations.IllegalWords := by
  unfold Obligations.IllegalWords
  refine ⟨fun w => decode_eq_none_iff_undefined_or_reserved, countP_undefined, fun s w hp hw => ?_,
    fun w => decode_eq_some_iff_encode_eq.trans eq_comm⟩
  rw [engineStep_of_illegal hp hw]
  exact ⟨runIllegal_of_noErr hp, runIllegal_of_err⟩

/-! ### Operand assembly (R87, R91) -/

/-- `bits(w)` depends on the counted bits alone (R91). -/
theorem streamBits_congr {nm1 : BitVec 4} {d e : BitVec 16} (h : ∀ k, k ≤ nm1.toNat → d.getMsbD k = e.getMsbD k) :
    streamBits nm1 d = streamBits nm1 e :=
  List.map_congr_left fun k hk => h k (Nat.le_of_lt_succ (List.mem_range.1 hk))

/-- DEC_BITS uses DATA through its bit list alone. -/
theorem decBitsOwn_congr {nm1 : BitVec 4} {d e : BitVec 16} (h : streamBits nm1 d = streamBits nm1 e) :
    decBitsOwn nm1 d = decBitsOwn nm1 e := by
  funext s
  simp only [decBitsOwn, h]

/-- In phase, SETFREQ puts the whole of an ARG that is not 0 into the table (R121). -/
theorem exec_setFreq_table (sym : Symbol) {s : State} (he : s.err = false) (ht : s.tstate = .collect)
    (harg : s.arg ≠ 0) : ∃ t, exec (.setFreq sym) s = .next t ∧ ftGet t.ft sym = s.arg := by
  have hrun : exec (.setFreq sym) s = .next (retire (setFreqOwn sym s)) :=
    exec_of_phase (by simp [runsOnError]) he (phaseOk_iff_phaseHolds.2 ht)
  refine ⟨_, hrun, ?_⟩
  rcases setFreqOwn_cases sym s with ⟨hzero, -⟩ | ⟨-, hown⟩
  · exact absurd hzero harg
  · rw [hown]
    exact ftGet_ftSet_self _ _ _

/-- Bit `k` of DATA, counted from its first bit, is bit `15 - k` of the word (R87). -/
theorem getMsbD_data (w : Word) {k : Nat} (h : k < 16) : (field w 0 16).getMsbD k = w.getLsbD (15 - k) := by
  have hlt : 15 - k < 16 := by omega
  simp [field, BitVec.getMsbD_eq_getLsbD, h, hlt]

/-- Settles O6: the operands of a word that decodes are taken from its fields. -/
theorem operandAssembly : Obligations.OperandAssembly := by
  unfold Obligations.OperandAssembly
  refine ⟨?_, fun w idx h => ?_, fun w chunk sym h => ?_, fun w nm1 data h => ?_, fun nm1 d e s h => ?_,
    fun sym s => exec_setFreq_table sym⟩
  · rintro w sym (h | h | h | h) <;> injection takeOperands_of_decode h with hsym <;> exact hsym.symm
  · injection takeOperands_of_decode h with hidx
    exact hidx.symm
  · injection takeOperands_of_decode h with hchunk hsym
    exact ⟨hchunk.symm, hsym.symm⟩
  · injection takeOperands_of_decode h with hnm1 hdata
    subst hnm1 hdata
    refine ⟨length_streamBits _ _, fun k hk => (getElem?_streamBits _ _ hk).trans ?_⟩
    rw [getMsbD_data w (Nat.lt_of_lt_of_le hk (bitCount_le _))]
  · exact congrArg (runGated .decBits · s) (decBitsOwn_congr (streamBits_congr h))

/-! ### The assembler (R92) -/

/-- A number that fits `n` bits is the `n`-bit value placed at bit 0. -/
theorem ofNat_eq_zeroExtend {n v : Nat} (h : v < 2 ^ n) : BitVec.ofNat 32 v = (BitVec.ofNat n v).zeroExtend 32 := by
  apply BitVec.eq_of_toNat_eq
  simp [Nat.mod_eq_of_lt h]

theorem encodeN_eq_placed (op : Opcode) : encodeN op = op.code.zeroExtend 32 <<< 24 := by
  have h : (op.code ++ 0#24).setWidth 32 = _ := BitVec.setWidth_append_eq_shiftLeft_setWidth_or
  simpa [encodeN] using h

theorem encodeS_eq_placed (op : Opcode) (sym : Symbol) :
    encodeS op sym = op.code.zeroExtend 32 <<< 24 ||| sym.zeroExtend 32 := by
  have h : (op.code ++ 0#16 ++ sym).setWidth 32 = _ := BitVec.setWidth_append_append_eq_shiftLeft_setWidth_or
  simpa [encodeS] using h

theorem encodeX_eq_placed (op : Opcode) (idx : Index) :
    encodeX op idx = op.code.zeroExtend 32 <<< 24 ||| idx.zeroExtend 32 := by
  have h : (op.code ++ 0#15 ++ idx).setWidth 32 = _ := BitVec.setWidth_append_append_eq_shiftLeft_setWidth_or
  simpa [encodeX] using h

theorem encodeC_eq_placed (op : Opcode) (chunk : BitVec 3) (sym : Symbol) : encodeC op chunk sym =
    op.code.zeroExtend 32 <<< 24 ||| chunk.zeroExtend 32 <<< 8 ||| sym.zeroExtend 32 := by
  have h : (op.code ++ 0#13 ++ chunk ++ sym).setWidth 32 = _ :=
    BitVec.setWidth_append_append_append_eq_shiftLeft_setWidth_or
  simpa [encodeC] using h

theorem encodeB_eq_placed (op : Opcode) (nm1 : BitVec 4) (data : BitVec 16) : encodeB op nm1 data =
    op.code.zeroExtend 32 <<< 24 ||| nm1.zeroExtend 32 <<< 16 ||| data.zeroExtend 32 := by
  have h : (op.code ++ 0#4 ++ nm1 ++ data).setWidth 32 = _ :=
    BitVec.setWidth_append_append_append_eq_shiftLeft_setWidth_or
  simpa [encodeB] using h

/-- NM1 of the DEC_BITS command that carries a bit-string of 1 to 16 bits. -/
def lineNm1 (b : Bits) : BitVec 4 := BitVec.ofNat 4 (b.length - 1)

/-- DATA of that command: the bit-string left-aligned, zeros below it. -/
def lineData (b : Bits) : BitVec 16 := BitVec.ofNat 16 (bitsValue b <<< (16 - b.length))

theorem bitCount_lineNm1 {b : Bits} (hpos : 1 ≤ b.length) (hle : b.length ≤ 16) :
    bitCount (lineNm1 b) = b.length := by
  simp only [bitCount, lineNm1, BitVec.toNat_ofNat]
  omega

/-- The first bit of the bit-string is DATA[15] (R86). -/
theorem getMsbD_lineData {b : Bits} (hle : b.length ≤ 16) {k : Nat} (hk : k < b.length) :
    (lineData b).getMsbD k = b[k] := by
  have hlow : 16 - b.length ≤ 16 - 1 - k := by omega
  have hbit : 16 - 1 - k - (16 - b.length) = b.length - 1 - k := by omega
  have hlt : k < 16 := by omega
  have hlt' : 16 - 1 - k < 16 := by omega
  rw [lineData, BitVec.getMsbD_eq_getLsbD, BitVec.getLsbD_ofNat, Nat.testBit_shiftLeft, hbit, testBit_bitsValue hk]
  simp only [hlow, hlt, hlt', decide_true, Bool.true_and, List.getD_eq_getElem _ _ hk]

/-- The command carries the bit-string. -/
theorem streamBits_line {b : Bits} (hpos : 1 ≤ b.length) (hle : b.length ≤ 16) :
    streamBits (lineNm1 b) (lineData b) = b := by
  refine List.ext_getElem (by rw [length_streamBits, bitCount_lineNm1 hpos hle]) fun k _ hk => ?_
  simp [streamBits, getMsbD_lineData hle hk]

/-- The number of the bit-string, left-aligned in 16 bits, fits them. -/
theorem bitsValue_shiftLeft_lt {b : Bits} (hle : b.length ≤ 16) : bitsValue b <<< (16 - b.length) < 2 ^ 16 := by
  rw [Nat.shiftLeft_eq]
  calc bitsValue b * 2 ^ (16 - b.length)
      < 2 ^ b.length * 2 ^ (16 - b.length) := Nat.mul_lt_mul_of_pos_right (bitsValue_lt b) (Nat.two_pow_pos _)
    _ = 2 ^ 16 := by rw [← Nat.pow_add, Nat.add_sub_cancel' hle]

/-- R92 writes DATA as the shifted number of the bit-string. -/
theorem ofNat_bitsValue_shiftLeft {b : Bits} (hle : b.length ≤ 16) :
    BitVec.ofNat 32 (bitsValue b) <<< (16 - b.length) = (lineData b).zeroExtend 32 := by
  rw [lineData, ← ofNat_eq_zeroExtend (bitsValue_shiftLeft_lt hle)]
  apply BitVec.eq_of_toNat_eq
  simp [Nat.shiftLeft_eq]

/-- A bare mnemonic is one of format N. -/
theorem bare_wellFormed {op : Opcode} : (AsmLine.bare op).wellFormed = true ↔ op.format = .n := beq_iff_eq

theorem withSym_wellFormed {op : Opcode} {n : Nat} :
    (AsmLine.withSym op n).wellFormed = true ↔ op.format = .s ∧ n < 256 := by
  simp [AsmLine.wellFormed]

theorem rdNode_wellFormed {n : Nat} : (AsmLine.rdNode n).wellFormed = true ↔ n < 512 := decide_eq_true_iff

theorem rdCode_wellFormed {n k : Nat} : (AsmLine.rdCode n k).wellFormed = true ↔ n < 256 ∧ k < 8 := by
  simp [AsmLine.wellFormed]

theorem decBits_wellFormed {b : Bits} : (AsmLine.decBits b).wellFormed = true ↔ 1 ≤ b.length ∧ b.length ≤ 16 := by
  simp [AsmLine.wellFormed]

theorem assemble_of_not_wellFormed {l : AsmLine} (h : l.wellFormed = false) : l.assemble = none := by
  simp [AsmLine.assemble, h]

theorem assemble_bare {op : Opcode} (h : (AsmLine.bare op).wellFormed = true) :
    (AsmLine.bare op).assemble = some (encodeN op) := by
  rw [encodeN_eq_placed, AsmLine.assemble, if_pos h]

theorem assemble_withSym {op : Opcode} {n : Nat} (h : (AsmLine.withSym op n).wellFormed = true) :
    (AsmLine.withSym op n).assemble = some (encodeS op (BitVec.ofNat 8 n)) := by
  obtain ⟨-, hn⟩ := withSym_wellFormed.1 h
  rw [encodeS_eq_placed, ← ofNat_eq_zeroExtend hn, AsmLine.assemble, if_pos h]

theorem assemble_rdNode {n : Nat} (h : (AsmLine.rdNode n).wellFormed = true) :
    (AsmLine.rdNode n).assemble = some (encode (.rdNode (BitVec.ofNat 9 n))) := by
  rw [encode, encodeX_eq_placed, ← ofNat_eq_zeroExtend (rdNode_wellFormed.1 h), AsmLine.assemble, if_pos h]

theorem assemble_rdCode {n k : Nat} (h : (AsmLine.rdCode n k).wellFormed = true) :
    (AsmLine.rdCode n k).assemble = some (encode (.rdCode (BitVec.ofNat 3 k) (BitVec.ofNat 8 n))) := by
  obtain ⟨hn, hk⟩ := rdCode_wellFormed.1 h
  rw [encode, encodeC_eq_placed, ← ofNat_eq_zeroExtend (n := 8) hn, ← ofNat_eq_zeroExtend (n := 3) hk,
    AsmLine.assemble, if_pos h]

theorem assemble_decBits {b : Bits} (h : (AsmLine.decBits b).wellFormed = true) :
    (AsmLine.decBits b).assemble = some (encode (.decBits (lineNm1 b) (lineData b))) := by
  obtain ⟨hpos, hle⟩ := decBits_wellFormed.1 h
  have hnm1 : b.length - 1 < 2 ^ 4 := by omega
  rw [encode, encodeB_eq_placed, ← ofNat_bitsValue_shiftLeft hle, lineNm1, ← ofNat_eq_zeroExtend hnm1, AsmLine.assemble,
    if_pos h]

/-- An opcode of format N is a command's, and its word is the command's encoding. -/
theorem exists_encode_eq_encodeN {op : Opcode} (h : op.format = .n) : ∃ i, encode i = encodeN op ∧ i.opcode = op := by
  refine ⟨takeOperands 0 op, ?_, opcode_takeOperands 0 op⟩
  cases op with
  | nop | clear | ack | build | encBegin | encEnd | decBegin | decEnd => rfl
  | count | setFreq | rdFreq | encSym | rdNode | rdCode | decBits => cases h

/-- The four commands of format S, with their symbol. -/
theorem exists_encode_eq_encodeS {op : Opcode} (h : op.format = .s) (sym : Symbol) :
    ∃ i, encode i = encodeS op sym ∧ (op, i) ∈
      [(.count, .count sym), (.setFreq, .setFreq sym), (.rdFreq, .rdFreq sym), (.encSym, .encSym sym)] := by
  cases op with
  | count => exact ⟨.count sym, rfl, by simp⟩
  | setFreq => exact ⟨.setFreq sym, rfl, by simp⟩
  | rdFreq => exact ⟨.rdFreq sym, rfl, by simp⟩
  | encSym => exact ⟨.encSym sym, rfl, by simp⟩
  | nop | clear | ack | build | encBegin | encEnd | decBegin | decEnd | rdNode | rdCode | decBits => cases h

/-- Settles O7: each form of line assembles to the encoding of the command it names. -/
theorem assembledLines : Obligations.AssembledLines := by
  unfold Obligations.AssembledLines
  refine ⟨fun _ => assemble_of_not_wellFormed, fun l hl => ?_⟩
  cases l with
  | bare op =>
    obtain ⟨i, hi, hop⟩ := exists_encode_eq_encodeN (bare_wellFormed.1 hl)
    exact ⟨_, i, assemble_bare hl, hi ▸ decode_encode i, hop⟩
  | withSym op n =>
    obtain ⟨hfmt, -⟩ := withSym_wellFormed.1 hl
    obtain ⟨i, hi, hmem⟩ := exists_encode_eq_encodeS hfmt (BitVec.ofNat 8 n)
    exact ⟨_, i, assemble_withSym hl, hi ▸ decode_encode i, hmem⟩
  | rdNode n => exact ⟨_, _, assemble_rdNode hl, decode_encode _, rfl⟩
  | rdCode n k => exact ⟨_, _, assemble_rdCode hl, decode_encode _, rfl⟩
  | decBits b =>
    obtain ⟨hpos, hle⟩ := decBits_wellFormed.1 hl
    exact ⟨_, _, assemble_decBits hl, decode_encode _, _, _, rfl, streamBits_line hpos hle⟩

end Sys2Proof.Machine
end

section
/-! PROOFS. The family spec/40_control.md: a machine step on the engine's turn (O8), acceptance and the engine's step by
its cases (O9), and the control commands NOP, CLEAR and ACK (O15, O16, O17). -/

namespace Sys2Proof.Machine

/-! ### The engine's step, case by case (R100) -/

/-- With a legal word pending, the engine step is its command's completion. -/
theorem engineStep_of_legal {s : State} {w : Word} {i : Instr} (hp : s.pend = some w) (hw : decode w = some i) :
    engineStep s = exec i s := by
  simp only [engineStep, hp, hw]

/-- With none pending, the engine's turn passes. -/
theorem engineStep_of_idle {s : State} (hp : s.pend = none) : engineStep s = .next s := by
  simp only [engineStep, hp]

/-- CLEAR runs whatever ERR is (R104, R226). -/
theorem exec_clear (s : State) : exec .clear s = .next { clearBlock s with pend := none } :=
  exec_of_runsOnError (.inl rfl) s

/-- ACK runs whatever ERR is (R105, R226). -/
theorem exec_ack (s : State) : exec .ack s = .next { acknowledge s with pend := none } :=
  exec_of_runsOnError (.inr rfl) s

/-- While ERR = 1 a gated command is discarded (R226). -/
theorem exec_of_err {i : Instr} {s : State} (hr : ¬ runsOnError i) (he : s.err = true) :
    exec i s = .next { s with pend := none } := by
  rw [exec_of_gated hr, runGated_of_err he]
  rfl

/-- With ERR = 0 a command that is in its phase runs its own rule, gated or not. -/
theorem exec_of_phaseHolds {i : Instr} {s : State} (he : s.err = false) (hp : PhaseHolds i s) :
    exec i s = .next (retire (ownRule i s)) := by
  by_cases hr : runsOnError i
  · rw [exec_of_runsOnError hr]
    rfl
  · exact exec_of_phase hr he (phaseOk_iff_phaseHolds.2 hp)

/-- Every command is illegal out of its phase, and its word goes on record (R102). -/
theorem illegalOutOfPhase (i : Instr) : IllegalOutOfPhase i := by
  intro s w he hw hp
  have hr : ¬ runsOnError i := fun h => hp (phaseHolds_of_runsOnError h s)
  have hphase : phaseOk i.opcode s = false := Bool.eq_false_iff.2 (mt phaseOk_iff_phaseHolds.1 hp)
  rw [exec_of_gated hr, runGated_of_outOfPhase he hphase]
  simp [retire, raise, hw]

/-- While ERR = 1 the engine discards every word, legal or not, but CLEAR's and ACK's (R226). -/
theorem engineStep_of_err {s : State} {w : Word} (hp : s.pend = some w) (he : s.err = true)
    (hclear : decode w ≠ some .clear) (hack : decode w ≠ some .ack) : engineStep s = .next { s with pend := none } := by
  cases hw : decode w with
  | none => rw [engineStep_of_illegal hp hw, runIllegal_of_err he]
  | some i =>
    have hr : ¬ runsOnError i := by
      rintro (rfl | rfl)
      · exact hclear hw
      · exact hack hw
    rw [engineStep_of_legal hp hw, exec_of_err hr he]

/-! ### The error record under a command's own rule (R222, R227) -/

/-- An error that an own rule raises goes on record with its code and with the pending word. -/
theorem OwnShape.record_of_err {s t : State} {i : Instr} {w : Word} (hs : OwnShape s i t) (he : s.err = false)
    (hw : s.pend = some w) (ht : t.err = true) : t.errcmd = w ∧ t.errcode ≠ .none := by
  have hn : ¬ s.err = true := by simp [he]
  cases hs with
  | tableError _ _ _ _ hc | encError _ _ hc | decError _ _ _ hc => exact ⟨by simp [hw], hc⟩
  | clear | ack => cases ht
  | _ => exact absurd ht hn

/-- A gated command's own rule that leaves ERR = 0 leaves the record alone. -/
theorem OwnShape.record_eq {s t : State} {i : Instr} (hs : OwnShape s i t) (hr : ¬ runsOnError i)
    (ht : t.err = false) : t.errcode = s.errcode ∧ t.errcmd = s.errcmd := by
  cases hs with
  | clear => exact absurd (.inl rfl) hr
  | ack => exact absurd (.inr rfl) hr
  | tableError | encError | decError => cases ht
  | _ => exact ⟨rfl, rfl⟩

/-- Settles O9: an accepted write, and the engine's step by ERR, by what the word decodes to and by the phase. -/
theorem engineStepDispatch : Obligations.EngineStepDispatch := by
  unfold Obligations.EngineStepDispatch
  refine ⟨fun _ w h => busWrite_cmd_of_idle w h, fun s w hp => ⟨fun _ hw => ?_, fun _ hw => ?_, engineStep_of_err hp,
    fun he hw => ?_, fun i he hw hph => ?_, fun i he hw hph => ?_⟩⟩
  · rw [engineStep_of_legal hp hw, exec_clear]
  · rw [engineStep_of_legal hp hw, exec_ack]
  · rw [engineStep_of_illegal hp hw, runIllegal_of_noErr hp he]
  · rw [engineStep_of_legal hp hw, illegalOutOfPhase i s w he hp hph]
  · have hexec := exec_of_phaseHolds he hph
    have hshape := ownShape i s
    exact ⟨_, (engineStep_of_legal hp hw).trans hexec, hexec, rfl, hshape.record_of_err he hp,
      fun ht hclear hack => hshape.record_eq (not_or.2 ⟨hclear, hack⟩) ht⟩

/-! ### A machine step on the engine's turn (R11) -/

/-- Settles O8: the engine's turn is the engine's step, on the schedule moved on. -/
theorem stepRunsTheDecodedCommand : Obligations.StepRunsTheDecodedCommand := by
  unfold Obligations.StepRunsTheDecodedCommand
  refine ⟨fun s w _ hn => step_of_engineNext hn, fun s w i hp hw _ => ⟨fun hs => ?_, fun rest hs => ?_⟩,
    fun s hp hn => ?_⟩
  · rw [step_of_engineNext (.inl hs), advance_of_nil hs, engineStep_of_legal hp hw]
  · rw [step_of_engineNext (.inr ⟨rest, hs⟩), State.advance, hs, List.tail_cons]
    exact engineStep_of_legal hp hw
  · rw [step_of_engineNext hn]
    exact engineStep_of_idle hp

/-! ### NOP, CLEAR and ACK -/

/-- Settles O15: NOP's own rule is the identity and its phase is every phase, so both values of ERR only retire it. -/
theorem nopDoesNothing : Obligations.NopDoesNothing := by
  unfold Obligations.NopDoesNothing
  refine ⟨decode_encode .nop, fun s => ?_, fun s v hp => busWrite_cmd_of_pending v (by simp [hp])⟩
  rcases Bool.eq_false_or_eq_true s.err with he | he
  · exact exec_of_err (i := .nop) (by simp [runsOnError]) he
  · exact exec_of_phaseHolds (i := .nop) he trivial

/-- Only CLEAR has CLEAR's opcode. -/
theorem eq_clear_of_opcode {i : Instr} (h : i.opcode = .clear) : i = .clear := by
  cases i with
  | clear => rfl
  | _ => cases h

/-- Of the words with CLEAR's opcode, only the one without a reserved bit is legal (R82, R90). -/
theorem decode_eq_none_of_clear_reserved {w : Word} (hopc : opc w = Opcode.clear.code) (hne : w ≠ encode .clear) :
    decode w = none := by
  cases hw : decode w with
  | none => rfl
  | some i =>
    obtain ⟨hcode, -⟩ := operands_of_decode hw
    obtain rfl := eq_clear_of_opcode (Opcode.code_injective (hcode.symm.trans hopc))
    exact absurd (decode_eq_some_iff_encode_eq.1 hw).symm hne

/-- After CLEAR, STATUS and TREE read as they do after a reset (R29, R43, R104). -/
theorem status_treeWord_of_clear (s : State) : { clearBlock s with pend := none }.status = 0 ∧
    { clearBlock s with pend := none }.treeWord = 0 := by
  have hreset : State.reset.status = 0 ∧ State.reset.treeWord = 0 := by decide
  exact hreset

/-- Settles O16: CLEAR's own rule writes every element but ARG, and a CLEAR word with a reserved bit set is illegal. -/
theorem clearIsASoftReset : Obligations.ClearIsASoftReset := by
  unfold Obligations.ClearIsASoftReset
  refine ⟨decode_encode .clear, fun s => ⟨_, exec_clear s, rfl, status_treeWord_of_clear s⟩, fun s w hp hopc hne => ?_⟩
  rw [engineStep_of_illegal hp (decode_eq_none_of_clear_reserved hopc hne)]
  exact ⟨runIllegal_of_err, runIllegal_of_noErr hp⟩

/-- Settles O17: ACK runs its own rule whatever ERR is. -/
theorem ackClearsTheRecord : Obligations.AckClearsTheRecord := by
  unfold Obligations.AckClearsTheRecord
  exact ⟨decode_encode .ack, exec_ack⟩

end Sys2Proof.Machine
end

section
/-! PROOFS. The family spec/41_frequency.md: COUNT (O18), SETFREQ and the entries that only CLEAR empties (O19), a whole
pass of COUNT (O21), and RD_FREQ (O20). -/

namespace Sys2Proof.Machine

/-! ### COUNT (R120, R124) -/

/-- FT with one more occurrence of a symbol. -/
def ftIncr (ft : FreqTable) (sym : Symbol) : FreqTable := ftSet ft sym (ftGet ft sym + 1)

theorem ftGet_ftIncr_ne (ft : FreqTable) {x sym : Symbol} (h : x ≠ sym) : ftGet (ftIncr ft sym) x = ftGet ft x :=
  ftGet_ftSet_ne _ _ h.symm

/-- Below FREQ_MAX one more occurrence does not wrap (R124). -/
theorem toNat_ftGet_ftIncr_self {ft : FreqTable} {sym : Symbol} (h : ftGet ft sym ≠ Config.freqMax) :
    (ftGet (ftIncr ft sym) sym).toNat = (ftGet ft sym).toNat + 1 := by
  rw [ftIncr, ftGet_ftSet_self]
  simp only [Config.freqMax] at h
  bv_omega

/-- Every counter after one more occurrence, as numbers. -/
theorem toNat_ftGet_ftIncr {ft : FreqTable} {sym : Symbol} (h : ftGet ft sym ≠ Config.freqMax) (x : Symbol) :
    (ftGet (ftIncr ft sym) x).toNat = (ftGet ft x).toNat + [sym].count x := by
  by_cases hx : x = sym
  · subst hx
    simp [toNat_ftGet_ftIncr_self h]
  · simp [ftGet_ftIncr_ne ft hx, Ne.symm hx]

/-- In COLLECT with ERR = 0 and below FREQ_MAX, COUNT adds one occurrence and changes nothing else. -/
theorem exec_count_of_ne_max {sym : Symbol} {s : State} (he : s.err = false) (ht : s.tstate = .collect)
    (hne : ftGet s.ft sym ≠ Config.freqMax) :
    exec (.count sym) s = .next { s with pend := none, ft := ftIncr s.ft sym } := by
  rw [exec_of_phaseHolds (i := .count sym) he ht, ownRule, countOwn, if_neg hne]
  rfl

/-- In COLLECT with ERR = 0, COUNT at FREQ_MAX raises CAPACITY_EXCEEDED. -/
theorem exec_count_of_max {sym : Symbol} {s : State} (he : s.err = false) (ht : s.tstate = .collect)
    (hmax : ftGet s.ft sym = Config.freqMax) :
    exec (.count sym) s = .next (retire (raise .capacityExceeded s)) := by
  rw [exec_of_phaseHolds (i := .count sym) he ht, ownRule, countOwn, if_pos hmax]

/-- Settles O18: COUNT adds one below FREQ_MAX, raises at FREQ_MAX, and is gated as every command is. -/
theorem countAddsOne : Obligations.CountAddsOne := by
  unfold Obligations.CountAddsOne
  refine fun sym => ⟨decode_eq_some_iff_encode_eq.2 (encodeS_eq_placed .count sym), illegalOutOfPhase _,
    fun s he ht => ⟨fun hne => ?_, fun w hw hmax => ?_⟩⟩
  · exact ⟨_, exec_count_of_ne_max he ht hne, toNat_ftGet_ftIncr_self hne, fun _ => ftGet_ftIncr_ne _⟩
  · rw [exec_count_of_max he ht hmax]
    simp [retire, raise, hw]

/-! ### SETFREQ (R121) -/

/-- No own rule but CLEAR's sets an entry of FT back to 0 (R121). -/
theorem OwnShape.eq_clear_of_ft_zeroed {s t : State} {i : Instr} {x : Symbol} (hs : OwnShape s i t)
    (hx : ftGet s.ft x ≠ 0) (hz : ftGet t.ft x = 0) : i = .clear := by
  cases hs with
  | clear => rfl
  | table i sym v _ hv =>
    simp only [ftGet_ftSet] at hz
    split at hz
    · exact absurd hz hv
    · exact absurd hz hx
  | _ => exact absurd hz hx

/-- No completion but CLEAR's sets an entry of FT back to 0 (R121). -/
theorem eq_clear_of_exec_ft_zeroed {i : Instr} {s t : State} {x : Symbol} (h : exec i s = .next t)
    (hx : ftGet s.ft x ≠ 0) (hz : ftGet t.ft x = 0) : i = .clear := by
  rcases exec_cases h with ⟨-, rfl⟩ | ⟨-, -, rfl⟩ | ⟨-, -, -, rfl⟩ | ⟨-, -, -, rfl⟩
  · exact (ownShape i s).eq_clear_of_ft_zeroed hx hz
  · exact absurd hz hx
  · exact absurd hz hx
  · exact (ownShape i s).eq_clear_of_ft_zeroed hx hz

/-- Settles O19: SETFREQ's own rule by whether ARG is 0, and what an own rule can do to an entry of FT. -/
theorem setFreqCopiesArg : Obligations.SetFreqCopiesArg := by
  unfold Obligations.SetFreqCopiesArg
  refine ⟨fun sym => ⟨decode_eq_some_iff_encode_eq.2 (encodeS_eq_placed .setFreq sym), illegalOutOfPhase _,
    fun s he ht => ⟨fun harg => ?_, fun w hw harg => ?_⟩⟩, fun i s t x => eq_clear_of_exec_ft_zeroed⟩
  · refine ⟨ftSet s.ft sym s.arg, ?_, ftGet_ftSet_self _ _ _, fun x hx => ftGet_ftSet_ne _ _ hx.symm⟩
    rw [exec_of_phaseHolds (i := .setFreq sym) he ht, ownRule, setFreqOwn, if_neg harg]
    rfl
  · rw [exec_of_phaseHolds (i := .setFreq sym) he ht, ownRule, setFreqOwn, if_pos harg]
    simp [retire, raise, hw]

/-! ### A pass of COUNT (R122) -/

/-- The first of several commands completes, pending under its own word, and the others follow. -/
theorem completeAll_cons_of_exec {i : Instr} {is : List Instr} {s t : State}
    (h : exec i { s with pend := some (encode i) } = .next t) : completeAll (i :: is) s = completeAll is t := by
  rw [completeAll, h]

/-- From ERR = 1 a pass of COUNT ends in ERR = 1: each COUNT is discarded (R226). -/
theorem err_of_completeAll_count {msg : List Symbol} {s t : State}
    (h : completeAll (msg.map Instr.count) s = .next t) (he : s.err = true) : t.err = true := by
  induction msg generalizing s with
  | nil =>
    injection h with h
    exact h ▸ he
  | cons sym msg ih =>
    rw [List.map_cons, completeAll_cons_of_exec (exec_of_err (not_runsOnError_of_table (.inl rfl)) he)] at h
    exact ih h he

/-- A pass of COUNT without error adds to each counter the number of its symbol's occurrences (R122). -/
theorem toNat_ftGet_of_completeAll_count {msg : List Symbol} {s t : State}
    (h : completeAll (msg.map Instr.count) s = .next t) (he : s.err = false) (ht : s.tstate = .collect)
    (hok : t.err = false) (x : Symbol) :
    (ftGet t.ft x).toNat = (ftGet s.ft x).toNat + msg.count x := by
  induction msg generalizing s with
  | nil =>
    injection h with h
    simp [h]
  | cons sym msg ih =>
    rw [List.map_cons] at h
    by_cases hmax : ftGet s.ft sym = Config.freqMax
    · rw [completeAll_cons_of_exec (exec_count_of_max he ht hmax)] at h
      exact absurd (err_of_completeAll_count h rfl) (by simp [hok])
    · rw [completeAll_cons_of_exec (exec_count_of_ne_max he ht hmax)] at h
      calc (ftGet t.ft x).toNat
        _ = (ftGet (ftIncr s.ft sym) x).toNat + msg.count x := ih h he ht
        _ = (ftGet s.ft x).toNat + ([sym].count x + msg.count x) := by rw [toNat_ftGet_ftIncr hmax, Nat.add_assoc]
        _ = (ftGet s.ft x).toNat + (sym :: msg).count x := by rw [← List.count_append, List.singleton_append]

/-- A pass of COUNT meets no error when every counter has room for its symbol's occurrences (R122). -/
theorem exists_completeAll_count_of_room {msg : List Symbol} {s : State} (he : s.err = false)
    (ht : s.tstate = .collect) (hroom : ∀ x, (ftGet s.ft x).toNat + msg.count x ≤ 2 ^ 32 - 1) :
    ∃ t, completeAll (msg.map Instr.count) s = .next t ∧ t.err = false := by
  induction msg generalizing s with
  | nil => exact ⟨s, rfl, he⟩
  | cons sym msg ih =>
    have hne : ftGet s.ft sym ≠ Config.freqMax := by
      intro hmax
      have := hroom sym
      simp [hmax, Config.freqMax] at this
    rw [List.map_cons, completeAll_cons_of_exec (exec_count_of_ne_max he ht hne)]
    refine ih he ht fun x => ?_
    rw [toNat_ftGet_ftIncr hne, Nat.add_assoc, ← List.count_append, List.singleton_append]
    exact hroom x

/-- Settles O21: a pass of COUNT adds the occurrences, and from an empty table 2^32-1 of them have room. -/
theorem countPassCounts : Obligations.CountPassCounts := by
  unfold Obligations.CountPassCounts
  refine fun s msg he ht hzero => ⟨fun t h hok x => ?_, fun hle => ?_⟩
  · simpa [hzero] using toNat_ftGet_of_completeAll_count h he ht hok x
  · exact exists_completeAll_count_of_room he ht (by simpa [hzero] using hle)

/-! ### RD_FREQ (R123) -/

/-- Settles O20: RD_FREQ's phase is every phase, and its own rule writes the results. -/
theorem rdFreqReadsTheTable : Obligations.RdFreqReadsTheTable := by
  unfold Obligations.RdFreqReadsTheTable
  exact fun sym => ⟨decode_eq_some_iff_encode_eq.2 (encodeS_eq_placed .rdFreq sym),
    fun s he => exec_of_phaseHolds (i := .rdFreq sym) he trivial⟩

end Sys2Proof.Machine
end

section
/-! PROOFS. The family spec/42_tree_builder.md: BUILD's frame (O22) and its dependence on FT alone (O28), the tree it
builds (O23, O24), the code table (O25, O26, O27), and the reads RD_NODE (O29) and RD_CODE (O30). -/

namespace Sys2Proof.Machine

/-! ### BUILD (R140) -/

/-- In COLLECT with ERR = 0, BUILD runs its own rule. -/
theorem exec_build {s : State} (h : s.MayBuild) : exec .build s = .next (retire (buildOwn s)) :=
  exec_of_phaseHolds (i := .build) h.1 h.2

/-- A state that BUILD leaves is its own rule's. -/
theorem eq_of_exec_build {s t : State} (h : s.MayBuild) (ht : exec .build s = .next t) :
    t = retire (buildOwn s) := by
  rw [exec_build h] at ht
  injection ht with ht
  exact ht.symm

/-- A record that TreeBuild writes is the node there after BUILD, whatever the unspecified entries are (R145). -/
theorem node_retire_buildOwn {s : State} {i : Index} {n : Node} (h : (treeBuild s.ft).arena[i.toNat]? = some n) :
    (retire (buildOwn s)).node i = n :=
  nodeAt_of_getElem? h

/-- Settles O22: BUILD's own rule writes the tree's elements, and TreeBuild's KIND and NLEAVES go by the entries. -/
theorem buildCompletes : Obligations.BuildCompletes := by
  unfold Obligations.BuildCompletes
  exact ⟨decode_encode .build, illegalOutOfPhase _,
    fun s h => ⟨_, exec_build h, rfl, treeBuild_kind s.ft, treeBuild_nleaves s.ft⟩⟩

/-- CodeGen reads only nodes of the tree, so the unspecified entries do not matter (R143, R145). -/
theorem builtCodes_eq (ft : FreqTable) (d e : Nat) : builtCodes ft d = builtCodes ft e := by
  by_cases hne : leafSymbols ft = []
  · simp [builtCodes, treeBuild_empty hne, codeGen]
  · obtain ⟨tree, hH, hL⟩ := treeBuild_holds hne
    refine codeTable_ext fun x => Option.ext fun c => ?_
    rw [ctGet_builtCodes d hH hL, ctGet_builtCodes e hH hL]

/-- Settles O28: TreeBuild is a function of FT, and CodeGen does not read the unspecified entries. -/
theorem buildDependsOnTheTableOnly : Obligations.BuildDependsOnTheTableOnly := by
  unfold Obligations.BuildDependsOnTheTableOnly
  intro s u t v hs hu hft ht hv
  obtain rfl := eq_of_exec_build hs ht
  obtain rfl := eq_of_exec_build hu hv
  have htree : treeBuild s.ft = treeBuild u.ft := congrArg treeBuild hft
  have hcodes : builtCodes s.ft (s.arenaDraws + 1) = builtCodes u.ft (u.arenaDraws + 1) :=
    (builtCodes_eq _ _ _).trans (congrArg (builtCodes · _) hft)
  exact ⟨congrArg Tree.arena htree, hcodes, congrArg Tree.kind htree, congrArg Tree.root htree,
    congrArg Tree.nnodes htree, congrArg Tree.nleaves htree⟩

/-! ### The tree (R141, R142, R144) -/

/-- In a tree over two or more symbols, the first nodes are the leaves, in ascending symbol order (R141). -/
theorem treeBuild_leaf {ft : FreqTable} (h : 2 ≤ (leafSymbols ft).length) {i : Nat} {sym : Symbol}
    (hi : (leafSymbols ft)[i]? = some sym) : (treeBuild ft).arena[i]? = some (leafOf ft sym) := by
  obtain ⟨more, -, harena, -⟩ := treeBuild_general h
  rw [harena]
  exact getElem?_append_of_some (by simp [hi]) more

/-- In a tree over two or more symbols, every node past the leaves is internal (R141). -/
theorem treeBuild_internal {ft : FreqTable} (h : 2 ≤ (leafSymbols ft).length) {k : Nat}
    (hge : (leafSymbols ft).length ≤ k) (hlt : k < (treeBuild ft).arena.length) :
    ∃ f l r, (treeBuild ft).arena[k]? = some (.internal f l r) := by
  obtain ⟨more, -, harena, hmore, -⟩ := treeBuild_general h
  have hget : (treeBuild ft).arena[k]? = more[k - (leafSymbols ft).length]? := by
    rw [harena, List.getElem?_append_right (by simpa using hge), List.length_map]
  rw [List.getElem?_eq_getElem hlt] at hget ⊢
  obtain ⟨f, l, r, hn⟩ := hmore _ (List.mem_of_getElem? hget.symm)
  exact ⟨f, l, r, congrArg some hn⟩

/-- Settles O23: the descriptor and the leaves by the cases of TreeBuild, and each internal node as the merge in order
that made it. -/
theorem treeBuildWritesTheHuffmanTree : Obligations.TreeBuildWritesTheHuffmanTree := by
  unfold Obligations.TreeBuildWritesTheHuffmanTree
  refine ⟨before_iff, fun s t hs ht => ?_⟩
  obtain rfl := eq_of_exec_build hs ht
  refine ⟨fun (hl : leafSymbols s.ft = []) => ?_, fun sym (hl : leafSymbols s.ft = [sym]) => ?_,
    fun (hl : 2 ≤ (leafSymbols s.ft).length) => ?_⟩
  · refine ⟨node_retire_buildOwn ?_, ?_⟩ <;> simp [treeBuild_empty hl, retire, buildOwn]
  · refine ⟨node_retire_buildOwn (n := leafOf s.ft sym) ?_, ?_⟩ <;> simp [treeBuild_single hl, retire, buildOwn]
  · obtain ⟨-, -, -, -, hlen, hkind, hleaves, hnodes, hroot, -⟩ := treeBuild_general hl
    refine ⟨hkind, ?_, hleaves, hroot.trans hnodes.symm, fun i sym hi => node_retire_buildOwn (treeBuild_leaf hl hi),
      fun k hge hlt => ?_⟩
    · show (treeBuild s.ft).nnodes.toNat = 2 * (leafSymbols s.ft).length - 1
      omega
    · have hlt : k.toNat < (treeBuild s.ft).arena.length := by rw [← hnodes]; exact hlt
      obtain ⟨f, l, r, hk⟩ := treeBuild_internal hl hge hlt
      obtain ⟨nl, nr, hnl, hnr, hlk, hrk, hlnew, hrnew, hsum, hlr, hleast⟩ :=
        mergedInOrder_treeBuild s.ft k.toNat f l r hk
      refine ⟨f, l, r, node_retire_buildOwn hk, hlk, hrk, ?_⟩
      rw [node_retire_buildOwn hnl, node_retire_buildOwn hnr]
      refine ⟨hsum.symm, hlr, hlnew, hrnew, fun j hj hjnew hjl hjr => ?_⟩
      have hnj := List.getElem?_eq_getElem (Nat.lt_trans hj hlt)
      rw [node_retire_buildOwn hnj]
      exact hleast j _ hnj hj hjnew hjl hjr

/-- ROOT and the children of all nodes are the indices of the tree, each once (R144 item 1). -/
theorem root_cons_childrenOf_perm {ft : FreqTable} (h : leafSymbols ft ≠ []) :
    ((treeBuild ft).root :: childrenOf (treeBuild ft).arena).Perm (indicesBelow (treeBuild ft).arena.length) := by
  rcases leafSymbols_cases ft with hl | ⟨x, hl⟩ | hl
  · exact absurd hl h
  · rw [treeBuild_single hl]
    exact .refl _
  · obtain ⟨-, e, -, -, -, -, -, -, -, he, inv⟩ := treeBuild_general hl
    rw [← he]
    exact inv.indices

theorem count_indicesBelow {n : Nat} {i : Index} (hn : n ≤ 512) (hi : i.toNat < n) : (indicesBelow n).count i = 1 :=
  List.count_eq_one_of_mem (nodup_indicesBelow hn) (List.mem_map.2 ⟨i.toNat, List.mem_range.2 hi, by simp⟩)

/-- Every index of the tree but ROOT is a child once, and ROOT never (R144 item 1). -/
theorem count_childrenOf_treeBuild {ft : FreqTable} (h : leafSymbols ft ≠ []) {i : Index}
    (hi : i.toNat < (treeBuild ft).arena.length) :
    (childrenOf (treeBuild ft).arena).count i = if i = (treeBuild ft).root then 0 else 1 := by
  have hle : (treeBuild ft).arena.length ≤ 512 := by
    rw [length_arena]
    exact Nat.le_of_lt (treeBuild ft).nnodes.isLt
  have hcount := (root_cons_childrenOf_perm h).count_eq i
  rw [count_indicesBelow hle hi, List.count_cons] at hcount
  by_cases hroot : i = (treeBuild ft).root
  · simpa [hroot] using hcount
  · simpa [hroot, Ne.symm hroot] using hcount

/-- A tree's weight is the sum of its leaves' counts. -/
theorem CodeTree.weight_eq_sum (ft : FreqTable) (tree : CodeTree) :
    tree.weight ft = (tree.leaves.map fun sym => (ftGet ft sym).toNat).sum := by
  induction tree with
  | leaf sym => simp [weight, leaves]
  | node l r hl hr => simp [weight, leaves, hl, hr]

/-- Elements outside a filter add nothing to a sum when their terms are 0. -/
theorem sum_map_filter_of_zero {α : Type} {p : α → Bool} {f : α → Nat} (h : ∀ x, p x = false → f x = 0)
    (l : List α) : ((l.filter p).map f).sum = (l.map f).sum := by
  induction l with
  | nil => rfl
  | cons x l ih =>
    cases hp : p x with
    | false => simp [hp, ih, h x hp]
    | true => simp [hp, ih]

/-- A sum over all symbols to which only symbols with an entry add is the sum over the leaves of the tree. -/
theorem sum_map_allSymbols {ft : FreqTable} {tree : CodeTree} (hL : tree.leaves.Perm (leafSymbols ft))
    {f : Symbol → Nat} (h : ∀ x, ftGet ft x = 0 → f x = 0) : (allSymbols.map f).sum = (tree.leaves.map f).sum := by
  rw [(hL.map f).sum_eq]
  exact (sum_map_filter_of_zero (fun x hx => h x (by simpa using hx)) allSymbols).symm

/-- ROOT's frequency is the sum of all counts (R144 item 2). -/
theorem exists_rootRecord {ft : FreqTable} (h : leafSymbols ft ≠ []) :
    ∃ n, (treeBuild ft).arena[(treeBuild ft).root.toNat]? = some n ∧
      (nodeFreq n).toNat = (allSymbols.map fun sym => (ftGet ft sym).toNat).sum := by
  obtain ⟨tree, hH, hL⟩ := treeBuild_holds h
  obtain ⟨n, hn, hfreq⟩ := hH.record
  refine ⟨n, hn, ?_⟩
  rw [hfreq, tree.weight_eq_sum, sum_map_allSymbols hL (by simp +contextual)]

theorem leafSymbols_ne_nil {ft : FreqTable} (h : 1 ≤ entryCount ft) : leafSymbols ft ≠ [] := by
  rw [entryCount_eq] at h
  exact List.ne_nil_of_length_pos h

/-- Settles O24: ROOT and all children are the indices of the tree, and the tree's weight is the sum of its leaves. -/
theorem builtTreeIsStrictlyBinary : Obligations.BuiltTreeIsStrictlyBinary := by
  unfold Obligations.BuiltTreeIsStrictlyBinary
  intro s t hs ht hentry
  obtain rfl := eq_of_exec_build hs ht
  have hne := leafSymbols_ne_nil hentry
  refine ⟨fun i hi => count_childrenOf_treeBuild hne (by rw [length_arena]; exact hi), ?_⟩
  obtain ⟨n, hn, hfreq⟩ := exists_rootRecord hne
  exact (congrArg (fun m => (nodeFreq m).toNat) (node_retire_buildOwn hn)).trans hfreq

/-! ### The codes (R143, R144) -/

/-- A symbol has a code only in a table with an entry. -/
theorem leafSymbols_ne_nil_of_code {ft : FreqTable} {draw : Nat} {x : Symbol} {c : Bits}
    (h : ctGet (builtCodes ft draw) x = some c) : leafSymbols ft ≠ [] :=
  List.ne_nil_of_mem (mem_leafSymbols.2 ((isSome_builtCodes ft draw x).1 (by simp [h])))

/-- Settles O25: the codes are the paths of one tree, and of two paths neither begins with the other. -/
theorem codesArePrefixFree : Obligations.CodesArePrefixFree := by
  unfold Obligations.CodesArePrefixFree
  intro s t hs ht x y c d hxy hc hd hcd
  obtain rfl := eq_of_exec_build hs ht
  obtain ⟨tree, hH, hL⟩ := treeBuild_holds (leafSymbols_ne_nil_of_code hc)
  exact hxy (CodeTree.paths_prefixFree ((ctGet_builtCodes _ hH hL x c).1 hc) ((ctGet_builtCodes _ hH hL y d).1 hd) hcd)

/-- In a tree of two or more leaves no path is empty. -/
theorem CodeTree.one_le_length_of_path {tree : CodeTree} (h : 2 ≤ tree.leaves.length) {x : Symbol} {c : Bits}
    (hc : (x, c) ∈ tree.paths []) : 1 ≤ c.length := by
  cases tree with
  | leaf sym => simp [leaves] at h
  | node l r => rcases mem_paths_node.1 hc with ⟨d, rfl, -⟩ | ⟨d, rfl, -⟩ <;> simp

/-- With two or more entries no code is empty (R144 item 4). -/
theorem one_le_length_builtCodes {ft : FreqTable} {draw : Nat} (h : 2 ≤ (leafSymbols ft).length) {x : Symbol}
    {c : Bits} (hc : ctGet (builtCodes ft draw) x = some c) : 1 ≤ c.length := by
  obtain ⟨tree, hH, hL⟩ := treeBuild_holds (leafSymbols_ne_nil_of_code hc)
  exact CodeTree.one_le_length_of_path (hL.length_eq ▸ h) ((ctGet_builtCodes _ hH hL x c).1 hc)

/-- A code's term in Kraft's sum, times 2^255; an absent code has none. -/
def kraftTerm (code : Option Bits) : Nat := code.elim 0 fun c => 2 ^ (255 - c.length)

/-- Kraft's sum over the code table is full (R144 item 4). -/
theorem sum_kraftTerm_builtCodes {ft : FreqTable} (draw : Nat) (h : leafSymbols ft ≠ []) :
    (allSymbols.map fun sym => kraftTerm (ctGet (builtCodes ft draw) sym)).sum = 2 ^ 255 := by
  obtain ⟨tree, hH, hL⟩ := treeBuild_holds h
  have habsent : ∀ x, ftGet ft x = 0 → kraftTerm (ctGet (builtCodes ft draw) x) = 0 := fun x hx => by
    have hnone : ctGet (builtCodes ft draw) x = none := by
      simpa [hx] using isSome_builtCodes ft draw x
    simp [kraftTerm, hnone]
  have hterm : ∀ q ∈ tree.paths [], kraftTerm (ctGet (builtCodes ft draw) q.1) = 2 ^ (255 - q.2.length) :=
    fun q hq => by simp [kraftTerm, (ctGet_builtCodes draw hH hL q.1 q.2).2 hq]
  have hsize : ([] : Bits).length + tree.leaves.length ≤ 255 + 1 := by
    simpa [hL.length_eq] using length_leafSymbols_le ft
  calc (allSymbols.map fun sym => kraftTerm (ctGet (builtCodes ft draw) sym)).sum
    _ = (tree.leaves.map fun sym => kraftTerm (ctGet (builtCodes ft draw) sym)).sum := sum_map_allSymbols hL habsent
    _ = ((tree.paths []).map fun q => kraftTerm (ctGet (builtCodes ft draw) q.1)).sum := by
      rw [← tree.map_fst_paths [], List.map_map]
      rfl
    _ = ((tree.paths []).map fun q => 2 ^ (255 - q.2.length)).sum := by rw [List.map_congr_left hterm]
    _ = 2 ^ 255 := tree.kraft [] 255 hsize

/-- Settles O26: a code is a path, which is shorter than the number of leaves, and Kraft's sum over the paths is full. -/
theorem codeLengths : Obligations.CodeLengths := by
  unfold Obligations.CodeLengths
  intro s t hs ht
  obtain rfl := eq_of_exec_build hs ht
  rw [entryCount_eq]
  refine ⟨fun hone sym c hc => ?_, fun htwo sym c hc => ⟨one_le_length_builtCodes htwo hc, ?_⟩, fun hpos => ?_⟩
  · have hlt := length_builtCodes_lt hc
    exact List.eq_nil_of_length_eq_zero (by omega)
  · have hlt := length_builtCodes_lt hc
    omega
  · refine Eq.trans (congrArg List.sum (List.map_congr_left fun x _ => ?_))
      (sum_kraftTerm_builtCodes (s.arenaDraws + 1) (List.ne_nil_of_length_pos hpos))
    show _ = kraftTerm (ctGet (retire (buildOwn s)).ct x)
    cases ctGet (retire (buildOwn s)).ct x <;> rfl

/-- The indices `path` follow the bits `code` from parent to child: left = 0, right = 1. -/
def FollowsBits (node : Index → Node) (code : Bits) (path : List Index) : Prop :=
  ∀ (k : Nat) (b : Bool) (i j : Index), code[k]? = some b → path[k]? = some i → path[k + 1]? = some j →
    ∃ f l r, node i = .internal f l r ∧ j = if b then r else l

/-- A node before one of its children begins a longer path. -/
theorem FollowsBits.cons {node : Index → Node} {code : Bits} {path : List Index} {i l r : Index} {f : NodeFreq}
    {b : Bool} (h : FollowsBits node code path) (hi : node i = .internal f l r)
    (hchild : path[0]? = some (if b then r else l)) : FollowsBits node (b :: code) (i :: path) := by
  intro k b' i' j hb hi' hj
  cases k with
  | zero =>
    simp only [List.getElem?_cons_zero, List.getElem?_cons_succ, Option.some.injEq, hchild] at hb hi' hj
    subst hb hi' hj
    exact ⟨f, l, r, hi, rfl⟩
  | succ k => exact h k b' i' j hb hi' hj

/-- From `i`, the bits `code` lead to a leaf of `sym`. -/
def LeadsToLeaf (node : Index → Node) (i : Index) (code : Bits) (sym : Symbol) : Prop :=
  ∃ path : List Index, path.length = code.length + 1 ∧ path[0]? = some i ∧ FollowsBits node code path ∧
    ∃ j f, path[code.length]? = some j ∧ node j = .leaf sym f false

theorem LeadsToLeaf.cons {node : Index → Node} {code : Bits} {sym : Symbol} {i l r : Index} {f : NodeFreq} {b : Bool}
    (h : LeadsToLeaf node (if b then r else l) code sym) (hi : node i = .internal f l r) :
    LeadsToLeaf node i (b :: code) sym := by
  obtain ⟨path, hlen, hchild, hfollows, j, g, hj, hleaf⟩ := h
  exact ⟨i :: path, by simp [hlen], rfl, hfollows.cons hi hchild, j, g, hj, hleaf⟩

/-- A held tree's paths lead to the leaves of their symbols. -/
theorem leadsToLeaf_of_holds {ft : FreqTable} {arena : List Node} {node : Index → Node} (hn : Reads node arena)
    {i : Index} {tree : CodeTree} (h : Holds ft arena i tree) {x : Symbol} {c : Bits} (hc : (x, c) ∈ tree.paths []) :
    LeadsToLeaf node i c x := by
  induction h generalizing c with
  | @leaf i sym h =>
    simp only [CodeTree.paths, List.mem_singleton, Prod.mk.injEq] at hc
    obtain ⟨rfl, rfl⟩ := hc
    exact ⟨[i], rfl, rfl, by simp [FollowsBits], i, _, rfl, hn _ _ h⟩
  | node h _ _ _ _ _ ihl ihr =>
    rcases CodeTree.mem_paths_node.1 hc with ⟨d, rfl, hd⟩ | ⟨d, rfl, hd⟩
    · exact LeadsToLeaf.cons (b := false) (ihl hd) (hn _ _ h)
    · exact LeadsToLeaf.cons (b := true) (ihr hd) (hn _ _ h)

/-- Settles O27: the codes are the paths of the tree that the arena holds from ROOT down. -/
theorem codesAreTreePaths : Obligations.CodesAreTreePaths := by
  unfold Obligations.CodesAreTreePaths
  intro s t hs ht
  obtain rfl := eq_of_exec_build hs ht
  refine ⟨isSome_builtCodes s.ft (s.arenaDraws + 1), fun sym code hc => ?_⟩
  have hlt := length_builtCodes_lt hc
  have hle := length_leafSymbols_le s.ft
  obtain ⟨tree, hH, hL⟩ := treeBuild_holds (leafSymbols_ne_nil_of_code hc)
  rw [entryCount_eq]
  exact ⟨by omega, by omega, leadsToLeaf_of_holds (reads_nodeAt _ _) hH ((ctGet_builtCodes _ hH hL sym code).1 hc)⟩

/-! ### RD_NODE (R146, R147) -/

/-- RESULT1 of a leaf, each field placed at its lowest bit (R146). -/
theorem nodeResult1_leaf_eq_placed (sym : Symbol) (freq : NodeFreq) (sent : Bool) :
    nodeResult1 (.leaf sym freq sent) = (freq.extractLsb' 32 8).setWidth 32 <<< 0 ||| (1#1).setWidth 32 <<< 8 |||
      (BitVec.ofBool sent).setWidth 32 <<< 9 ||| (1#1).setWidth 32 <<< 10 ||| sym.setWidth 32 <<< 12 := by
  simp [nodeResult1, flagWord_eq_setWidth]

/-- RESULT1 of an internal node, each field placed at its lowest bit (R146). -/
theorem nodeResult1_internal_eq_placed (freq : NodeFreq) (l r : Index) :
    nodeResult1 (.internal freq l r) = (freq.extractLsb' 32 8).setWidth 32 <<< 0 ||| (1#1).setWidth 32 <<< 10 |||
      l.setWidth 32 <<< 12 ||| r.setWidth 32 <<< 21 := by
  simp [nodeResult1]

/-- The fields of RESULT1 of a leaf (R146). -/
theorem nodeResult1_leaf_fields (sym : Symbol) (freq : NodeFreq) (sent : Bool) :
    let r1 := nodeResult1 (.leaf sym freq sent)
    r1.extractLsb' 0 8 = freq.extractLsb' 32 8 ∧ r1.getLsbD 8 = true ∧ r1.getLsbD 9 = sent ∧ r1.getLsbD 10 = true ∧
      r1.getLsbD 11 = false ∧ r1.extractLsb' 12 8 = sym ∧ r1.extractLsb' 20 12 = 0 := by
  simp (disch := omega) only [nodeResult1_leaf_eq_placed, BitVec.extractLsb'_or, extractLsb'_placed_same,
    extractLsb'_placed_disjoint, BitVec.zero_or, BitVec.or_zero, true_and]
  simp

/-- The fields of RESULT1 of an internal node (R146). -/
theorem nodeResult1_internal_fields (freq : NodeFreq) (l r : Index) :
    let r1 := nodeResult1 (.internal freq l r)
    r1.extractLsb' 0 8 = freq.extractLsb' 32 8 ∧ r1.getLsbD 8 = false ∧ r1.getLsbD 9 = false ∧ r1.getLsbD 10 = true ∧
      r1.getLsbD 11 = false ∧ r1.extractLsb' 12 9 = l ∧ r1.extractLsb' 21 9 = r ∧ r1.extractLsb' 30 2 = 0 := by
  simp (disch := omega) only [nodeResult1_internal_eq_placed, BitVec.extractLsb'_or, extractLsb'_placed_same,
    extractLsb'_placed_disjoint, BitVec.zero_or, BitVec.or_zero, true_and]
  simp

theorem rdNodeOwn_of_lt {idx : Index} {s : State} (h : idx < s.nnodes) :
    rdNodeOwn idx s = setResults (nodeResult0 (s.node idx)) (nodeResult1 (s.node idx)) s :=
  if_pos h

theorem rdNodeOwn_of_le {idx : Index} {s : State} (h : s.nnodes ≤ idx) : rdNodeOwn idx s = setResults 0 0 s :=
  if_neg (BitVec.not_lt.2 h)

/-- NNODES is 9 bits, so index 511 never names a node (R146). -/
theorem index_le_last (n : Index) : n ≤ 511 := BitVec.le_def.2 (Nat.le_of_lt_succ n.isLt)

/-- Settles O29: RD_NODE's own rule by whether the index is below NNODES, and then by the record there. -/
theorem rdNodeReadsTheArena : Obligations.RdNodeReadsTheArena := by
  unfold Obligations.RdNodeReadsTheArena
  refine fun idx => ⟨decode_eq_some_iff_encode_eq.2 (encodeX_eq_placed .rdNode idx), illegalOutOfPhase _,
    fun s he ht => ?_⟩
  rw [exec_of_phaseHolds (i := .rdNode idx) he ht, ownRule]
  by_cases hlt : idx < s.nnodes
  · rw [rdNodeOwn_of_lt hlt]
    refine ⟨_, _, rfl, ?_, fun sym freq sent _ hnode => ?_, fun freq l r _ hnode => ?_⟩
    · rintro (hle | rfl)
      · exact absurd hlt (BitVec.not_lt.2 hle)
      · exact absurd hlt (BitVec.not_lt.2 (index_le_last _))
    · rw [hnode]
      exact ⟨rfl, nodeResult1_leaf_fields sym freq sent⟩
    · rw [hnode]
      exact ⟨rfl, nodeResult1_internal_fields freq l r⟩
  · rw [rdNodeOwn_of_le (BitVec.not_lt.1 hlt)]
    exact ⟨0, 0, rfl, fun _ => ⟨rfl, rfl⟩, fun _ _ _ h => absurd h hlt, fun _ _ _ h => absurd h hlt⟩

/-! ### RD_CODE (R148) -/

/-- RESULT1 of a present code, each field placed at its lowest bit (R148). -/
theorem codeResult1_eq_placed {c : Bits} (h : c.length ≤ 255) : codeResult1 (some c) =
    (1#1).setWidth 32 <<< 31 ||| (BitVec.ofNat 9 c.length).setWidth 32 <<< 0 := by
  rw [codeResult1, ofNat_eq_zeroExtend (n := 9) (by omega)]
  simp

/-- The fields of RESULT1 of a present code (R148). -/
theorem codeResult1_fields {c : Bits} (h : c.length ≤ 255) : (codeResult1 (some c)).getLsbD 31 = true ∧
    ((codeResult1 (some c)).extractLsb' 0 9).toNat = c.length ∧ (codeResult1 (some c)).extractLsb' 9 22 = 0 := by
  simp (disch := omega) only [codeResult1_eq_placed h, BitVec.extractLsb'_or, extractLsb'_placed_same,
    extractLsb'_placed_disjoint, BitVec.zero_or, toNat_ofNat9]
  simp

/-- Bit 31-i of RESULT0 of a present code is bit 32k+i of the code, 0 past its end (R148). -/
theorem getLsbD_codeResult0 (c : Bits) (chunk : BitVec 3) {i : Nat} (h : i < 32) :
    (codeResult0 (some c) chunk).getLsbD (31 - i) = c.getD (32 * chunk.toNat + i) false := by
  rw [← getMsbD_packWord c chunk.toNat h, BitVec.getMsbD_eq_getLsbD]
  simp [codeResult0, h]

/-- Settles O30: RD_CODE's own rule by the entry of the code table. -/
theorem rdCodeReadsTheTable : Obligations.RdCodeReadsTheTable := by
  unfold Obligations.RdCodeReadsTheTable
  refine fun chunk sym => ⟨decode_eq_some_iff_encode_eq.2 (encodeC_eq_placed .rdCode chunk sym),
    illegalOutOfPhase _, fun s he ht => ?_⟩
  rw [exec_of_phaseHolds (i := .rdCode chunk sym) he ht, ownRule, rdCodeOwn]
  refine ⟨_, _, rfl, fun hnone => ?_, fun c hc hle => ?_⟩
  · rw [hnone]
    exact ⟨rfl, rfl⟩
  · rw [hc]
    obtain ⟨hpresent, hlen, hzero⟩ := codeResult1_fields hle
    exact ⟨hpresent, hlen, hzero, fun i hi => getLsbD_codeResult0 c chunk hi⟩

end Sys2Proof.Machine
end

section
/-! PROOFS. The family spec/43_encoder.md: ENC_BEGIN with its decoder counterpart DEC_BEGIN (O31), ENC_SYM (O32), ENC_END
(O33), the reads of ENC_OUT and ENC_LEN (O34), and the encode contract (O35). -/

namespace Sys2Proof.Machine

/-! ### ENC_BEGIN and DEC_BEGIN (R170, R190) -/

/-- In BUILT with ERR = 0, ENC_BEGIN opens an empty session, whatever ESTATE is. -/
theorem exec_encBegin {s : State} (he : s.err = false) (ht : s.tstate = .built) :
    exec .encBegin s = .next { s with pend := none, ebuf := [], erp := 0, estate := .active } :=
  exec_of_phaseHolds (i := .encBegin) he ht

/-- In BUILT with ERR = 0, DEC_BEGIN opens an empty session, whatever DSTATE is. -/
theorem exec_decBegin {s : State} (he : s.err = false) (ht : s.tstate = .built) :
    exec .decBegin s = .next { s with pend := none, din := [], dout := [], drp := 0, dstate := .active } :=
  exec_of_phaseHolds (i := .decBegin) he ht

/-- Settles O31: both commands run their own rule in BUILT, and each rule writes its own session only. -/
theorem beginOpensASession : Obligations.BeginOpensASession := by
  unfold Obligations.BeginOpensASession
  exact ⟨decode_encode .encBegin, decode_encode .decBegin, illegalOutOfPhase _, illegalOutOfPhase _,
    fun _ he ht => ⟨exec_encBegin he ht, exec_decBegin he ht⟩⟩

/-! ### ENC_SYM (R171) -/

/-- A code that fits is appended. -/
theorem exec_encSym_of_fits {sym : Symbol} {s : State} {c : Bits} (he : s.err = false) (ha : s.estate = .active)
    (hc : ctGet s.ct sym = some c) (hfit : s.ebuf.length + c.length ≤ s.cfg.encCapBits.toNat) :
    exec (.encSym sym) s = .next { s with pend := none, ebuf := s.ebuf ++ c } := by
  rw [exec_of_phaseHolds (i := .encSym sym) he ha, ownRule, encSymOwn, hc]
  simp only [if_neg (Nat.not_lt.2 hfit)]
  rfl

/-- A symbol without a code ends the session with UNKNOWN_SYMBOL. -/
theorem exec_encSym_of_absent {sym : Symbol} {s : State} (he : s.err = false) (ha : s.estate = .active)
    (hc : ctGet s.ct sym = none) :
    exec (.encSym sym) s = .next (retire (raise .unknownSymbol (dropEncoder s))) := by
  rw [exec_of_phaseHolds (i := .encSym sym) he ha, ownRule, encSymOwn, hc]

/-- A code that does not fit ends the session with CAPACITY_EXCEEDED. -/
theorem exec_encSym_of_full {sym : Symbol} {s : State} {c : Bits} (he : s.err = false) (ha : s.estate = .active)
    (hc : ctGet s.ct sym = some c) (hfull : s.cfg.encCapBits.toNat < s.ebuf.length + c.length) :
    exec (.encSym sym) s = .next (retire (raise .capacityExceeded (dropEncoder s))) := by
  rw [exec_of_phaseHolds (i := .encSym sym) he ha, ownRule, encSymOwn, hc]
  simp only [if_pos hfull]

/-- What an encoder error leaves: no session, no bits, and the pending word on record (R222). -/
theorem retire_raise_dropEncoder {s : State} {w : Word} (code : ErrCode) (hw : s.pend = some w) :
    retire (raise code (dropEncoder s)) = { s with
      pend := none, ebuf := [], erp := 0, estate := .idle, err := true, errcode := code, errcmd := w } := by
  simp [retire, raise, dropEncoder, hw]

/-- Settles O32: ENC_SYM's own rule by whether the symbol has a code and whether the code fits. -/
theorem encSymAppends : Obligations.EncSymAppends := by
  unfold Obligations.EncSymAppends
  refine fun sym => ⟨decode_eq_some_iff_encode_eq.2 (encodeS_eq_placed .encSym sym), illegalOutOfPhase _,
    fun s he ha => ⟨fun c => exec_encSym_of_fits he ha, fun w hw hc => ?_, fun w c hw hc hfull => ?_⟩⟩
  · rw [exec_encSym_of_absent he ha hc, retire_raise_dropEncoder _ hw]
  · rw [exec_encSym_of_full he ha hc hfull, retire_raise_dropEncoder _ hw]

/-! ### ENC_END (R173) -/

/-- In ACTIVE with ERR = 0, ENC_END publishes the bits gathered. -/
theorem exec_encEnd {s : State} (he : s.err = false) (ha : s.estate = .active) :
    exec .encEnd s = .next { s with pend := none, estate := .done, erp := 0 } :=
  exec_of_phaseHolds (i := .encEnd) he ha

/-- Settles O33: ENC_END leaves ESTATE = DONE, which is not its phase. -/
theorem encEndPublishes : Obligations.EncEndPublishes := by
  unfold Obligations.EncEndPublishes
  refine ⟨decode_encode .encEnd, illegalOutOfPhase _, fun s he ha => ⟨exec_encEnd he ha, fun t w h => ?_⟩⟩
  rw [exec_encEnd he ha] at h
  injection h with h
  subst h
  exact illegalOutOfPhase .encEnd _ w he rfl (by simp [PhaseHolds])

/-! ### ENC_OUT and ENC_LEN (R38, R175) -/

/-- In DONE with bits left, a pop gives the next word and advances ERP. -/
theorem encPop_of_left {s : State} (hd : s.estate = .done) (hl : 32 * s.erp < s.ebuf.length) :
    encPop s = (packWord s.ebuf s.erp, { s with erp := s.erp + 1 }) :=
  if_pos ⟨hd, lt_wordCount.2 hl⟩

/-- Otherwise a pop gives 0 and changes nothing. -/
theorem encPop_of_none_left {s : State} (h : s.estate ≠ .done ∨ s.ebuf.length ≤ 32 * s.erp) : encPop s = (0, s) := by
  refine if_neg fun ⟨hd, hl⟩ => ?_
  rcases h with h | h
  · exact h hd
  · exact Nat.not_lt.2 h (lt_wordCount.1 hl)

/-- Packing is MSB-first: bit 31-i of a word is bit i of its 32 (R66). -/
theorem getLsbD_packWord (b : Bits) (k : Nat) {i : Nat} (h : i < 32) :
    (packWord b k).getLsbD (31 - i) = b.getD (32 * k + i) false := by
  rw [← getMsbD_packWord b k h, BitVec.getMsbD_eq_getLsbD, decide_eq_true h, Bool.true_and]

/-- Settles O34: the pop by whether bits are left, the two reads while a command is pending or not, and the writes. -/
theorem encOutPops : Obligations.EncOutPops := by
  unfold Obligations.EncOutPops
  refine ⟨fun s hp => ⟨fun hd hl => ?_, fun h => ?_, busRead_of_idle hp⟩, fun s hp => busRead_of_pending rfl hp,
    fun s v => ⟨busWrite_of_ne (by decide) (by decide) v s, busWrite_of_ne (by decide) (by decide) v s⟩, rfl, rfl⟩
  · have hread : busRead (Reg.ofOffset 0x24) s = _ := (busRead_of_idle hp).trans (encPop_of_left hd hl)
    rw [hread]
    exact ⟨rfl, fun i hi => getLsbD_packWord _ _ hi⟩
  · exact (busRead_of_idle hp).trans (encPop_of_none_left h)

/-! ### Several commands in a row -/

/-- Every list of commands completes, with an error or without (R237). -/
theorem exists_completeAll (is : List Instr) (s : State) : ∃ t, completeAll is s = .next t := by
  induction is generalizing s with
  | nil => exact ⟨s, rfl⟩
  | cons i is ih =>
    obtain ⟨u, hu⟩ := exec_next i { s with pend := some (encode i) }
    rw [completeAll_cons_of_exec hu]
    exact ih u

/-- Two lists of commands in a row: the second starts where the first ends. -/
theorem completeAll_append_of {is js : List Instr} {s u : State} (h : completeAll is s = .next u) :
    completeAll (is ++ js) s = completeAll js u := by
  induction is generalizing s with
  | nil =>
    injection h with h
    rw [h, List.nil_append]
  | cons i is ih =>
    obtain ⟨v, hv⟩ := exec_next i { s with pend := some (encode i) }
    rw [completeAll_cons_of_exec hv] at h
    rw [List.cons_append, completeAll_cons_of_exec hv, ih h]

/-- From ERR = 1, commands that ERR gates end in ERR = 1 (R226). -/
theorem err_of_completeAll {is : List Instr} {s t : State} (hg : ∀ i ∈ is, ¬ runsOnError i)
    (h : completeAll is s = .next t) (he : s.err = true) : t.err = true := by
  induction is generalizing s with
  | nil =>
    injection h with h
    exact h ▸ he
  | cons i is ih =>
    rw [List.forall_mem_cons] at hg
    rw [completeAll_cons_of_exec (exec_of_err hg.1 he)] at h
    exact ih hg.2 h he

/-! ### The first pass: COUNT and BUILD (R122, R140) -/

/-- A pass of COUNT without error writes FT and nothing else but PEND. -/
theorem frame_of_completeAll_count {msg : List Symbol} {s t : State}
    (h : completeAll (msg.map Instr.count) s = .next t) (he : s.err = false) (ht : s.tstate = .collect)
    (hok : t.err = false) : t = { s with pend := t.pend, ft := t.ft } := by
  induction msg generalizing s with
  | nil =>
    injection h with h
    rw [h]
  | cons sym msg ih =>
    rw [List.map_cons] at h
    by_cases hmax : ftGet s.ft sym = Config.freqMax
    · rw [completeAll_cons_of_exec (exec_count_of_max he ht hmax)] at h
      exact absurd (err_of_completeAll_count h rfl) (by simp [hok])
    · rw [completeAll_cons_of_exec (exec_count_of_ne_max he ht hmax)] at h
      have hframe := ih h he ht
      exact hframe

/-- When no symbol occurs more than FREQ_MAX times, the first pass from `Clean` ends without error in BUILT, and every
symbol of the sequence has a code. -/
theorem exists_completeAll_countPass {msg : List Symbol} {s : State} (hs : s.Clean)
    (hle : ∀ x, msg.count x ≤ 2 ^ 32 - 1) :
    ∃ u, completeAll (countPass msg) s = .next u ∧ u.err = false ∧ u.tstate = .built ∧ u.cfg = s.cfg ∧
      ∀ x ∈ msg, (ctGet u.ct x).isSome = true := by
  obtain ⟨v, hv, hok⟩ := exists_completeAll_count_of_room hs.err hs.tstate (by simpa [hs.ft] using hle)
  have hframe := frame_of_completeAll_count hv hs.err hs.tstate hok
  have hcfg : v.cfg = s.cfg := by rw [hframe]
  have htstate : v.tstate = s.tstate := by rw [hframe]
  have hbuild : v.MayBuild := ⟨hok, htstate.trans hs.tstate⟩
  refine ⟨retire (buildOwn v), ?_, hok, rfl, hcfg, fun x hx => ?_⟩
  · rw [countPass, completeAll_append_of hv, completeAll_cons_of_exec (exec_build hbuild)]
    rfl
  · have hcount := toNat_ftGet_of_completeAll_count hv hs.err hs.tstate hok x
    have hpos := List.count_pos_iff.2 hx
    refine (isSome_builtCodes v.ft _ x).2 fun h0 => ?_
    simp [h0, hs.ft] at hcount
    omega

/-! ### The second pass: an encoder session (R170 to R173) -/

/-- The concatenation of the codes of a sequence of symbols; an absent code gives nothing. -/
def codesOf (ct : CodeTable) (msg : List Symbol) : Bits := msg.flatMap fun x => (ctGet ct x).getD []

theorem codesOf_cons {ct : CodeTable} {x : Symbol} {c : Bits} (h : ctGet ct x = some c) (msg : List Symbol) :
    codesOf ct (x :: msg) = c ++ codesOf ct msg := by
  simp [codesOf, h]

theorem length_codesOf (ct : CodeTable) (msg : List Symbol) :
    (codesOf ct msg).length = (msg.map fun x => ((ctGet ct x).getD []).length).sum :=
  List.length_flatMap

/-- The symbols all have codes, and EBUF has room for them. -/
def State.Encodable (s : State) (msg : List Symbol) : Prop :=
  (∀ x ∈ msg, (ctGet s.ct x).isSome = true) ∧ s.ebuf.length + (codesOf s.ct msg).length ≤ s.cfg.encCapBits.toNat

/-- A symbol with a code can be encoded before others exactly when the others can be encoded after its code. -/
theorem encodable_cons {s : State} {x : Symbol} {c : Bits} {msg : List Symbol} (h : ctGet s.ct x = some c) :
    s.Encodable (x :: msg) ↔ State.Encodable { s with pend := none, ebuf := s.ebuf ++ c } msg := by
  simp [State.Encodable, codesOf_cons h, h, Nat.add_assoc]

theorem not_runsOnError_of_mem_encSyms {msg : List Symbol} :
    ∀ i ∈ msg.map Instr.encSym ++ [Instr.encEnd], ¬ runsOnError i := by
  intro i hi
  rw [List.mem_append, List.mem_map, List.mem_singleton] at hi
  obtain ⟨x, -, rfl⟩ | rfl := hi <;> simp [runsOnError]

theorem not_runsOnError_of_mem_encodePass {msg : List Symbol} : ∀ i ∈ encodePass msg, ¬ runsOnError i :=
  List.forall_mem_cons.2 ⟨by simp [runsOnError], not_runsOnError_of_mem_encSyms⟩

/-- In an open session, symbols that can be encoded leave their codes in EBUF, published. -/
theorem completeAll_encSym_of_encodable {msg : List Symbol} {s : State} (h : s.Encodable msg)
    (he : s.err = false) (ha : s.estate = .active) :
    completeAll (msg.map Instr.encSym ++ [Instr.encEnd]) s =
      .next { s with pend := none, ebuf := s.ebuf ++ codesOf s.ct msg, estate := .done, erp := 0 } := by
  induction msg generalizing s with
  | nil => simp [completeAll_cons_of_exec (exec_encEnd he ha), completeAll, codesOf]
  | cons x msg ih =>
    obtain ⟨c, hc⟩ := Option.isSome_iff_exists.1 (h.1 x List.mem_cons_self)
    have hrest := (encodable_cons hc).1 h
    have hfit : s.ebuf.length + c.length ≤ s.cfg.encCapBits.toNat := by
      simpa using le_trans (Nat.le_add_right _ _) hrest.2
    rw [List.map_cons, List.cons_append, completeAll_cons_of_exec (exec_encSym_of_fits he ha hc hfit),
      ih hrest he ha, codesOf_cons hc, List.append_assoc]

/-- In an open session, symbols that meet no error could all be encoded. -/
theorem encodable_of_completeAll_encSym {msg : List Symbol} {s t : State}
    (h : completeAll (msg.map Instr.encSym ++ [Instr.encEnd]) s = .next t) (he : s.err = false)
    (ha : s.estate = .active) (hcap : s.ebuf.length ≤ s.cfg.encCapBits.toNat) (hok : t.err = false) :
    s.Encodable msg := by
  induction msg generalizing s with
  | nil => exact ⟨by simp, by simpa [codesOf] using hcap⟩
  | cons x msg ih =>
    rw [List.map_cons, List.cons_append] at h
    cases hc : ctGet s.ct x with
    | none =>
      rw [completeAll_cons_of_exec (exec_encSym_of_absent he ha hc)] at h
      exact absurd (err_of_completeAll not_runsOnError_of_mem_encSyms h rfl) (by simp [hok])
    | some c =>
      rcases Nat.lt_or_ge s.cfg.encCapBits.toNat (s.ebuf.length + c.length) with hfull | hfit
      · rw [completeAll_cons_of_exec (exec_encSym_of_full he ha hc hfull)] at h
        exact absurd (err_of_completeAll not_runsOnError_of_mem_encSyms h rfl) (by simp [hok])
      · rw [completeAll_cons_of_exec (exec_encSym_of_fits he ha hc hfit)] at h
        exact (encodable_cons hc).2 (ih h he ha (by simpa using hfit))

/-- In BUILT with ERR = 0, the second pass over symbols whose codes fit publishes their concatenation. -/
theorem completeAll_encodePass {msg : List Symbol} {u : State} (he : u.err = false) (ht : u.tstate = .built)
    (h : (encBeginOwn u).Encodable msg) : completeAll (encodePass msg) u =
      .next { u with pend := none, ebuf := codesOf u.ct msg, erp := 0, estate := .done } := by
  rw [encodePass, completeAll_cons_of_exec (exec_encBegin he ht)]
  exact completeAll_encSym_of_encodable h he rfl

/-- A second pass that ends without error began in BUILT with ERR = 0, over symbols whose codes fit. -/
theorem encodable_of_completeAll_encodePass {msg : List Symbol} {u t : State}
    (h : completeAll (encodePass msg) u = .next t) (hok : t.err = false) :
    u.err = false ∧ u.tstate = .built ∧ (encBeginOwn u).Encodable msg := by
  have he : u.err = false := Bool.eq_false_iff.2 fun he => by
    simp [err_of_completeAll not_runsOnError_of_mem_encodePass h he] at hok
  rw [encodePass] at h
  by_cases ht : u.tstate = .built
  · rw [completeAll_cons_of_exec (exec_encBegin he ht)] at h
    have henc := encodable_of_completeAll_encSym h he rfl (Nat.zero_le _) hok
    exact ⟨he, ht, henc⟩
  · rw [completeAll_cons_of_exec (illegalOutOfPhase .encBegin _ _ he rfl ht)] at h
    simp [err_of_completeAll not_runsOnError_of_mem_encSyms h rfl] at hok

/-- Settles O35: a second pass without error publishes the codes, and after a first pass from `Clean` every symbol has a
code, so that the second pass can fail for want of room only. -/
theorem encodeContract : Obligations.EncodeContract := by
  unfold Obligations.EncodeContract
  refine fun s msg hs => ⟨fun t h hok => ?_, fun hle => ?_⟩
  · obtain ⟨u, hu⟩ := exists_completeAll (countPass msg) s
    rw [completeAll_append_of hu] at h
    obtain ⟨he, ht, henc⟩ := encodable_of_completeAll_encodePass h hok
    rw [completeAll_encodePass he ht henc] at h
    injection h with h
    subst h
    exact ⟨rfl, henc.1, rfl⟩
  · obtain ⟨u, hu, he, ht, hcfg, hcodes⟩ := exists_completeAll_countPass hs hle
    refine ⟨u, hu, he, fun hsum => ⟨_, completeAll_encodePass he ht ⟨hcodes, ?_⟩, he⟩⟩
    simpa [length_codesOf, hcfg] using hsum

end Sys2Proof.Machine
end

section
/-! PROOFS. The family spec/44_decoder.md: DEC_BITS (O36), DEC_END (O37), Decode over a built tree (O38), the round trip
(O39), and the reads of DEC_OUT and DEC_LEN (O40). DEC_BEGIN's opening of a session is O31's. -/

namespace Sys2Proof.Machine

/-! ### DEC_BITS (R191) -/

/-- Bits that fit are appended. -/
theorem exec_decBits_of_fits {nm1 : BitVec 4} {data : BitVec 16} {s : State} (he : s.err = false)
    (ha : s.dstate = .active) (hfit : s.din.length + bitCount nm1 ≤ s.cfg.decInCapBits.toNat) :
    exec (.decBits nm1 data) s = .next { s with pend := none, din := s.din ++ streamBits nm1 data } := by
  rw [exec_of_phaseHolds (i := .decBits nm1 data) he ha, ownRule, decBitsOwn, if_neg (Nat.not_lt.2 hfit)]
  rfl

/-- Bits that do not fit end the session with CAPACITY_EXCEEDED. -/
theorem exec_decBits_of_full {nm1 : BitVec 4} {data : BitVec 16} {s : State} (he : s.err = false)
    (ha : s.dstate = .active) (hfull : s.cfg.decInCapBits.toNat < s.din.length + bitCount nm1) :
    exec (.decBits nm1 data) s = .next (retire (raise .capacityExceeded (dropDecoder s))) := by
  rw [exec_of_phaseHolds (i := .decBits nm1 data) he ha, ownRule, decBitsOwn, if_pos hfull]

/-- What a decoder error leaves: no session, no bits, no symbols, and the pending word on record (R222). -/
theorem retire_raise_dropDecoder {s : State} {w : Word} (code : ErrCode) (hw : s.pend = some w) :
    retire (raise code (dropDecoder s)) = { s with
      pend := none, din := [], dout := [], drp := 0, dstate := .idle
      err := true, errcode := code, errcmd := w } := by
  simp [retire, raise, dropDecoder, hw]

/-- Element `k` of `bits(w)` is DATA[15-k] (R87). -/
theorem getElem?_streamBits_eq_getLsbD (nm1 : BitVec 4) (data : BitVec 16) {k : Nat} (h : k ≤ nm1.toNat) :
    (streamBits nm1 data)[k]? = some (data.getLsbD (15 - k)) := by
  have hk : k < 16 := Nat.lt_of_le_of_lt h nm1.isLt
  rw [getElem?_streamBits _ _ (Nat.lt_succ_of_le h), BitVec.getMsbD_eq_getLsbD, decide_eq_true hk, Bool.true_and]

/-- Settles O36: DEC_BITS's own rule by whether its bits fit, and the order of the bits it takes from DATA. -/
theorem decBitsAppends : Obligations.DecBitsAppends := by
  unfold Obligations.DecBitsAppends
  refine fun nm1 data => ⟨decode_eq_some_iff_encode_eq.2 (encodeB_eq_placed .decBits nm1 data), illegalOutOfPhase _,
    fun s he ha => ⟨fun hfit => ?_, fun w hw hfull => ?_⟩⟩
  · exact ⟨_, exec_decBits_of_fits he ha hfit, length_streamBits nm1 data,
      fun k => getElem?_streamBits_eq_getLsbD nm1 data⟩
  · rw [exec_decBits_of_full he ha hfull, retire_raise_dropDecoder _ hw]

/-! ### DEC_END (R192) -/

/-- In ACTIVE with ERR = 0, DEC_END publishes the result of Decode. -/
theorem exec_decEnd {s : State} (he : s.err = false) (ha : s.dstate = .active) :
    exec .decEnd s = .next (retire (publish (decodeStream s.node s.kind s.root s.din) s)) :=
  exec_of_phaseHolds (i := .decEnd) he ha

/-- An output that fits is published. -/
theorem publish_of_fits {r : Decoded} {out : List Symbol} {s : State} (hr : r.output = some out)
    (hfit : out.length ≤ s.cfg.decOutCapSyms.toNat) :
    publish r s = { s with din := [], dout := out, drp := 0, dstate := .done } := by
  simp only [publish, hr, Decoded.length_eq hr, if_neg (Nat.not_lt.2 hfit)]

/-- A malformed stream is an error. -/
theorem publish_of_malformed {r : Decoded} {s : State} (hr : r.output = none) :
    publish r s = raise .malformedStream (dropDecoder s) := by
  simp only [publish, hr]

/-- An output that does not fit is an error. -/
theorem publish_of_full {r : Decoded} {out : List Symbol} {s : State} (hr : r.output = some out)
    (hfull : s.cfg.decOutCapSyms.toNat < out.length) :
    publish r s = raise .capacityExceeded (dropDecoder s) := by
  simp only [publish, hr, Decoded.length_eq hr, if_pos hfull]

/-- In ACTIVE with ERR = 0, DEC_END publishes an output that fits. -/
theorem exec_decEnd_of_fits {s : State} {out : List Symbol} (he : s.err = false) (ha : s.dstate = .active)
    (hr : (decodeStream s.node s.kind s.root s.din).output = some out)
    (hfit : out.length ≤ s.cfg.decOutCapSyms.toNat) :
    exec .decEnd s = .next { s with pend := none, din := [], dout := out, drp := 0, dstate := .done } := by
  rw [exec_decEnd he ha, publish_of_fits hr hfit]
  rfl

/-- Settles O37: DEC_END publishes the result of Decode, by whether there is an output and whether it fits. -/
theorem decEndPublishes : Obligations.DecEndPublishes := by
  unfold Obligations.DecEndPublishes
  refine ⟨decode_encode .decEnd, illegalOutOfPhase _, fun s he ha => ⟨fun out => exec_decEnd_of_fits he ha,
    fun w hw hr => ?_, fun w out hw hr hfull => ?_⟩⟩
  · rw [exec_decEnd he ha, publish_of_malformed hr, retire_raise_dropDecoder _ hw]
  · rw [exec_decEnd he ha, publish_of_full hr hfull, retire_raise_dropDecoder _ hw]

/-! ### Decode over a built tree (R193) -/

/-- KIND goes by the number of symbols with an entry (R50 item 2, R141). -/
theorem treeBuild_kind_eq (ft : FreqTable) : (treeBuild ft).kind = kindFor (leafSymbols ft).length := by
  rw [treeBuild_kind, entryCount_eq]

theorem leafSymbols_of_kind_empty {ft : FreqTable} (h : (treeBuild ft).kind = .empty) : leafSymbols ft = [] := by
  rw [treeBuild_kind_eq, kindFor] at h
  split_ifs at h with h0
  exact List.eq_nil_of_length_eq_zero h0

theorem leafSymbols_of_kind_single {ft : FreqTable} (h : (treeBuild ft).kind = .single) :
    ∃ x, leafSymbols ft = [x] := by
  rw [treeBuild_kind_eq, kindFor] at h
  split_ifs at h with h0 h1
  exact List.length_eq_one_iff.1 h1

theorem leafSymbols_of_kind_general {ft : FreqTable} (h : (treeBuild ft).kind = .general) :
    2 ≤ (leafSymbols ft).length := by
  rw [treeBuild_kind_eq, kindFor] at h
  split_ifs at h with h0 h1
  omega

/-- A tree over two or more symbols, as a term, has an internal root. -/
theorem treeBuild_holds_node {ft : FreqTable} (h : 2 ≤ (leafSymbols ft).length) :
    ∃ tl tr, Holds ft (treeBuild ft).arena (treeBuild ft).root (.node tl tr) ∧
      (CodeTree.node tl tr).leaves.Perm (leafSymbols ft) := by
  obtain ⟨tree, hH, hL⟩ := treeBuild_holds (List.ne_nil_of_length_pos (Nat.lt_of_lt_of_le Nat.two_pos h))
  cases tree with
  | leaf sym => simp [← hL.length_eq, CodeTree.leaves] at h
  | node tl tr => exact ⟨tl, tr, hH, hL⟩

/-- Decode over the tree that BUILD makes of a frequency table, read through `node`. -/
def decodeBuilt (node : Index → Node) (ft : FreqTable) (bits : Bits) : Option (List Symbol) :=
  (decodeStream node (treeBuild ft).kind (treeBuild ft).root bits).output

section
variable {ft : FreqTable} {node : Index → Node}

/-- EMPTY decodes only the empty stream, to nothing. -/
theorem decodeBuilt_of_empty (h : leafSymbols ft = []) (bits : Bits) :
    decodeBuilt node ft bits = if bits = [] then some [] else none := by
  rw [decodeBuilt, treeBuild_empty h, decodeStream]
  split <;> rfl

/-- SINGLE decodes only the empty stream, to as many copies of its symbol as its frequency. -/
theorem decodeBuilt_of_single (hn : Reads node (treeBuild ft).arena) {x : Symbol} (h : leafSymbols ft = [x])
    (bits : Bits) :
    decodeBuilt node ft bits = if bits = [] then some (List.replicate (ftGet ft x).toNat x) else none := by
  have hleaf : node 0 = leafOf ft x := hn 0 _ (by rw [treeBuild_single h]; rfl)
  have hfreq : ((ftGet ft x).zeroExtend 40).toNat = (ftGet ft x).toNat := BitVec.toNat_setWidth_of_le (by decide)
  simp only [decodeBuilt, treeBuild_single h, decodeStream, hleaf, leafOf, hfreq]
  split <;> rfl

/-- With an internal root, GENERAL decodes what the walk from the root gives, and the empty stream to nothing. -/
theorem output_decodeStream_general {root l r : Index} {f : NodeFreq} (hroot : node root = .internal f l r)
    {bits : Bits} {out : List Symbol} : (decodeStream node .general root bits).output = some out ↔
      walkStream node root root bits = some out ∨ (bits = [] ∧ out = []) := by
  cases bits with
  | nil => simp [decodeStream, walkStream, hroot, Decoded.output, eq_comm]
  | cons b bs =>
    cases hw : walkStream node root root (b :: bs) <;> simp [decodeStream, hw, Decoded.output]

/-- The walk from the root of a tree over two or more symbols gives the symbols whose codes make up the bits. -/
theorem walkStream_treeBuild (draw : Nat) (hn : Reads node (treeBuild ft).arena) (h : 2 ≤ (leafSymbols ft).length)
    {bits : Bits} {out : List Symbol} :
    walkStream node (treeBuild ft).root (treeBuild ft).root bits = some out ↔
      out ≠ [] ∧ (∀ x ∈ out, (ctGet (builtCodes ft draw) x).isSome = true) ∧
        bits = codesOf (builtCodes ft draw) out := by
  obtain ⟨tl, tr, hH, hL⟩ := treeBuild_holds_node h
  have hpath := ctGet_builtCodes draw hH hL
  constructor
  · intro hw
    have hcode : ∀ x c, (x, c) ∈ (CodeTree.node tl tr).paths [] → (ctGet (builtCodes ft draw) x).getD [] = c :=
      fun x c hc => by simp [(hpath x c).2 hc]
    have hsome : ∀ y ∈ (CodeTree.node tl tr).leaves, (ctGet (builtCodes ft draw) y).isSome = true :=
      fun y hy => (isSome_builtCodes ft draw y).2 (mem_leafSymbols.1 (hL.subset hy))
    obtain ⟨x, c, rest, hx, rfl, rfl, hrest⟩ := walkStream_sound hn hH _ hcode bits _ _ _ hH hw
    refine ⟨List.cons_ne_nil _ _, List.forall_mem_cons.2 ⟨?_, fun y hy => hsome y (hrest y hy)⟩, ?_⟩
    · exact hsome x (CodeTree.mem_leaves_of_path hx)
    · rw [codesOf_cons ((hpath x c).2 hx), codesOf]
  · rintro ⟨hne, hsome, rfl⟩
    refine walkStream_codes hn hH _ out hne fun x hx => ?_
    obtain ⟨c, hc⟩ := Option.isSome_iff_exists.1 (hsome x hx)
    simpa [hc] using (hpath x c).1 hc

/-- GENERAL decodes exactly the concatenations of codes, to their symbols in order. -/
theorem decodeBuilt_of_general (draw : Nat) (hn : Reads node (treeBuild ft).arena) (h : 2 ≤ (leafSymbols ft).length)
    (bits : Bits) (out : List Symbol) : decodeBuilt node ft bits = some out ↔
      (∀ x ∈ out, (ctGet (builtCodes ft draw) x).isSome = true) ∧ bits = codesOf (builtCodes ft draw) out := by
  obtain ⟨-, -, -, -, -, hkind, -⟩ := treeBuild_general h
  obtain ⟨tl, tr, hH, -⟩ := treeBuild_holds_node h
  cases hH with
  | node hroot =>
    rw [decodeBuilt, hkind, output_decodeStream_general (hn _ _ hroot), walkStream_treeBuild draw hn h]
    by_cases hout : out = []
    · simp [hout, codesOf]
    · simp [hout]

end

/-- Settles O38: Decode by KIND, which goes by the number of symbols with an entry. -/
theorem decodeInvertsTheCode : Obligations.DecodeInvertsTheCode := by
  unfold Obligations.DecodeInvertsTheCode
  intro s t hs ht bits
  obtain rfl := eq_of_exec_build hs ht
  have hn : Reads (retire (buildOwn s)).node (treeBuild s.ft).arena := reads_nodeAt _ _
  refine ⟨fun hk => ?_, fun sym hk hsym => ?_, fun hk => ?_⟩
  · exact decodeBuilt_of_empty (leafSymbols_of_kind_empty hk) bits
  · obtain ⟨x, hx⟩ := leafSymbols_of_kind_single hk
    obtain rfl : sym = x := by simpa [hx] using mem_leafSymbols.2 hsym
    exact decodeBuilt_of_single hn hx bits
  · exact decodeBuilt_of_general _ hn (leafSymbols_of_kind_general hk) bits

/-! ### The round trip (R194) -/

/-- With at most one entry every code is empty (R144 item 4). -/
theorem codesOf_builtCodes_eq_nil {ft : FreqTable} (draw : Nat) (h : (leafSymbols ft).length ≤ 1)
    (msg : List Symbol) : codesOf (builtCodes ft draw) msg = [] := by
  refine List.flatMap_eq_nil_iff.2 fun x _ => ?_
  cases hc : ctGet (builtCodes ft draw) x with
  | none => rfl
  | some c =>
    have hlt := length_builtCodes_lt hc
    exact List.eq_nil_of_length_eq_zero (l := c) (by omega)

/-- Over the tree of a sequence's own counts, the codes of the sequence decode to the sequence. -/
theorem decodeBuilt_codesOf {ft : FreqTable} {node : Index → Node} (draw : Nat)
    (hn : Reads node (treeBuild ft).arena) {msg : List Symbol} (hcount : ∀ x, (ftGet ft x).toNat = msg.count x) :
    decodeBuilt node ft (codesOf (builtCodes ft draw) msg) = some msg := by
  have hmem : ∀ x ∈ msg, x ∈ leafSymbols ft := fun x hx => mem_leafSymbols.2 fun h0 => by
    have hpos := List.count_pos_iff.2 hx
    simp [← hcount, h0] at hpos
  rcases leafSymbols_cases ft with h | ⟨x, h⟩ | h
  · have hmsg : msg = [] := List.eq_nil_iff_forall_not_mem.2 fun x hx => by simpa [h] using hmem x hx
    rw [codesOf_builtCodes_eq_nil draw (by simp [h]), decodeBuilt_of_empty h, if_pos rfl, hmsg]
  · have hall : ∀ y ∈ msg, y = x := fun y hy => by simpa [h] using hmem y hy
    have hlen : msg.count x = msg.length := List.count_eq_length.2 fun y hy => (hall y hy).symm
    rw [codesOf_builtCodes_eq_nil draw (by simp [h]), decodeBuilt_of_single hn h, if_pos rfl, hcount, hlen,
      ← List.eq_replicate_length.2 hall]
  · exact (decodeBuilt_of_general draw hn h _ _).2
      ⟨fun x hx => (isSome_builtCodes ft draw x).2 (mem_leafSymbols.1 (hmem x hx)), rfl⟩

/-- A first pass from `Clean` that ends without error ran BUILD on the counts of the sequence. -/
theorem exists_of_completeAll_countPass {msg : List Symbol} {s u : State} (hs : s.Clean)
    (h : completeAll (countPass msg) s = .next u) (hok : u.err = false) :
    ∃ v, u = retire (buildOwn v) ∧ v.cfg = s.cfg ∧ ∀ x, (ftGet v.ft x).toNat = msg.count x := by
  obtain ⟨v, hv⟩ := exists_completeAll (msg.map Instr.count) s
  rw [countPass, completeAll_append_of hv] at h
  have hvok : v.err = false := Bool.eq_false_iff.2 fun he => by
    simp [err_of_completeAll (by simp [runsOnError]) h he] at hok
  have hframe := frame_of_completeAll_count hv hs.err hs.tstate hvok
  have htstate : v.tstate = .collect := by rw [hframe]; exact hs.tstate
  rw [completeAll_cons_of_exec (exec_build ⟨hvok, htstate⟩)] at h
  injection h with h
  refine ⟨v, h.symm, by rw [hframe], fun x => ?_⟩
  simpa [hs.ft] using toNat_ftGet_of_completeAll_count hv hs.err hs.tstate hvok x

/-- The bits of DEC_BITS commands, concatenated. -/
def chunkBits (chunks : List (BitVec 4 × BitVec 16)) : Bits := chunks.flatMap fun c => streamBits c.1 c.2

/-- In an open session, chunks that fit are appended to DIN, in any split. -/
theorem exists_completeAll_decBits_of_fits {chunks : List (BitVec 4 × BitVec 16)} {s : State} (he : s.err = false)
    (ha : s.dstate = .active) (hfit : s.din.length + (chunkBits chunks).length ≤ s.cfg.decInCapBits.toNat) :
    ∃ p, completeAll (chunks.map fun c => Instr.decBits c.1 c.2) s =
      .next { s with pend := p, din := s.din ++ chunkBits chunks } := by
  induction chunks generalizing s with
  | nil => exact ⟨s.pend, by simp [completeAll, chunkBits]⟩
  | cons c chunks ih =>
    have hbits : chunkBits (c :: chunks) = streamBits c.1 c.2 ++ chunkBits chunks := List.flatMap_cons
    rw [hbits, List.length_append, length_streamBits, ← Nat.add_assoc] at hfit
    rw [List.map_cons, completeAll_cons_of_exec (exec_decBits_of_fits he ha (le_trans (Nat.le_add_right _ _) hfit)),
      hbits, ← List.append_assoc]
    exact ih he ha (by simpa using hfit)

/-- In BUILT with ERR = 0, a decoder session over chunks that fit, and that decode to an output that fits, publishes the
output. -/
theorem completeAll_decodePass {chunks : List (BitVec 4 × BitVec 16)} {t : State} {out : List Symbol}
    (he : t.err = false) (ht : t.tstate = .built) (hfit : (chunkBits chunks).length ≤ t.cfg.decInCapBits.toNat)
    (hr : (decodeStream t.node t.kind t.root (chunkBits chunks)).output = some out)
    (hout : out.length ≤ t.cfg.decOutCapSyms.toNat) : completeAll (decodePass chunks) t =
      .next { t with pend := none, din := [], dout := out, drp := 0, dstate := .done } := by
  obtain ⟨p, hbits⟩ := exists_completeAll_decBits_of_fits (s := retire (decBeginOwn t)) he rfl (by simpa using hfit)
  rw [decodePass, completeAll_cons_of_exec (exec_decBegin he ht)]
  calc completeAll (chunks.map (fun c => Instr.decBits c.1 c.2) ++ [.decEnd]) (retire (decBeginOwn t))
    _ = completeAll [.decEnd] { retire (decBeginOwn t) with pend := p, din := chunkBits chunks } :=
      completeAll_append_of hbits
    _ = _ := completeAll_cons_of_exec (exec_decEnd_of_fits he rfl hr hout)

/-- Settles O39: after the two passes the resident tree is that of the sequence's counts, and EBUF is its codes. -/
theorem roundTrip : Obligations.RoundTrip := by
  unfold Obligations.RoundTrip
  intro s t msg chunks hs h hok hchunks hin hout
  obtain ⟨u, hu⟩ := exists_completeAll (countPass msg) s
  rw [completeAll_append_of hu] at h
  obtain ⟨he, ht, henc⟩ := encodable_of_completeAll_encodePass h hok
  rw [completeAll_encodePass he ht henc] at h
  injection h with h
  subst h
  obtain ⟨v, rfl, hcfg, hcount⟩ := exists_of_completeAll_countPass hs hu he
  rw [← hchunks, ← hcfg] at hin
  rw [← hcfg] at hout
  refine ⟨_, completeAll_decodePass he rfl hin ?_ hout, he, rfl, rfl⟩
  rw [chunkBits, hchunks]
  exact decodeBuilt_codesOf (v.arenaDraws + 1) (reads_nodeAt _ _) hcount

/-! ### DEC_OUT and DEC_LEN (R39, R195) -/

/-- In DONE with symbols left, a pop gives the next symbol and advances DRP. -/
theorem decPop_of_left {s : State} {sym : Symbol} (hd : s.dstate = .done) (hl : s.dout[s.drp]? = some sym) :
    decPop s = (symbolWord sym, { s with drp := s.drp + 1 }) := by
  simp only [decPop, hd, hl]

/-- Otherwise a pop gives 0 and changes nothing. -/
theorem decPop_of_none_left {s : State} (h : s.dstate ≠ .done ∨ s.dout.length ≤ s.drp) : decPop s = (0, s) := by
  rcases decPop_cases s with ⟨sym, hd, hsym, -⟩ | ⟨-, hpop⟩
  · have hlt := (List.getElem?_eq_some_iff.1 hsym).1
    exact absurd hd (h.resolve_right (Nat.not_le.2 hlt))
  · exact hpop

/-- What a pop returns, each field placed at its lowest bit (R39). -/
theorem symbolWord_eq_placed (sym : Symbol) :
    symbolWord sym = (1#1).setWidth 32 <<< 31 ||| sym.setWidth 32 <<< 0 := by
  simp [symbolWord]

/-- The fields of what a pop returns: VALID, zeros, and the symbol (R39). -/
theorem symbolWord_fields (sym : Symbol) : (symbolWord sym).getLsbD 31 = true ∧
    (symbolWord sym).extractLsb' 8 23 = 0 ∧ (symbolWord sym).extractLsb' 0 8 = sym := by
  simp (disch := omega) only [symbolWord_eq_placed, BitVec.extractLsb'_or, extractLsb'_placed_same,
    extractLsb'_placed_disjoint, BitVec.zero_or]
  simp

/-- Settles O40: the pop by whether symbols are left, the two reads while a command is pending or not, and the writes. -/
theorem decOutPops : Obligations.DecOutPops := by
  unfold Obligations.DecOutPops
  refine ⟨fun s hp => ⟨fun sym hd hl => ?_, fun h => ?_, busRead_of_idle hp⟩, fun s hp => busRead_of_pending rfl hp,
    fun s v => ⟨busWrite_of_ne (by decide) (by decide) v s, busWrite_of_ne (by decide) (by decide) v s⟩, rfl, rfl⟩
  · have hread : busRead (Reg.ofOffset 0x2C) s = _ := (busRead_of_idle hp).trans (decPop_of_left hd hl)
    rw [hread]
    exact ⟨rfl, symbolWord_fields sym⟩
  · exact (busRead_of_idle hp).trans (decPop_of_none_left h)

end Sys2Proof.Machine
end

section
/-! PROOFS. The family spec/60_exceptions.md: the sticky error (O10), what raising an error does (O11), which commands
raise which error (O12), the record that keeps the first error (O13), and that nothing but a host access stops a step
(O14). -/

namespace Sys2Proof.Machine

/-! ### The engine's step by ERR (R100, R226) -/

/-- Settles O10: CLEAR and ACK have one word each, and every other word is discarded. -/
theorem stickyError : Obligations.StickyError := by
  unfold Obligations.StickyError
  intro s w he hp
  by_cases hclear : w = 0x01000000
  · subst hclear
    rw [if_pos rfl, engineStep_of_legal hp (decode_encode .clear), exec_clear]
  by_cases hack : w = 0x02000000
  · subst hack
    rw [if_neg hclear, if_pos rfl, engineStep_of_legal hp (decode_encode .ack), exec_ack]
  rw [if_neg hclear, if_neg hack]
  exact engineStep_of_err hp he (fun hw => hclear (decode_eq_some_iff_encode_eq.1 hw).symm)
    (fun hw => hack (decode_eq_some_iff_encode_eq.1 hw).symm)

/-- From ERR = 0, a word that is illegal or out of phase raises ILLEGAL_COMMAND, and any other runs its command's own
rule. -/
theorem engineStep_cases_of_noErr {s t : State} {w : Word} (he : s.err = false) (hp : s.pend = some w)
    (h : engineStep s = .next t) :
    ((∀ i, decode w = some i → ¬ PhaseHolds i s) ∧ t = retire (raise .illegalCommand s)) ∨
    (∃ i, decode w = some i ∧ PhaseHolds i s ∧ t = retire (ownRule i s)) := by
  cases hw : decode w with
  | none =>
    rw [engineStep_of_illegal hp hw] at h
    rcases runIllegal_cases h with ⟨he', -⟩ | ⟨-, ht⟩
    · exact absurd he' (by simp [he])
    · exact .inl ⟨by simp, ht⟩
  | some i =>
    rw [engineStep_of_legal hp hw] at h
    by_cases hph : PhaseHolds i s
    · rw [exec_of_phaseHolds he hph] at h
      injection h with h
      exact .inr ⟨i, rfl, hph, h.symm⟩
    · rw [illegalOutOfPhase i s w he hp hph] at h
      injection h with h
      exact .inl ⟨by simpa using hph, by simp [← h, retire, raise, hp]⟩

/-! ### Raising an error (R222) -/

/-- The word is an ENC_SYM in an active encoder session, whose errors end the session (R171). -/
def State.EncodesActive (s : State) (w : Word) : Prop := (∃ sym, decode w = some (.encSym sym)) ∧ s.estate = .active

/-- The word is a DEC_BITS or a DEC_END in an active decoder session, whose errors end the session (R191, R192). -/
def State.DecodesActive (s : State) (w : Word) : Prop :=
  ((∃ n d, decode w = some (.decBits n d)) ∨ decode w = some .decEnd) ∧ s.dstate = .active

/-- What an engine step that raises an error leaves of the state `s`, by the session that the error ends. -/
inductive ErrorShape (s : State) (w : Word) : State → Prop
  | plain (c : ErrCode) (hc : c ≠ .none) (hn : ¬ s.EncodesActive w) (hd : ¬ s.DecodesActive w) :
      ErrorShape s w (retire (raise c s))
  | encoder (c : ErrCode) (hc : c ≠ .none) (ha : s.EncodesActive w) (hd : ¬ s.DecodesActive w) :
      ErrorShape s w (retire (raise c (dropEncoder s)))
  | decoder (c : ErrCode) (hc : c ≠ .none) (hn : ¬ s.EncodesActive w) (ha : s.DecodesActive w) :
      ErrorShape s w (retire (raise c (dropDecoder s)))

/-- In phase, an own rule that raises an error ends its command's own session. -/
theorem OwnShape.errorShape {s t : State} {i : Instr} {w : Word} (hs : OwnShape s i t) (hw : decode w = some i)
    (hp : PhaseHolds i s) (he : s.err = false) (ht : t.err = true) : ErrorShape s w (retire t) := by
  have hn : ¬ s.err = true := by simp [he]
  cases hs with
  | tableError _ sym c hi hc =>
    rcases hi with rfl | rfl
    all_goals exact .plain c hc (by simp [State.EncodesActive, hw]) (by simp [State.DecodesActive, hw])
  | encError sym c hc => exact .encoder c hc ⟨⟨sym, hw⟩, hp⟩ (by simp [State.DecodesActive, hw])
  | decError _ c hi hc =>
    cases i with
    | decBits n d => exact .decoder c hc (by simp [State.EncodesActive, hw]) ⟨.inl ⟨n, d, hw⟩, hp⟩
    | decEnd => exact .decoder c hc (by simp [State.EncodesActive, hw]) ⟨.inr hw, hp⟩
    | _ => simp [Instr.opcode] at hi
  | clear | ack => cases ht
  | _ => exact absurd ht hn

/-- Everything an engine step from ERR = 0 to ERR = 1 can do. -/
theorem errorShape {s t : State} {w : Word} (he : s.err = false) (hp : s.pend = some w) (h : engineStep s = .next t)
    (ht : t.err = true) : ErrorShape s w t := by
  rcases engineStep_cases_of_noErr he hp h with ⟨hout, rfl⟩ | ⟨i, hw, hph, rfl⟩
  · refine .plain _ (by decide) ?_ ?_
    · rintro ⟨⟨sym, hw⟩, ha⟩
      exact hout _ hw ha
    · rintro ⟨⟨n, d, hw⟩ | hw, ha⟩ <;> exact hout _ hw ha
  · exact (ownShape i s).errorShape hw hph he ht

/-- Settles O11: an error is raised on the state as it is, or on the state without the session it ends. -/
theorem errorEntry : Obligations.ErrorEntry := by
  unfold Obligations.ErrorEntry
  intro s t w he hp hstep ht
  cases errorShape he hp hstep ht with
  | plain c hc hn hd =>
    exact ⟨hc, by simp [retire, raise, hp], fun hw ha => absurd ⟨hw, ha⟩ hn, fun _ => ⟨rfl, rfl, rfl⟩,
      fun hw ha => absurd ⟨hw, ha⟩ hd, fun _ => ⟨rfl, rfl, rfl, rfl⟩⟩
  | encoder c hc ha hd =>
    obtain ⟨⟨sym, hw⟩, hact⟩ := ha
    refine ⟨hc, by simp [retire_raise_dropEncoder _ hp], fun _ _ => ⟨rfl, rfl, rfl⟩, ?_,
      fun hbits hdact => absurd ⟨hbits, hdact⟩ hd, fun _ => ⟨rfl, rfl, rfl, rfl⟩⟩
    rintro (hne | hne)
    · exact absurd hw (hne sym)
    · exact absurd hact hne
  | decoder c hc hn ha =>
    obtain ⟨hw, hact⟩ := ha
    refine ⟨hc, by simp [retire_raise_dropDecoder _ hp], fun hsym heact => absurd ⟨hsym, heact⟩ hn,
      fun _ => ⟨rfl, rfl, rfl⟩, fun _ _ => ⟨rfl, rfl, rfl, rfl⟩, ?_⟩
    rintro (⟨hbits, hend⟩ | hne)
    · rcases hw with ⟨n, d, hw⟩ | hw
      · exact absurd hw (hbits n d)
      · exact absurd hw hend
    · exact absurd hact hne

/-! ### The causes (R221) -/

/-- For a legal word in its phase, what R221 says of ILLEGAL_COMMAND is void, and the command's own condition and code
are left. -/
theorem causes_of_phaseHolds {s : State} {i : Instr} {raised cond illegal : Prop} {code : Instr → Prop}
    (hp : PhaseHolds i s) (h : (raised ↔ cond) ∧ (raised → code i)) :
    (raised ↔ ¬ PhaseHolds i s ∨ cond) ∧ (raised →
      (some i = none ∨ (∃ j, some i = some j ∧ ¬ PhaseHolds j s) → illegal) ∧
      ∀ j, some i = some j → PhaseHolds j s → code j) := by
  obtain ⟨hiff, hcode⟩ := h
  simpa [hp, hiff] using hcode

/-- A state with ERR = 0 shows no error, so it is right where there is no cause for one. -/
theorem causes_of_noErr {t : State} {cond code : Prop} (ht : t.err = false) (hc : ¬ cond) :
    (t.err = true ↔ cond) ∧ (t.err = true → code) := by
  simp [ht, hc]

/-- Settles O12: ILLEGAL_COMMAND for a word that is illegal or out of phase, and otherwise what the command's own rule
does by the condition it tests. -/
theorem errorCauses : Obligations.ErrorCauses := by
  unfold Obligations.ErrorCauses
  refine ⟨fun s t w he hp hstep => ?_, rfl, rfl, rfl, rfl, rfl, rfl⟩
  rcases engineStep_cases_of_noErr he hp hstep with ⟨hout, rfl⟩ | ⟨i, hw, hph, rfl⟩
  · refine ⟨iff_of_true rfl ?_, fun _ => ⟨fun _ => rfl, fun i hw hph => absurd hph (hout i hw)⟩⟩
    cases hw : decode w with
    | none => trivial
    | some i => exact .inl (hout i hw)
  · rw [hw]
    refine causes_of_phaseHolds hph ?_
    rw [retire_err, retire_errcode]
    cases i with
    | count sym =>
      rcases countOwn_cases sym s with ⟨hmax, e⟩ | ⟨hne, e⟩ <;> rw [ownRule, e]
      · exact ⟨iff_of_true rfl hmax, fun _ => rfl⟩
      · exact causes_of_noErr he hne
    | setFreq sym =>
      rcases setFreqOwn_cases sym s with ⟨hzero, e⟩ | ⟨hne, e⟩ <;> rw [ownRule, e]
      · exact ⟨iff_of_true rfl hzero, fun _ => rfl⟩
      · exact causes_of_noErr he hne
    | encSym sym =>
      rcases encSymOwn_cases sym s with ⟨hc, e⟩ | ⟨c, hc, hfull, e⟩ | ⟨c, hc, hfit, e⟩ <;> rw [ownRule, e]
      · exact ⟨iff_of_true rfl (by simp [hc]), fun _ => (if_pos hc).symm⟩
      · exact ⟨iff_of_true rfl (by simpa [hc] using hfull), fun _ => by simp [hc]⟩
      · exact causes_of_noErr he fun hfull => Nat.not_lt.2 hfit (hfull c hc)
    | decBits nm1 data =>
      rcases decBitsOwn_cases nm1 data s with ⟨hfull, e⟩ | ⟨hfit, e⟩ <;> rw [ownRule, e]
      · exact ⟨iff_of_true rfl hfull, fun _ => rfl⟩
      · exact causes_of_noErr he (Nat.not_lt.2 hfit)
    | decEnd =>
      rcases publish_cases (decodeStream s.node s.kind s.root s.din) s with
        ⟨hr, e⟩ | ⟨out, hr, hfull, e⟩ | ⟨out, hr, hfit, e⟩ <;> rw [ownRule, decEndOwn, e]
      · exact ⟨iff_of_true rfl (by simp [hr]), fun _ => (if_pos hr).symm⟩
      · exact ⟨iff_of_true rfl (by simpa [hr] using hfull), fun _ => by simp [hr]⟩
      · exact causes_of_noErr he fun hfull => Nat.not_lt.2 hfit (hfull out hr)
    | rdNode idx =>
      obtain ⟨r0, r1, e⟩ := rdNodeOwn_cases idx s
      rw [ownRule, e]
      exact causes_of_noErr he id
    | clear | ack => exact causes_of_noErr rfl id
    | nop | rdFreq | build | rdCode | encBegin | encEnd | decBegin => exact causes_of_noErr he id

/-! ### The record (R224, R226, R227) -/

/-- Settles O13: of the shapes of a machine step, an error is raised only with ERR = 0, and only CLEAR, ACK and a reset
empty the record. -/
theorem firstErrorIsKept : Obligations.FirstErrorIsKept := by
  unfold Obligations.FirstErrorIsKept
  intro s t he hstep
  cases stepShape hstep with
  | always i h hr =>
    rcases hr with rfl | rfl
    · exact .inr (.inl h)
    · exact .inr (.inr (.inl h))
  | rst h => exact .inr (.inr (.inr h))
  | illegal _ _ hne | ran _ _ _ hne => simp [he] at hne
  | pass | discarded | read | encPop | decPop | cmd | arg | dropped | ignored => exact .inl ⟨he, rfl, rfl⟩

/-! ### What stops a step (R61, R67, R237) -/

/-- The engine's step always answers. -/
theorem engineStep_next (s : State) : ∃ t, engineStep s = .next t := by
  cases hp : s.pend with
  | none => exact ⟨s, engineStep_of_idle hp⟩
  | some w =>
    cases hw : decode w with
    | none => exact ⟨_, engineStep_of_illegal hp hw⟩
    | some i =>
      obtain ⟨t, ht⟩ := exec_next i s
      exact ⟨t, (engineStep_of_legal hp hw).trans ht⟩

/-- A host step answers where its access reaches a register, and stops by where it goes instead. -/
theorem hostStep_next_or_stops (a : Access) (s : State) :
    (∃ t, hostStep a s = .next t) ∨
    ∃ addr bytes, (a = .read addr bytes ∨ ∃ v, a = .write addr bytes v) ∧
      (route s.cfg addr bytes = .outside ∧ hostStep a s = .fault .outsideWindow ∨
        route s.cfg addr bytes = .notWhole ∧ hostStep a s = .refused .notAWholeRegister) := by
  cases a with
  | read addr bytes =>
    cases hr : route s.cfg addr bytes with
    | reg r => exact .inl ⟨hostRead r s, by simp only [hostStep, hr]⟩
    | outside => exact .inr ⟨addr, bytes, .inl rfl, .inl ⟨hr, by simp only [hostStep, hr]⟩⟩
    | notWhole => exact .inr ⟨addr, bytes, .inl rfl, .inr ⟨hr, (hostStep_of_notWhole hr).1⟩⟩
  | write addr bytes v =>
    cases hr : route s.cfg addr bytes with
    | reg r => exact .inl ⟨busWrite r v s, by simp only [hostStep, hr]⟩
    | outside => exact .inr ⟨addr, bytes, .inr ⟨v, rfl⟩, .inl ⟨hr, by simp only [hostStep, hr]⟩⟩
    | notWhole => exact .inr ⟨addr, bytes, .inr ⟨v, rfl⟩, .inr ⟨hr, (hostStep_of_notWhole hr).2 v⟩⟩

/-- A machine step answers, or it is a host access that stops. -/
theorem step_next_or_stops (s : State) :
    (∃ t, step s = .next t) ∨
    ∃ addr bytes rest, (s.script = .host (.read addr bytes) :: rest ∨
        ∃ v, s.script = .host (.write addr bytes v) :: rest) ∧
      (route s.cfg addr bytes = .outside ∧ step s = .fault .outsideWindow ∨
        route s.cfg addr bytes = .notWhole ∧ step s = .refused .notAWholeRegister) := by
  match hs : s.script with
  | [] =>
    rw [step_of_engineNext (.inl hs)]
    exact .inl (engineStep_next _)
  | .engine :: rest =>
    rw [step_of_engineNext (.inr ⟨rest, hs⟩)]
    exact .inl (engineStep_next _)
  | .rst :: rest => exact .inl ⟨resetBlock { s with script := rest }, by simp only [step, machineStep, hs]⟩
  | .host a :: rest =>
    rw [step_of_hostNext hs]
    rcases hostStep_next_or_stops a { s with script := rest } with h | ⟨addr, bytes, ha, h⟩
    · exact .inl h
    · exact .inr ⟨addr, bytes, rest, by simpa using ha, h⟩

/-- Settles O14: a command always completes, and a step stops only at an access that is routed to no register. -/
theorem nothingStopsTheBlock : Obligations.NothingStopsTheBlock := by
  unfold Obligations.NothingStopsTheBlock
  refine ⟨exec_next, fun s => (step_next_or_stops s).imp_right ?_⟩
  rintro ⟨addr, bytes, rest, hs, ⟨hr, h⟩ | ⟨hr, h⟩⟩
  · exact ⟨addr, bytes, rest, hs, .inl ⟨route_eq_outside.1 hr, h⟩⟩
  · obtain ⟨hlo, hhi, hpart⟩ := route_eq_notWhole.1 hr
    exact ⟨addr, bytes, rest, hs, .inr ⟨hlo, hhi, hpart, h⟩⟩

end Sys2Proof.Machine
end

section
/-! PROOFS. The family spec/70_reset_and_hazards.md: an assertion of `rst` and the clean-entry premise (O55), and the end of
a run (O60). -/

namespace Sys2Proof.Machine

/-! ### Reset and clean entry (R250, R254) -/

/-- An assertion of `rst` resets the block on the schedule moved on (R250). -/
theorem step_of_resetsNext {s : State} (h : s.ResetsNext) : step s = .next (resetBlock s.advance) := by
  obtain ⟨rest, hs⟩ := h
  simp [step, machineStep, hs, State.advance]

/-- A machine step that completes a command is that command's completion, on the schedule moved on. -/
theorem step_of_completes {s : State} {i : Instr} (h : s.Completes i) : step s = exec i s.advance := by
  obtain ⟨hnext, w, hpend, hdecode⟩ := h
  rw [step_of_engineNext hnext]
  exact engineStep_of_legal hpend hdecode

theorem reset_clean : State.reset.Clean :=
  ⟨rfl, rfl, rfl, rfl, ftGet_ftEmpty, rfl, rfl⟩

/-- CLEAR leaves PEND to the end of the engine's step, so only its completion is clean. -/
theorem retire_clearBlock_clean (s : State) : (retire (clearBlock s)).Clean :=
  ⟨rfl, rfl, rfl, rfl, ftGet_ftEmpty, rfl, rfl⟩

/-- R254 lists no tree, code table or buffer: items 1, 6 and 7 of R50 give them from the three phases. -/
theorem State.Clean.absent_and_empty {s : State} (hc : s.Clean) (hi : s.R50) :
    s.kind = .none ∧ (∀ sym, ctGet s.ct sym = none) ∧ s.ebuf = [] ∧ s.din = [] ∧ s.dout = [] := by
  obtain ⟨-, -, -, hct⟩ := hi.collect_empty hc.tstate
  obtain ⟨hdout, -⟩ := hi.dout_empty (by simp [hc.dstate])
  exact ⟨hi.collect_iff.1 hc.tstate, hct, hi.ebuf_empty hc.estate, hi.din_empty (by simp [hc.dstate]), hdout⟩

/-- Settles O55: the step of a reset, clean states after a reset and after CLEAR, and what R50 adds to `Clean`. -/
theorem resetAndCleanEntry : Obligations.ResetAndCleanEntry := by
  unfold Obligations.ResetAndCleanEntry
  refine ⟨fun s rest hs => ?_, reset_clean, fun s t hclear hstep => ?_, fun _ hc hi => hc.absent_and_empty hi⟩
  · rw [step_of_resetsNext ⟨rest, hs⟩, State.advance, hs]
    rfl
  · rw [step_of_completes hclear, exec_clear] at hstep
    injection hstep with ht
    exact ht ▸ retire_clearBlock_clean s.advance

/-! ### The end of a run (R273) -/

/-- Once its run is over, a machine has the engine's turn next, unless it is reset. -/
theorem State.RunOver.engineNext {s : State} (h : s.RunOver) (hr : ¬ s.ResetsNext) : s.EngineNext := by
  match hs : s.script with
  | [] => exact .inl hs
  | .engine :: rest => exact .inr ⟨rest, hs⟩
  | .rst :: rest => exact absurd ⟨rest, hs⟩ hr
  | .host a :: rest => simp [State.RunOver, hs, accessesBeforeReset] at h

/-- The engine's turn takes no host access off the schedule. -/
theorem accessesBeforeReset_advance {s : State} (h : s.EngineNext) :
    accessesBeforeReset s.advance.script = accessesBeforeReset s.script := by
  rcases h with hs | ⟨rest, hs⟩ <;> rw [State.advance, hs] <;> rfl

/-- Settles O60: a run is over by the schedule's form, and then the engine's turn passes with nothing done. -/
theorem endOfRunIsFinal : Obligations.EndOfRunIsFinal := by
  unfold Obligations.EndOfRunIsFinal
  refine ⟨fun s => ?_, fun s hover hr => ?_⟩
  · rw [State.RunOver, accessesBeforeReset_eq_nil, and_comm]
  · have hnext := hover.engineNext hr
    obtain ⟨hhost, hidle⟩ := hover
    refine ⟨?_, (accessesBeforeReset_advance hnext).trans hhost, hidle⟩
    rw [step_of_engineNext hnext]
    exact engineStep_of_idle hidle

end Sys2Proof.Machine
end
